-- ==== Sys2Proof/Word.lean ====
section
/-! DEFINITION. The word types of the hardware (spec/00_scope.md R6, R7): 32-bit data path, 8-bit memory
cells, and the field types an instruction word is cut into (spec/30_encoding.md R91 to R94). -/

namespace Sys2Proof

/-- A 32-bit register, program counter or instruction word (R6 `XLEN`). -/
abbrev Word := BitVec 32

/-- One byte of data memory (R31). -/
abbrev Byte := BitVec 8

/-- A 5-bit register field; every value names a register (R20). -/
abbrev RegIdx := BitVec 5

/-- The 5-bit shift amount `shamt` (R91, R102). -/
abbrev Shamt := BitVec 5

/-- The 16-bit immediate `C16` of the I-format (R92). -/
abbrev Imm16 := BitVec 16

/-- The 26-bit target `C26` of the J-format (R93). -/
abbrev Target26 := BitVec 26

end Sys2Proof
end

