-- ==== Sys2Proof/Config.lean ====
section
/-! DEFINITION. The parameters of the hardware that are fixed for a machine (spec/00_scope.md R6) and their
default values. The default numbering, `Opc.default`, stands with the decoder (Sys2Proof/Decode.lean), the
fault-mask bits with the flags (Sys2Proof/Machine/Flags.lean). -/

namespace Sys2Proof

/-- A 6-bit `opcode` or `funct` number (R91, R97, R98). -/
abbrev Opcode := BitVec 6

/-- The primary opcode numbers, `w[31:26]` (R97); `rtype` is `OPC.RTYPE` of R96. -/
structure PrimaryOpcodes where
  (rtype lb lh lw lbu lhu sb sh sw beq bne bgtz addi addiu slti andi ori nori lui j jal halt :
  Opcode)
  deriving DecidableEq, Repr

/-- The `funct` numbers of the R-format instructions (R98). -/
structure Functs where
  (sll srl sra jr mfhi mflo mult multu add addu sub and or xor nor nand slt : Opcode)
  deriving DecidableEq, Repr

/-- The opcode and funct numbering, the parameter `OPC` (R6; spec/92_eei_decisions.md D1). -/
structure Opc where
  op : PrimaryOpcodes
  fn : Functs
  deriving DecidableEq, Repr

/-- What is fixed before cycle 0 and never written afterwards (R5, R6, R280): the base of the instruction
array, the two capacities, the watchdog bound and the numbering. A machine carries them in its state, where no step changes
them, so that a statement about a state holds for every value of them. -/
structure Params where
  /-- `IMEM_BASE`, the boot input `initialPC` (R6, R280). -/
  imemBase : Word
  /-- `IMEM_WORDS`, the capacity of the instruction array in words (R6). -/
  imemWords : Nat
  /-- `DMEM_BYTES`, the capacity of the data array in bytes (R6). -/
  dmemBytes : Nat
  /-- `MAX_CYCLES`, the watchdog bound (R6, R223). -/
  maxCycles : Nat
  /-- `OPC`, the opcode and funct numbering (R6, D1). -/
  opc : Opc
  deriving DecidableEq, Repr

namespace Config

/-- `IMEM_WORDS`, default 1024 (R6). -/
def imemWords : Nat := 1024

/-- `DMEM_BYTES`, default 4096 (R6, spec/90_conflicts.md C1). -/
def dmemBytes : Nat := 4096

/-- `MAX_CYCLES`, default 500,000 (R6). -/
def maxCycles : Nat := 500000

/-- `IMEM_BASE` of the reset state. DESIGN CHOICE (log 3): the spec makes it a boot input with no value of
its own; 0 is what the spec's worked examples use. -/
def imemBase : Word := 0#32

/-- `SP_INIT` of the reset state. DESIGN CHOICE (log 3): a boot input with no value of its own; 0 is what
the spec's worked examples use. -/
def spInit : Word := 0#32

/-- The parameters of the reset state (R6), with a numbering. -/
def params (opc : Opc) : Params :=
  { imemBase := imemBase, imemWords := imemWords, dmemBytes := dmemBytes, maxCycles := maxCycles, opc := opc }

end Config

/-- The unit of the data image's `count` field (R284, `DIMAGE_COUNT_UNIT`; spec/92_eei_decisions.md D22). -/
inductive CountUnit where
  | words
  | bytes
  deriving DecidableEq, Repr

/-- `DIMAGE_COUNT_UNIT`, default `words` (R284). -/
def Config.countUnit : CountUnit := .words

end Sys2Proof
end

