-- ==== Sys2Proof/Syntax.lean ====
section
/-! DEFINITION. The instructions as syntax: one constructor per row of spec/opcode_table.json
(spec/30_encoding.md R97 to R99). A constructor carries exactly the fields its rule uses; a field an
instruction ignores (R101) is no part of it. Operand order is the assembler order of R107. -/

namespace Sys2Proof

/-- The 38 instructions and the NOP word (R1, R97, R98, R99). -/
inductive Instr where
  /-- `NOP` (R201). -/
  | nop
  /-- `ADD $rd,$rs,$rt` (R131). -/
  | add (rd rs rt : RegIdx)
  /-- `ADDU $rd,$rs,$rt` (R132). -/
  | addu (rd rs rt : RegIdx)
  /-- `SUB $rd,$rs,$rt` (R133). -/
  | sub (rd rs rt : RegIdx)
  /-- `AND $rd,$rs,$rt` (R134). -/
  | and (rd rs rt : RegIdx)
  /-- `OR $rd,$rs,$rt` (R135). -/
  | or (rd rs rt : RegIdx)
  /-- `XOR $rd,$rs,$rt` (R136). -/
  | xor (rd rs rt : RegIdx)
  /-- `NOR $rd,$rs,$rt` (R137). -/
  | nor (rd rs rt : RegIdx)
  /-- `NAND $rd,$rs,$rt` (R138). -/
  | nand (rd rs rt : RegIdx)
  /-- `SLT $rd,$rs,$rt` (R139). -/
  | slt (rd rs rt : RegIdx)
  /-- `SLL $rd,$rt,shamt` (R140). -/
  | sll (rd rt : RegIdx) (shamt : Shamt)
  /-- `SRL $rd,$rt,shamt` (R141). -/
  | srl (rd rt : RegIdx) (shamt : Shamt)
  /-- `SRA $rd,$rt,shamt` (R142). -/
  | sra (rd rt : RegIdx) (shamt : Shamt)
  /-- `MULT $rs,$rt` (R150). -/
  | mult (rs rt : RegIdx)
  /-- `MULTU $rs,$rt` (R151). -/
  | multu (rs rt : RegIdx)
  /-- `MFHI $rd` (R152). -/
  | mfhi (rd : RegIdx)
  /-- `MFLO $rd` (R153). -/
  | mflo (rd : RegIdx)
  /-- `JR $rs` (R191). -/
  | jr (rs : RegIdx)
  /-- `ADDI $rt,$rs,C` (R161). -/
  | addi (rt rs : RegIdx) (imm : Imm16)
  /-- `ADDIU $rt,$rs,C` (R162). -/
  | addiu (rt rs : RegIdx) (imm : Imm16)
  /-- `LUI $rt,C` (R163). -/
  | lui (rt : RegIdx) (imm : Imm16)
  /-- `ANDI $rt,$rs,C` (R164). -/
  | andi (rt rs : RegIdx) (imm : Imm16)
  /-- `ORI $rt,$rs,C` (R165). -/
  | ori (rt rs : RegIdx) (imm : Imm16)
  /-- `NORI $rt,$rs,C` (R166). -/
  | nori (rt rs : RegIdx) (imm : Imm16)
  /-- `SLTI $rt,$rs,C` (R167). -/
  | slti (rt rs : RegIdx) (imm : Imm16)
  /-- `LW $rt,C($rs)` (R171). -/
  | lw (rt rs : RegIdx) (imm : Imm16)
  /-- `LH $rt,C($rs)` (R172). -/
  | lh (rt rs : RegIdx) (imm : Imm16)
  /-- `LHU $rt,C($rs)` (R173). -/
  | lhu (rt rs : RegIdx) (imm : Imm16)
  /-- `LB $rt,C($rs)` (R174). -/
  | lb (rt rs : RegIdx) (imm : Imm16)
  /-- `LBU $rt,C($rs)` (R175). -/
  | lbu (rt rs : RegIdx) (imm : Imm16)
  /-- `SW $rt,C($rs)` (R176). -/
  | sw (rt rs : RegIdx) (imm : Imm16)
  /-- `SH $rt,C($rs)` (R177). -/
  | sh (rt rs : RegIdx) (imm : Imm16)
  /-- `SB $rt,C($rs)` (R178). -/
  | sb (rt rs : RegIdx) (imm : Imm16)
  /-- `BEQ $rs,$rt,C` (R186). -/
  | beq (rs rt : RegIdx) (imm : Imm16)
  /-- `BNE $rs,$rt,C` (R187). -/
  | bne (rs rt : RegIdx) (imm : Imm16)
  /-- `BGTZ $rs,C` (R188). -/
  | bgtz (rs : RegIdx) (imm : Imm16)
  /-- `J C` (R189). -/
  | j (target : Target26)
  /-- `JAL C` (R190). -/
  | jal (target : Target26)
  /-- `HALT` (R200). -/
  | halt
  deriving DecidableEq, Repr

end Sys2Proof
end

