-- ==== Sys2Proof/Decode.lean ====
section
/-! DEFINITION. Instruction encoding and the instruction decoder (spec/30_encoding.md): field extraction
(R95), classification (R96 to R101), the decoder's outputs (R103 to R105), and the encoder (R91 to R94).

The numbering `OPC` is an argument of everything that looks at an opcode or funct number, as D1 of
spec/92_eei_decisions.md makes it a parameter; `Opc.default` is the table of R97 and R98. The spec supplies those
numbers from general knowledge (PRESUMED, log 1), as it does the bit positions of the fields (R91, D6). -/

namespace Sys2Proof

/-- The default numbering (R97, R98). -/
def Opc.default : Opc :=
  { op := {
      rtype := 0x00#6, lb := 0x20#6, lh := 0x21#6, lw := 0x23#6, lbu := 0x24#6, lhu := 0x25#6,
      sb := 0x28#6, sh := 0x29#6, sw := 0x2B#6, beq := 0x04#6, bne := 0x05#6, bgtz := 0x07#6,
      addi := 0x08#6, addiu := 0x09#6, slti := 0x0A#6, andi := 0x0C#6, ori := 0x0D#6, nori := 0x0E#6,
      lui := 0x0F#6, j := 0x02#6, jal := 0x03#6, halt := 0x3F#6 },
    fn := {
      sll := 0x00#6, srl := 0x02#6, sra := 0x03#6, jr := 0x08#6, mfhi := 0x10#6, mflo := 0x12#6,
      mult := 0x18#6, multu := 0x19#6, add := 0x20#6, addu := 0x21#6, sub := 0x22#6, and := 0x24#6,
      or := 0x25#6, xor := 0x26#6, nor := 0x27#6, nand := 0x28#6, slt := 0x2A#6 } }

/-- The primary opcode numbers in the order of `PrimaryOpcodes` (R97). -/
def PrimaryOpcodes.toList (p : PrimaryOpcodes) : List Opcode :=
  [p.rtype, p.lb, p.lh, p.lw, p.lbu, p.lhu, p.sb, p.sh, p.sw, p.beq, p.bne, p.bgtz, p.addi, p.addiu,
  p.slti, p.andi, p.ori, p.nori, p.lui, p.j, p.jal, p.halt]

/-- The funct numbers in the order of `Functs` (R98). -/
def Functs.toList (f : Functs) : List Opcode :=
  [f.sll, f.srl, f.sra, f.jr, f.mfhi, f.mflo, f.mult, f.multu, f.add, f.addu, f.sub, f.and, f.or,
  f.xor, f.nor, f.nand, f.slt]

/-- No two primary opcodes and no two functs share a number, so that a number names one instruction. -/
def Opc.distinct (o : Opc) : Bool := decide (o.op.toList.Nodup ∧ o.fn.toList.Nodup)

/-! ## Field extraction (R95): total on every word -/

def opcodeOf (w : Word) : Opcode := w.extractLsb' 26 6
def rsOf (w : Word) : RegIdx := w.extractLsb' 21 5
def rtOf (w : Word) : RegIdx := w.extractLsb' 16 5
def rdOf (w : Word) : RegIdx := w.extractLsb' 11 5
def shamtOf (w : Word) : Shamt := w.extractLsb' 6 5
def functOf (w : Word) : Opcode := w.extractLsb' 0 6
def c16Of (w : Word) : Imm16 := w.extractLsb' 0 16
def c26Of (w : Word) : Target26 := w.extractLsb' 0 26

/-! ## Field layouts (R91 to R94): the first-listed field is the most significant -/

/-- An R-format word (R91). -/
def packR (op : Opcode) (rs rt rd : RegIdx) (shamt : Shamt) (funct : Opcode) : Word :=
  op ++ rs ++ rt ++ rd ++ shamt ++ funct

/-- An I-format word (R92). -/
def packI (op : Opcode) (rs rt : RegIdx) (c : Imm16) : Word := op ++ rs ++ rt ++ c

/-- A J-format or S-format word (R93, R94). -/
def packJ (op : Opcode) (c : Target26) : Word := op ++ c

/-! ## Classification -/

/-- Why a word or a byte list is no instruction (R96, R100). -/
inductive DecodeReject where
  /-- The opcode is none of R97's. -/
  | illegalOpcode (op : Opcode)
  /-- `OPC.RTYPE` with a funct that is none of R98's. -/
  | illegalFunct (funct : Opcode)
  /-- Fewer than the four bytes of an instruction word (R90). -/
  | truncated (bytes : Nat)
  deriving DecidableEq, Repr

/-- A row of the opcode map: a number and the instruction built from the fields its format gives it. The
fields an instruction does not use are not looked at (R101). -/
abbrev OpcodeRow := Opcode × (Word → Instr)

/-- The R-format rows, by funct (R98). -/
def functRows (f : Functs) : List OpcodeRow :=
  [(f.sll, fun w => .sll (rdOf w) (rtOf w) (shamtOf w)),
   (f.srl, fun w => .srl (rdOf w) (rtOf w) (shamtOf w)),
   (f.sra, fun w => .sra (rdOf w) (rtOf w) (shamtOf w)),
   (f.jr, fun w => .jr (rsOf w)),
   (f.mfhi, fun w => .mfhi (rdOf w)),
   (f.mflo, fun w => .mflo (rdOf w)),
   (f.mult, fun w => .mult (rsOf w) (rtOf w)),
   (f.multu, fun w => .multu (rsOf w) (rtOf w)),
   (f.add, fun w => .add (rdOf w) (rsOf w) (rtOf w)),
   (f.addu, fun w => .addu (rdOf w) (rsOf w) (rtOf w)),
   (f.sub, fun w => .sub (rdOf w) (rsOf w) (rtOf w)),
   (f.and, fun w => .and (rdOf w) (rsOf w) (rtOf w)),
   (f.or, fun w => .or (rdOf w) (rsOf w) (rtOf w)),
   (f.xor, fun w => .xor (rdOf w) (rsOf w) (rtOf w)),
   (f.nor, fun w => .nor (rdOf w) (rsOf w) (rtOf w)),
   (f.nand, fun w => .nand (rdOf w) (rsOf w) (rtOf w)),
   (f.slt, fun w => .slt (rdOf w) (rsOf w) (rtOf w))]

/-- The I-, J- and S-format rows, by primary opcode, in the order `Classify` asks (R96, R97). -/
def opcodeRows (p : PrimaryOpcodes) : List OpcodeRow :=
  [(p.lb, fun w => .lb (rtOf w) (rsOf w) (c16Of w)),
   (p.lh, fun w => .lh (rtOf w) (rsOf w) (c16Of w)),
   (p.lw, fun w => .lw (rtOf w) (rsOf w) (c16Of w)),
   (p.lbu, fun w => .lbu (rtOf w) (rsOf w) (c16Of w)),
   (p.lhu, fun w => .lhu (rtOf w) (rsOf w) (c16Of w)),
   (p.sb, fun w => .sb (rtOf w) (rsOf w) (c16Of w)),
   (p.sh, fun w => .sh (rtOf w) (rsOf w) (c16Of w)),
   (p.sw, fun w => .sw (rtOf w) (rsOf w) (c16Of w)),
   (p.beq, fun w => .beq (rsOf w) (rtOf w) (c16Of w)),
   (p.bne, fun w => .bne (rsOf w) (rtOf w) (c16Of w)),
   (p.bgtz, fun w => .bgtz (rsOf w) (c16Of w)),
   (p.addi, fun w => .addi (rtOf w) (rsOf w) (c16Of w)),
   (p.addiu, fun w => .addiu (rtOf w) (rsOf w) (c16Of w)),
   (p.slti, fun w => .slti (rtOf w) (rsOf w) (c16Of w)),
   (p.andi, fun w => .andi (rtOf w) (rsOf w) (c16Of w)),
   (p.ori, fun w => .ori (rtOf w) (rsOf w) (c16Of w)),
   (p.nori, fun w => .nori (rtOf w) (rsOf w) (c16Of w)),
   (p.lui, fun w => .lui (rtOf w) (c16Of w)),
   (p.j, fun w => .j (c26Of w)),
   (p.jal, fun w => .jal (c26Of w)),
   (p.halt, fun _ => .halt)]

/-- The row of a number. -/
def lookupRow (code : Opcode) : List OpcodeRow → Option (Word → Instr)
  | [] => none
  | (c, build) :: rest => if code = c then some build else lookupRow code rest

/-- `Classify` with the fields its instruction uses (R96), for a numbering: the all-zero word first (R99), then
the opcode (R97), and for `OPC.RTYPE` the funct (R98). Reads nothing but the word. -/
def decodeWord (o : Opc) (w : Word) : Except DecodeReject Instr :=
  if w = 0#32 then .ok .nop
  else if opcodeOf w = o.op.rtype then
    match lookupRow (functOf w) (functRows o.fn) with
    | some build => .ok (build w)
    | none => .error (.illegalFunct (functOf w))
  else
    match lookupRow (opcodeOf w) (opcodeRows o.op) with
    | some build => .ok (build w)
    | none => .error (.illegalOpcode (opcodeOf w))

/-- The instruction formats (R11, R91 to R94), with the sentinel of R96. -/
inductive Format where
  | R
  | I
  | J
  | S
  | illegal
  deriving DecidableEq, Repr

/-- The four bytes of a word, most significant first (R65). -/
def wordBytes (w : Word) : List Byte :=
  [w.extractLsb' 24 8, w.extractLsb' 16 8, w.extractLsb' 8 8, w.extractLsb' 0 8]

/-- The word of four bytes, the first the most significant (R65). -/
def wordOfBytes (b0 b1 b2 b3 : Byte) : Word := b0 ++ b1 ++ b2 ++ b3

/-- The decoder over a byte stream in image order (R65): one instruction and the bytes behind it. -/
def decode (o : Opc) : List Byte → Except DecodeReject (Instr × List Byte)
  | b0 :: b1 :: b2 :: b3 :: rest =>
    match decodeWord o (wordOfBytes b0 b1 b2 b3) with
    | .ok i => .ok (i, rest)
    | .error e => .error e
  | bs => .error (.truncated bs.length)

/-- What the decoder reads from the instruction whose `nbits` bits are `w`, laid out as the image stores it.
Every instruction is one 32-bit word (R90); bits above `nbits` are 0. The numbering is the default one, the
table's. -/
def decodeTableWord (nbits w : Nat) : Option Instr :=
  if nbits ≤ 32 then
    match decode Opc.default (wordBytes ((BitVec.ofNat nbits w).setWidth 32)) with
    | .ok (i, _) => some i
    | .error _ => none
  else none

/-! ## Decoder outputs -/

/-- Access width of a load or store (R69, R104). -/
inductive Width where
  | byte
  | half
  | word
  deriving DecidableEq, Repr

/-- The width in bytes (R69). -/
def Width.bytes : Width → Nat
  | .byte => 1
  | .half => 2
  | .word => 4

/-- Extension of a loaded value to 32 bits (R104). -/
inductive LoadExt where
  | none
  | sign
  | zero
  deriving DecidableEq, Repr

/-- The decoder's predicates and control outputs for one instruction (R103, R104). -/
structure Control where
  /-- `hasSourceReg` (R103). -/
  hasRs : Bool
  /-- `hasTargetReg` (R103). -/
  hasRt : Bool
  /-- `RegWriteOf` (R104). -/
  regWrite : Bool
  /-- `Dest` (R104). -/
  dest : RegIdx
  /-- `isMemoryRead` (R103), the latches' `MemRead` (R104). -/
  memRead : Bool
  /-- `MemWriteOf` (R104). -/
  memWrite : Bool
  /-- The access width; used only where `memRead` or `memWrite` holds (R104). -/
  width : Width
  /-- The load's extension; used only where `memRead` holds (R104). -/
  ext : LoadExt
  deriving DecidableEq, Repr

/-- All outputs 0: NOP, HALT, J and the illegal sentinel (R103, R104). The width and the extension of an
instruction without a memory access are used by nothing. -/
def Control.none : Control :=
  { hasRs := false, hasRt := false, regWrite := false, dest := 0#5, memRead := false, memWrite := false,
    width := .word, ext := .none }

/-- Reads the named sources and writes nothing. -/
def Control.reads (rs rt : Bool) : Control := { Control.none with hasRs := rs, hasRt := rt }

/-- Reads the named sources and writes general register `d`. -/
def Control.writes (rs rt : Bool) (d : RegIdx) : Control :=
  { Control.none with hasRs := rs, hasRt := rt, regWrite := true, dest := d }

/-- A load of register `d`. -/
def Control.load (d : RegIdx) (n : Width) (e : LoadExt) : Control :=
  { Control.writes true false d with memRead := true, width := n, ext := e }

/-- A store. -/
def Control.store (n : Width) : Control :=
  { Control.reads true true with memWrite := true, width := n }

/-- The tables of R103 and R104. -/
def Instr.control : Instr → Control
  | .nop | .j _ | .halt => Control.none
  | .add rd _ _ | .addu rd _ _ | .sub rd _ _ | .and rd _ _ | .or rd _ _ | .xor rd _ _ | .nor rd _ _
  | .nand rd _ _ | .slt rd _ _ => Control.writes true true rd
  | .sll rd _ _ | .srl rd _ _ | .sra rd _ _ => Control.writes false true rd
  | .mult _ _ | .multu _ _ => Control.reads true true
  | .mfhi rd | .mflo rd => Control.writes false false rd
  | .jr _ => Control.reads true false
  | .addi rt _ _ | .addiu rt _ _ | .andi rt _ _ | .ori rt _ _ | .nori rt _ _ | .slti rt _ _ =>
    Control.writes true false rt
  | .lui rt _ => Control.writes false false rt
  | .lw rt _ _ => Control.load rt .word .none
  | .lh rt _ _ => Control.load rt .half .sign
  | .lhu rt _ _ => Control.load rt .half .zero
  | .lb rt _ _ => Control.load rt .byte .sign
  | .lbu rt _ _ => Control.load rt .byte .zero
  | .sw _ _ _ => Control.store .word
  | .sh _ _ _ => Control.store .half
  | .sb _ _ _ => Control.store .byte
  | .beq _ _ _ | .bne _ _ _ => Control.reads true true
  | .bgtz _ _ => Control.reads true false
  | .jal _ => Control.writes false false 31#5

/-- The decoder's control outputs as functions of the word; the illegal sentinel has all of them 0 (R103). -/
def controlOf (o : Opc) (w : Word) : Control :=
  match decodeWord o w with
  | .ok i => i.control
  | .error _ => Control.none

/-- The format of an instruction (R91 to R94, R97, R98); NOP is format R (R99). -/
def Instr.format : Instr → Format
  | .nop | .add _ _ _ | .addu _ _ _ | .sub _ _ _ | .and _ _ _ | .or _ _ _ | .xor _ _ _ | .nor _ _ _
  | .nand _ _ _ | .slt _ _ _ | .sll _ _ _ | .srl _ _ _ | .sra _ _ _ | .mult _ _ | .multu _ _ | .mfhi _
  | .mflo _ | .jr _ => .R
  | .addi _ _ _ | .addiu _ _ _ | .lui _ _ | .andi _ _ _ | .ori _ _ _ | .nori _ _ _ | .slti _ _ _
  | .lw _ _ _ | .lh _ _ _ | .lhu _ _ _ | .lb _ _ _ | .lbu _ _ _ | .sw _ _ _ | .sh _ _ _ | .sb _ _ _
  | .beq _ _ _ | .bne _ _ _ | .bgtz _ _ => .I
  | .j _ | .jal _ => .J
  | .halt => .S

/-- The format of a word, total (R96). -/
def formatOf (o : Opc) (w : Word) : Format :=
  match decodeWord o w with
  | .ok i => i.format
  | .error _ => .illegal

/-- The decoder's mnemonic output (R105). -/
def Instr.mnemonic : Instr → String
  | .nop => "NOP"
  | .add _ _ _ => "ADD"
  | .addu _ _ _ => "ADDU"
  | .sub _ _ _ => "SUB"
  | .and _ _ _ => "AND"
  | .or _ _ _ => "OR"
  | .xor _ _ _ => "XOR"
  | .nor _ _ _ => "NOR"
  | .nand _ _ _ => "NAND"
  | .slt _ _ _ => "SLT"
  | .sll _ _ _ => "SLL"
  | .srl _ _ _ => "SRL"
  | .sra _ _ _ => "SRA"
  | .mult _ _ => "MULT"
  | .multu _ _ => "MULTU"
  | .mfhi _ => "MFHI"
  | .mflo _ => "MFLO"
  | .jr _ => "JR"
  | .addi _ _ _ => "ADDI"
  | .addiu _ _ _ => "ADDIU"
  | .lui _ _ => "LUI"
  | .andi _ _ _ => "ANDI"
  | .ori _ _ _ => "ORI"
  | .nori _ _ _ => "NORI"
  | .slti _ _ _ => "SLTI"
  | .lw _ _ _ => "LW"
  | .lh _ _ _ => "LH"
  | .lhu _ _ _ => "LHU"
  | .lb _ _ _ => "LB"
  | .lbu _ _ _ => "LBU"
  | .sw _ _ _ => "SW"
  | .sh _ _ _ => "SH"
  | .sb _ _ _ => "SB"
  | .beq _ _ _ => "BEQ"
  | .bne _ _ _ => "BNE"
  | .bgtz _ _ => "BGTZ"
  | .j _ => "J"
  | .jal _ => "JAL"
  | .halt => "HALT"

/-- `IsHalt(w)` (R202): only the opcode field is looked at (R101). -/
def isHaltWord (o : Opc) (w : Word) : Bool := opcodeOf w == o.op.halt

/-- The register-reading control instructions BEQ, BNE, BGTZ, JR (R11, R301 `IsCtlReg`). -/
def Instr.isCtlReg : Instr → Bool
  | .beq _ _ _ | .bne _ _ _ | .bgtz _ _ | .jr _ => true
  | .nop | .add _ _ _ | .addu _ _ _ | .sub _ _ _ | .and _ _ _ | .or _ _ _ | .xor _ _ _ | .nor _ _ _
  | .nand _ _ _ | .slt _ _ _ | .sll _ _ _ | .srl _ _ _ | .sra _ _ _ | .mult _ _ | .multu _ _ | .mfhi _
  | .mflo _ | .addi _ _ _ | .addiu _ _ _ | .lui _ _ | .andi _ _ _ | .ori _ _ _ | .nori _ _ _
  | .slti _ _ _ | .lw _ _ _ | .lh _ _ _ | .lhu _ _ _ | .lb _ _ _ | .lbu _ _ _ | .sw _ _ _ | .sh _ _ _
  | .sb _ _ _ | .j _ | .jal _ | .halt => false

/-! ## The encoder -/

/-- The word of an instruction, ignored fields zero (R101); HALT has its canonical word, every bit of `C` 1. A
term whose word is then the all-zero word, which is NOP's, is not well-formed (R99; Sys2Proof/WellFormed.lean). -/
def encode (o : Opc) : Instr → Word
  | .nop => 0#32
  | .sll rd rt shamt => packR o.op.rtype 0#5 rt rd shamt o.fn.sll
  | .srl rd rt shamt => packR o.op.rtype 0#5 rt rd shamt o.fn.srl
  | .sra rd rt shamt => packR o.op.rtype 0#5 rt rd shamt o.fn.sra
  | .jr rs => packR o.op.rtype rs 0#5 0#5 0#5 o.fn.jr
  | .mfhi rd => packR o.op.rtype 0#5 0#5 rd 0#5 o.fn.mfhi
  | .mflo rd => packR o.op.rtype 0#5 0#5 rd 0#5 o.fn.mflo
  | .mult rs rt => packR o.op.rtype rs rt 0#5 0#5 o.fn.mult
  | .multu rs rt => packR o.op.rtype rs rt 0#5 0#5 o.fn.multu
  | .add rd rs rt => packR o.op.rtype rs rt rd 0#5 o.fn.add
  | .addu rd rs rt => packR o.op.rtype rs rt rd 0#5 o.fn.addu
  | .sub rd rs rt => packR o.op.rtype rs rt rd 0#5 o.fn.sub
  | .and rd rs rt => packR o.op.rtype rs rt rd 0#5 o.fn.and
  | .or rd rs rt => packR o.op.rtype rs rt rd 0#5 o.fn.or
  | .xor rd rs rt => packR o.op.rtype rs rt rd 0#5 o.fn.xor
  | .nor rd rs rt => packR o.op.rtype rs rt rd 0#5 o.fn.nor
  | .nand rd rs rt => packR o.op.rtype rs rt rd 0#5 o.fn.nand
  | .slt rd rs rt => packR o.op.rtype rs rt rd 0#5 o.fn.slt
  | .j target => packJ o.op.j target
  | .jal target => packJ o.op.jal target
  | .beq rs rt imm => packI o.op.beq rs rt imm
  | .bne rs rt imm => packI o.op.bne rs rt imm
  | .bgtz rs imm => packI o.op.bgtz rs 0#5 imm
  | .addi rt rs imm => packI o.op.addi rs rt imm
  | .addiu rt rs imm => packI o.op.addiu rs rt imm
  | .slti rt rs imm => packI o.op.slti rs rt imm
  | .andi rt rs imm => packI o.op.andi rs rt imm
  | .ori rt rs imm => packI o.op.ori rs rt imm
  | .nori rt rs imm => packI o.op.nori rs rt imm
  | .lui rt imm => packI o.op.lui 0#5 rt imm
  | .lb rt rs imm => packI o.op.lb rs rt imm
  | .lh rt rs imm => packI o.op.lh rs rt imm
  | .lw rt rs imm => packI o.op.lw rs rt imm
  | .lbu rt rs imm => packI o.op.lbu rs rt imm
  | .lhu rt rs imm => packI o.op.lhu rs rt imm
  | .sb rt rs imm => packI o.op.sb rs rt imm
  | .sh rt rs imm => packI o.op.sh rs rt imm
  | .sw rt rs imm => packI o.op.sw rs rt imm
  | .halt => packJ o.op.halt 0x3FFFFFF#26

/-- The four bytes of an instruction in image order (R65). -/
def encodeBytes (o : Opc) (i : Instr) : List Byte := wordBytes (encode o i)

end Sys2Proof
end

