-- ==== Sys2Proof/Machine/State.lean ====
section
/-! DEFINITION. The machine's state as plain data (spec/10_state.md, all of it), the reasons a step can end
without a next state, and the state after reset (R45). -/

namespace Sys2Proof.Machine

/-- A cycle's 6-bit fault mask (R39, R251). -/
abbrev FaultMask := BitVec 6

/-- A memory of `n`-bit cells: the listed (address, cell) pairs, addresses strictly rising, no cell equal to
what an unlisted address reads as (`Memory.wf` in Machine/Ops.lean). `Memory 8` is a list of `Host.Cell`. -/
abbrev Memory (n : Nat) := List (Nat × BitVec n)

/-- The IF/ID latch (R32). -/
structure IfId where
  /-- The fetched word. -/
  instr : Word
  /-- The fetched word's address plus 4 (`PC_at_decode`). -/
  pcNext : Word
  /-- `instr[25:21]`, extracted by IF. -/
  rsIdx : RegIdx
  /-- `instr[20:16]`, extracted by IF. -/
  rtIdx : RegIdx
  deriving DecidableEq, Repr

/-- The ID/EX latch (R33). -/
structure IdEx where
  instr : Word
  pcNext : Word
  rsData : Word
  rtData : Word
  writeDest : RegIdx
  regWrite : Bool
  memRead : Bool
  memWrite : Bool
  deriving DecidableEq, Repr

/-- The EX/MEM latch (R34). -/
structure ExMem where
  instr : Word
  aluResult : Word
  rtData : Word
  writeDest : RegIdx
  regWrite : Bool
  memRead : Bool
  memWrite : Bool
  deriving DecidableEq, Repr

/-- The MEM/WB latch (R35); `rtData` is the write-back data, under the source's name. -/
structure MemWb where
  instr : Word
  rtData : Word
  writeDest : RegIdx
  regWrite : Bool
  deriving DecidableEq, Repr

/-- The all-zero IF/ID latch, a bubble (R36). -/
def IfId.zero : IfId := { instr := 0#32, pcNext := 0#32, rsIdx := 0#5, rtIdx := 0#5 }

/-- The all-zero ID/EX latch, a bubble (R36). -/
def IdEx.zero : IdEx :=
  { instr := 0#32, pcNext := 0#32, rsData := 0#32, rtData := 0#32, writeDest := 0#5, regWrite := false, memRead := false,
    memWrite := false }

/-- The all-zero EX/MEM latch, a bubble (R36). -/
def ExMem.zero : ExMem :=
  { instr := 0#32, aluResult := 0#32, rtData := 0#32, writeDest := 0#5, regWrite := false, memRead := false,
    memWrite := false }

/-- The all-zero MEM/WB latch, a bubble (R36). -/
def MemWb.zero : MemWb := { instr := 0#32, rtData := 0#32, writeDest := 0#5, regWrite := false }

/-- The four single-slot pipeline latches (R32 to R35). -/
structure Pipe where
  ifid : IfId
  idex : IdEx
  exmem : ExMem
  memwb : MemWb
  deriving DecidableEq, Repr

/-- The empty pipeline: four bubbles (R36, R45). -/
def Pipe.empty : Pipe :=
  { ifid := IfId.zero, idex := IdEx.zero, exmem := ExMem.zero, memwb := MemWb.zero }

/-- Everything the spec gives the machine (the list at the head of spec/10_state.md). -/
structure State where
  /-- `x[0..31]` (R20); read and written only through `State.reg` and `State.setReg`. -/
  x : Vector Word 32
  /-- `HI` (R26). -/
  hi : Word
  /-- `LO` (R26). -/
  lo : Word
  /-- The unread-result lock (R27). -/
  lock : Bool
  /-- The program counter (R29). -/
  pc : Word
  /-- The instruction array: (word index, word) pairs (R30). -/
  imem : Memory 32
  /-- The data array: (byte address, byte) pairs (R31). -/
  dmem : Memory 8
  /-- The pipeline latches (R32 to R35). -/
  pipe : Pipe
  /-- The fault log, oldest entry first (R39). -/
  faultLog : List (Nat × FaultMask)
  /-- The number of completed steps (R40). -/
  cycle : Nat
  /-- Run status `FaultStopped` (R41, R256). -/
  stopped : Bool
  /-- What is fixed at boot (R6, R280); written by no step. -/
  par : Params
  deriving DecidableEq, Repr

/-- The run status (R41). -/
inductive RunStatus where
  | running
  | halted
  | faultStopped
  | capped
  deriving DecidableEq, Repr

/-- What `Fetch` answers (spec/20_memory.md R61, R80). -/
inductive FetchResult where
  /-- A word: of the array, or 0 below its base. -/
  | word (w : Word)
  /-- `FETCH_BEYOND`: at or past the end of the array (R61, spec/93_implementation_defined.md U1). -/
  | beyond
  /-- A misaligned address (R80, U2). -/
  | misaligned
  deriving DecidableEq, Repr

/-- Why the machine takes no step although the instruction at hand has a meaning: the run has ended. None of
these is one of the six faults of spec/60_exceptions.md R250; those are states (the log and `FaultStopped`).
Raised by `step` and `clock` only, never by an instruction's meaning. -/
inductive Fault where
  /-- A fatal fault stopped the machine earlier: no step from `FaultStopped` (R256). Safe: the machine stops. -/
  | faultStopped
  /-- The halt condition holds: no further step is taken (R202, R223). Safe: the machine stops. -/
  | halted
  /-- The watchdog bound is reached (R223, R267). Safe: the machine stops. -/
  | capped
  deriving DecidableEq, Repr

/-- Where the spec itself gives the machine no step. -/
inductive Refusal where
  /-- An instruction with no meaning yet. Raised by `exec` only; safe. -/
  | notModelled (mnemonic : String)
  /-- A fetch at or past the end of the instruction array (R61, U1: treat as refuse). Raised by `step` and
  `clock`; safe: the model stops. -/
  | fetchBeyond
  /-- A fetch from an address that is no multiple of 4 (R80, U2: treat as refuse). Raised by `step` and
  `clock`; safe: the model stops. -/
  | fetchMisaligned
  deriving DecidableEq, Repr

/-- The outcome of a step of this machine. -/
abbrev Result := Host.Outcome State Fault Refusal

/-- The state after reset with no image loaded (R45, R281). The zeros the source does not state are the
spec's own choice (D5): DESIGN CHOICE, unsafe (log 2). The boot inputs (base, stack pointer, images) are the
model's choice here: DESIGN CHOICE, unsafe (log 3); `boot` (Machine/Boot.lean) is R281 for any of them. -/
def State.reset : State :=
  { x := (Vector.replicate 32 0#32).set 29 Config.spInit,
    hi := 0#32, lo := 0#32, lock := false,
    pc := Config.imemBase,
    imem := [], dmem := [],
    pipe := Pipe.empty,
    faultLog := [], cycle := 0, stopped := false,
    par := Config.params Opc.default }

end Sys2Proof.Machine
end

