-- ==== Sys2Proof/Machine/Flags.lean ====
section
/-! DEFINITION. The fault mask (spec/60_exceptions.md R250, R251) and the overflow tests
(spec/40_r_format_alu.md R143). The machine has no flag and no condition code (spec/10_state.md R43): signed
overflow raises a bit of the cycle's fault mask. -/

namespace Sys2Proof.Machine

/-! ## The six faults; the names and bit values are the spec's own (R251, D9) -/

/-- No fault: the mask every cycle starts with (R222). -/
def FaultMask.clear : FaultMask := 0x00#6

/-- `WriteRegZero`, logged-only, raised by WB (R252). -/
def FaultMask.writeRegZero : FaultMask := 0x01#6

/-- `NumberOverflow`, logged-only, raised by EX (R253). -/
def FaultMask.numberOverflow : FaultMask := 0x02#6

/-- `HiLoOverwrite`, logged-only, raised by EX (R254). -/
def FaultMask.hiLoOverwrite : FaultMask := 0x04#6

/-- `AddressOverflow`, fatal, raised by MEM (R255). -/
def FaultMask.addressOverflow : FaultMask := 0x08#6

/-- `Misaligned`, fatal, raised by MEM (R257). -/
def FaultMask.misaligned : FaultMask := 0x10#6

/-- `IllegalInstruction`, fatal, raised by ID (R258). -/
def FaultMask.illegalInstruction : FaultMask := 0x20#6

/-- `FATAL`, the set of fatal bits (R251). -/
def FaultMask.fatal : FaultMask := 0x38#6

/-- The mask holds a fatal bit (R256). -/
def FaultMask.isFatal (fm : FaultMask) : Bool := (fm &&& FaultMask.fatal) != 0#6

/-- `raise F` under a condition, as a mask to be ORed into the cycle's (R222, R251). -/
def raiseIf (cond : Bool) (bit : FaultMask) : FaultMask := if cond then bit else FaultMask.clear

/-! ## Signed overflow: the exact result is outside -2^31 to 2^31 - 1 (R143) -/

/-- An exact integer is outside the signed 32-bit range. -/
def outsideSigned32 (n : Int) : Bool := decide (n < -2147483648) || decide (2147483647 < n)

/-- The overflow test of ADD, ADDI and the load and store address add (R131, R161, R170, R253). -/
def addOverflows (a b : Word) : Bool := outsideSigned32 (a.toInt + b.toInt)

/-- The overflow test of SUB, on the exact difference (R133, R143 item 4, D17). -/
def subOverflows (a b : Word) : Bool := outsideSigned32 (a.toInt - b.toInt)

/-- The 0 or 1 that SLT and SLTI write: the operands compared as signed integers (R139, R167, R143 item 6). -/
def signedLess (a b : Word) : Word := if a.toInt < b.toInt then 1#32 else 0#32

end Sys2Proof.Machine
end

