-- ==== Sys2Proof/Machine/Operands.lean ====
section
/-! DEFINITION. Operand assembly from instruction fields (spec/30_encoding.md R102; spec/43_loads_stores.md
R170; spec/44_control_transfer.md R186 to R192). -/

namespace Sys2Proof.Machine

/-- `sext_32(C16)`: ADDI, ADDIU, SLTI, the load and store displacement (R102). -/
def signExt16 (c : Imm16) : Word := c.signExtend 32

/-- `zext_32(C16)`: ANDI, ORI, NORI (R102). -/
def zeroExt16 (c : Imm16) : Word := c.setWidth 32

/-- `C16 || 0^16`: LUI (R102, R163). -/
def upperImm (c : Imm16) : Word := c ++ 0#16

/-- `pc_next` of the instruction at an address: the address plus 4, modulo 2^32 (R29, R32). -/
def nextPc (pc : Word) : Word := pc + 4#32

/-- The target of BEQ, BNE, BGTZ: `pc_next + (sext_32(C16) << 2)`, modulo 2^32 (R186, R192). -/
def branchTarget (pcNext : Word) (c : Imm16) : Word := pcNext + (signExt16 c <<< 2)

/-- The target of J and JAL: `pc_next[31:28] || C26 || 00` (R189, R190). -/
def jumpTarget (pcNext : Word) (c : Target26) : Word := pcNext.extractLsb' 28 4 ++ c ++ 0#2

/-- The effective address, modulo 2^32 (R170). -/
def effectiveAddress (base : Word) (c : Imm16) : Word := base + signExt16 c

/-- The operand is greater than zero as a signed integer: BGTZ's condition (R188). -/
def positive (a : Word) : Bool := decide (0 < a.toInt)

end Sys2Proof.Machine
end

