-- ==== Sys2Proof/Machine/Ops.lean ====
section
/-! DEFINITION. The named operations over memory, registers, HI/LO and the fault log that the meanings and the
pipeline stages share. -/

namespace Sys2Proof.Machine

/-! ## Sparse memory in canonical form -/

/-- What an unlisted address reads as: 0 (R45; for memory outside the images the spec's own choice D5,
DESIGN CHOICE, unsafe: log 2). -/
def Memory.unlisted (n : Nat) : BitVec n := 0#n

/-- The cell at an address. -/
def Memory.read {n : Nat} : Memory n → Nat → BitVec n
  | [], _ => Memory.unlisted n
  | (k, v) :: t, a => if k = a then v else Memory.read t a

/-- The canonical form: addresses strictly rising, no cell equal to what an unlisted address reads as. -/
def Memory.wf {n : Nat} : Memory n → Bool
  | [] => true
  | (k, v) :: t => (v != Memory.unlisted n) && t.all (fun c => decide (k < c.1)) && Memory.wf t

/-- One cell put in front of cells at higher addresses, left out where it is what is read there anyway. -/
def Memory.cons {n : Nat} (a : Nat) (v : BitVec n) (t : Memory n) : Memory n :=
  if v = Memory.unlisted n then t else (a, v) :: t

/-- The memory with one cell changed. -/
def Memory.write {n : Nat} : Memory n → Nat → BitVec n → Memory n
  | [], a, v => Memory.cons a v []
  | (k, u) :: t, a, v =>
    if a < k then Memory.cons a v ((k, u) :: t)
    else if a = k then Memory.cons a v t
    else (k, u) :: Memory.write t a v

/-- Cells written one after another from an address up (image loading, R281). -/
def Memory.writeAll {n : Nat} (m : Memory n) (a : Nat) : List (BitVec n) → Memory n
  | [] => m
  | v :: vs => Memory.writeAll (m.write a v) (a + 1) vs

/-! ## Big-endian data access (R63, R64)

R79 gives `MemRead` and `MemWrite` no meaning on an address that failed `CheckData`. These functions are total, and
read and write single bytes there too (DESIGN CHOICE, safe: log 23); their callers in the machine use them only after
a check that raised nothing. -/

/-- `MemRead(addr, 1)` (R63); total, also where R79 gives it no meaning (log 23). -/
def memRead1 (m : Memory 8) (a : Nat) : BitVec 8 := m.read a

/-- `MemRead(addr, 2)` (R63); total, also where R79 gives it no meaning (log 23). -/
def memRead2 (m : Memory 8) (a : Nat) : BitVec 16 := m.read a ++ m.read (a + 1)

/-- `MemRead(addr, 4)` (R63); total, also where R79 gives it no meaning (log 23). -/
def memRead4 (m : Memory 8) (a : Nat) : BitVec 32 :=
  m.read a ++ m.read (a + 1) ++ m.read (a + 2) ++ m.read (a + 3)

/-- `MemWrite(addr, 1, v)` (R64); total, also where R79 gives it no meaning (log 23). -/
def memWrite1 (m : Memory 8) (a : Nat) (v : BitVec 8) : Memory 8 := m.write a v

/-- `MemWrite(addr, 2, v)` (R64); total, also where R79 gives it no meaning (log 23). -/
def memWrite2 (m : Memory 8) (a : Nat) (v : BitVec 16) : Memory 8 :=
  (m.write a (v.extractLsb' 8 8)).write (a + 1) (v.extractLsb' 0 8)

/-- `MemWrite(addr, 4, v)` (R64); total, also where R79 gives it no meaning (log 23). -/
def memWrite4 (m : Memory 8) (a : Nat) (v : BitVec 32) : Memory 8 :=
  (((m.write a (v.extractLsb' 24 8)).write (a + 1) (v.extractLsb' 16 8)).write (a + 2)
    (v.extractLsb' 8 8)).write (a + 3) (v.extractLsb' 0 8)

/-- The 32-bit value of a load: the bytes read and extended (R171 to R175, R213); total (log 23). -/
def loadValue (m : Memory 8) (a : Nat) : Width → LoadExt → Word
  | .word, .none | .word, .sign | .word, .zero => memRead4 m a
  | .half, .sign => (memRead2 m a).signExtend 32
  | .half, .zero | .half, .none => (memRead2 m a).setWidth 32
  | .byte, .sign => (memRead1 m a).signExtend 32
  | .byte, .zero | .byte, .none => (memRead1 m a).setWidth 32

/-- The memory after a store of the low bytes of a register value (R64, R176 to R178); total (log 23). -/
def storeValue (m : Memory 8) (a : Nat) (n : Width) (v : Word) : Memory 8 :=
  match n with
  | .word => memWrite4 m a v
  | .half => memWrite2 m a (v.extractLsb' 0 16)
  | .byte => memWrite1 m a (v.extractLsb' 0 8)

/-- `CheckData(addr, n)`: both tests are made, in exact arithmetic; the mask of what failed (R67). -/
def checkData (p : Params) (addr : Word) (n : Width) : FaultMask :=
  raiseIf (decide (p.dmemBytes < addr.toNat + n.bytes)) FaultMask.addressOverflow |||
    raiseIf (decide (addr.toNat % n.bytes ≠ 0)) FaultMask.misaligned

/-! ## Instruction fetch -/

/-- `Fetch(a)` (R61, R80). -/
def fetch (s : State) (a : Word) : FetchResult :=
  if a.extractLsb' 0 2 ≠ 0#2 then .misaligned
  else if a.toNat < s.par.imemBase.toNat then .word 0#32
  else
    let i := (a.toNat - s.par.imemBase.toNat) / 4
    if i < s.par.imemWords then .word (s.imem.read i) else .beyond

/-! ## General registers -/

/-- The read port: index 0 reads as 0 (R21, R22). -/
def State.reg (s : State) (i : RegIdx) : Word := if i = 0#5 then 0#32 else s.x[i.toNat]'i.isLt

/-- The write port: index 0 is never changed (R21, R23). -/
def State.setReg (s : State) (i : RegIdx) (v : Word) : State :=
  if i = 0#5 then s else { s with x := s.x.set i.toNat v i.isLt }

/-- The mask of a write-back to register `i`: `WriteRegZero` for index 0 (R23, R252). -/
def writeBackMask (i : RegIdx) : FaultMask := raiseIf (i == 0#5) FaultMask.writeRegZero

/-! ## HI, LO and the lock -/

/-- The state part of `writeHILO(hi, lo)` (R27). -/
def State.writeHiLo (s : State) (hi lo : Word) : State := { s with hi := hi, lo := lo, lock := true }

/-- The lock cleared, as `readHI` and `readLO` do (R28). -/
def State.unlock (s : State) : State := { s with lock := false }

/-! ## Fault log and the end of a step -/

/-- The log entry of a cycle: none for the clear mask (R39, R222). -/
def logEntry (cycle : Nat) (fm : FaultMask) : List (Nat × FaultMask) :=
  if fm = FaultMask.clear then [] else [(cycle, fm)]

/-- A non-empty mask is logged once, with its cycle (R39, R222). -/
def State.logMask (s : State) (fm : FaultMask) : State :=
  { s with faultLog := s.faultLog ++ logEntry s.cycle fm }

/-- A completed step: its mask is logged and the counter advances (R40, R222). -/
def State.completeStep (s : State) (fm : FaultMask) : State :=
  { s.logMask fm with cycle := s.cycle + 1 }

/-- What a fatal fault does: the mask is logged, the status becomes `FaultStopped`, and the counter does not
advance (R256). There is no vector, no saved pc and no return (R262, R264). -/
def State.faultStop (s : State) (fm : FaultMask) : State := { s.logMask fm with stopped := true }

/-- TAKING A FAULT, the one operation that ends every step: a mask with a fatal bit stops the machine, any
other completes the step (R222, R256). -/
def State.endStep (s : State) (fm : FaultMask) : State :=
  if fm.isFatal then s.faultStop fm else s.completeStep fm

/-- `faults_seen`, the OR of all masks logged so far (R39). -/
def State.faultsSeen (s : State) : FaultMask := s.faultLog.foldl (fun acc e => acc ||| e.2) FaultMask.clear

/-! ## What the EX part of an instruction answers, and how the sequential level retires it -/

/-- The result of EX, the bits it raises and the state with its side effects (R215). -/
structure ExOut where
  result : Word
  fm : FaultMask
  state : State

/-- EX with a result and no side effect. -/
def exPure (s : State) (result : Word) (fm : FaultMask) : ExOut := { result := result, fm := fm, state := s }

/-- `pc <- pc_next` (R8). -/
def State.advance (s : State) : State := { s with pc := nextPc s.pc }

/-- Sequential retirement of an instruction with no destination register: `pc <- pc_next` (R9). -/
def retirePlain (o : ExOut) : Result := .next (o.state.advance.endStep o.fm)

/-- Sequential retirement with destination `d`: the write-back, with its `WriteRegZero` (R23, R130, R160). -/
def retireReg (d : RegIdx) (o : ExOut) : Result :=
  .next ((o.state.setReg d o.result).advance.endStep (o.fm ||| writeBackMask d))

/-- Sequential retirement of a transfer of control: `pc <- target`, no fault (R185). -/
def retireTo (s : State) (target : Word) : Result :=
  .next (State.endStep { s with pc := target } FaultMask.clear)

end Sys2Proof.Machine
end

