-- ==== Sys2Proof/Machine/Control.lean ====
section
/-! DEFINITION. Control transfer (spec/44_control_transfer.md R185 to R193). There is no delay slot (R185). The
condition and the target are shared with the pipeline's ID stage (spec/46_pipeline_engine.md R218) -/

namespace Sys2Proof.Machine

/-- A conditional branch: to the target if taken, else to `pc_next` (R186 to R188). -/
def branchIf (taken : Bool) (c : Imm16) (s : State) : Result :=
  retireTo s (if taken then branchTarget (nextPc s.pc) c else nextPc s.pc)

/-- BEQ's condition (R186). -/
def takenBeq (a b : Word) : Bool := a == b

/-- BNE's condition (R187). -/
def takenBne (a b : Word) : Bool := a != b

/-- BGTZ's condition (R188). -/
def takenBgtz (a : Word) : Bool := positive a

/-- `BEQ rs, rt, C` (R186). -/
def execBeq (rs rt : RegIdx) (c : Imm16) (s : State) : Result := branchIf (takenBeq (s.reg rs) (s.reg rt)) c s

/-- `BNE rs, rt, C` (R187). -/
def execBne (rs rt : RegIdx) (c : Imm16) (s : State) : Result := branchIf (takenBne (s.reg rs) (s.reg rt)) c s

/-- `BGTZ rs, C` (R188). -/
def execBgtz (rs : RegIdx) (c : Imm16) (s : State) : Result := branchIf (takenBgtz (s.reg rs)) c s

/-- `J C` (R189). -/
def execJ (target : Target26) (s : State) : Result := retireTo s (jumpTarget (nextPc s.pc) target)

/-- The link register of JAL (R25, R190). -/
def linkReg : RegIdx := 31#5

/-- EX of JAL: the link value `pc_next` (R190, R215). -/
def exLink (pcNext : Word) (s : State) : ExOut := exPure s pcNext FaultMask.clear

/-- `JAL C`: `x[31] <- pc_next`, then the jump (R190). -/
def execJal (target : Target26) (s : State) : Result :=
  retireTo (s.setReg linkReg (exLink (nextPc s.pc) s).result) (jumpTarget (nextPc s.pc) target)

/-- `JR rs`: all 32 bits of the register, no masking (R191). -/
def execJr (rs : RegIdx) (s : State) : Result := retireTo s (s.reg rs)

end Sys2Proof.Machine
end

