-- ==== Sys2Proof/Machine/IAlu.lean ====
section
/-! DEFINITION. I-format ALU instructions (spec/42_i_format_alu.md R160 to R167): for each instruction its EX
part and its sequential meaning: `x[rt] <- f(x[rs], C)`, `pc <- pc_next` (R160) -/

namespace Sys2Proof.Machine

/-- EX of ADDI: the wrapped sum, written even on overflow (R161). -/
def exAddi (c : Imm16) (a : Word) (s : State) : ExOut := exPure s (a + signExt16 c) (raiseIf (addOverflows a (signExt16 c)) FaultMask.numberOverflow)

/-- `ADDI rt, rs, C` (R161). -/
def execAddi (rt rs : RegIdx) (c : Imm16) (s : State) : Result := retireReg rt (exAddi c (s.reg rs) s)

/-- EX of ADDIU (R162). -/
def exAddiu (c : Imm16) (a : Word) (s : State) : ExOut := exPure s (a + signExt16 c) FaultMask.clear

/-- `ADDIU rt, rs, C` (R162). -/
def execAddiu (rt rs : RegIdx) (c : Imm16) (s : State) : Result := retireReg rt (exAddiu c (s.reg rs) s)

/-- EX of LUI: no register operand (R163). -/
def exLui (c : Imm16) (s : State) : ExOut := exPure s (upperImm c) FaultMask.clear

/-- `LUI rt, C` (R163). -/
def execLui (rt : RegIdx) (c : Imm16) (s : State) : Result := retireReg rt (exLui c s)

/-- EX of ANDI (R164). -/
def exAndi (c : Imm16) (a : Word) (s : State) : ExOut := exPure s (a &&& zeroExt16 c) FaultMask.clear

/-- `ANDI rt, rs, C` (R164). -/
def execAndi (rt rs : RegIdx) (c : Imm16) (s : State) : Result := retireReg rt (exAndi c (s.reg rs) s)

/-- EX of ORI (R165). -/
def exOri (c : Imm16) (a : Word) (s : State) : ExOut := exPure s (a ||| zeroExt16 c) FaultMask.clear

/-- `ORI rt, rs, C` (R165). -/
def execOri (rt rs : RegIdx) (c : Imm16) (s : State) : Result := retireReg rt (exOri c (s.reg rs) s)

/-- EX of NORI (R166). -/
def exNori (c : Imm16) (a : Word) (s : State) : ExOut := exPure s (~~~(a ||| zeroExt16 c)) FaultMask.clear

/-- `NORI rt, rs, C` (R166). -/
def execNori (rt rs : RegIdx) (c : Imm16) (s : State) : Result := retireReg rt (exNori c (s.reg rs) s)

/-- EX of SLTI (R167). -/
def exSlti (c : Imm16) (a : Word) (s : State) : ExOut := exPure s (signedLess a (signExt16 c)) FaultMask.clear

/-- `SLTI rt, rs, C` (R167). -/
def execSlti (rt rs : RegIdx) (c : Imm16) (s : State) : Result := retireReg rt (exSlti c (s.reg rs) s)

end Sys2Proof.Machine
end

