-- ==== Sys2Proof/Machine/LoadStore.lean ====
section
/-! DEFINITION. Loads and stores (spec/43_loads_stores.md R170 to R179) -/

namespace Sys2Proof.Machine

/-- EX of every load and store: the effective address, with the overflow check on the address add (R170). -/
def exAddress (c : Imm16) (base : Word) (s : State) : ExOut :=
  exPure s (effectiveAddress base c) (raiseIf (addOverflows base (signExt16 c)) FaultMask.numberOverflow)

/-- A load: the address, `CheckData`, then the read and the write-back. A fatal check reads nothing, writes
nothing and stops the machine (R68, R171 to R175, R256). -/
def loadInto (n : Width) (e : LoadExt) (rt rs : RegIdx) (c : Imm16) (s : State) : Result :=
  let o := exAddress c (s.reg rs) s
  let bad := checkData s.par o.result n
  if bad = FaultMask.clear then
    retireReg rt (exPure s (loadValue s.dmem o.result.toNat n e) o.fm)
  else .next (s.endStep (o.fm ||| bad))

/-- A store: the address, `CheckData`, then the write. A fatal check writes nothing and stops the machine
(R68, R176 to R178, R256). -/
def storeFrom (n : Width) (rt rs : RegIdx) (c : Imm16) (s : State) : Result :=
  let o := exAddress c (s.reg rs) s
  let bad := checkData s.par o.result n
  if bad = FaultMask.clear then
    retirePlain (exPure { s with dmem := storeValue s.dmem o.result.toNat n (s.reg rt) } 0#32 o.fm)
  else .next (s.endStep (o.fm ||| bad))

/-- `LW rt, C(rs)` (R171). -/
def execLw (rt rs : RegIdx) (c : Imm16) (s : State) : Result := loadInto .word .none rt rs c s

/-- `LH rt, C(rs)` (R172). -/
def execLh (rt rs : RegIdx) (c : Imm16) (s : State) : Result := loadInto .half .sign rt rs c s

/-- `LHU rt, C(rs)` (R173). -/
def execLhu (rt rs : RegIdx) (c : Imm16) (s : State) : Result := loadInto .half .zero rt rs c s

/-- `LB rt, C(rs)` (R174). -/
def execLb (rt rs : RegIdx) (c : Imm16) (s : State) : Result := loadInto .byte .sign rt rs c s

/-- `LBU rt, C(rs)` (R175). -/
def execLbu (rt rs : RegIdx) (c : Imm16) (s : State) : Result := loadInto .byte .zero rt rs c s

/-- `SW rt, C(rs)` (R176). -/
def execSw (rt rs : RegIdx) (c : Imm16) (s : State) : Result := storeFrom .word rt rs c s

/-- `SH rt, C(rs)` (R177). -/
def execSh (rt rs : RegIdx) (c : Imm16) (s : State) : Result := storeFrom .half rt rs c s

/-- `SB rt, C(rs)` (R178). -/
def execSb (rt rs : RegIdx) (c : Imm16) (s : State) : Result := storeFrom .byte rt rs c s

end Sys2Proof.Machine
end

