-- ==== Sys2Proof/Machine/MulHiLo.lean ====
section
/-! DEFINITION. Multiply and HI/LO instructions (spec/41_hilo_multiply.md R150 to R155). All reads and writes of
HI, LO and the lock are in the EX part (R155) -/

namespace Sys2Proof.Machine

/-- The high half `p[63:32]` of a product (R150). -/
def productHi (p : BitVec 64) : Word := p.extractLsb' 32 32

/-- The low half `p[31:0]` of a product (R150). -/
def productLo (p : BitVec 64) : Word := p.extractLsb' 0 32

/-- The exact signed product as 64 bits (R150). -/
def signedProduct (a b : Word) : BitVec 64 := BitVec.ofInt 64 (a.toInt * b.toInt)

/-- The exact unsigned product as 64 bits (R151). -/
def unsignedProduct (a b : Word) : BitVec 64 := BitVec.ofNat 64 (a.toNat * b.toNat)

/-- `writeHILO` of a product; `HiLoOverwrite` if the lock was set, the new product kept all the same
(R27, R254). -/
def writeProduct (p : BitVec 64) (s : State) : ExOut :=
  { result := 0#32, fm := raiseIf s.lock FaultMask.hiLoOverwrite,
    state := s.writeHiLo (productHi p) (productLo p) }

/-- EX of MULT (R150). -/
def exMult (a b : Word) (s : State) : ExOut := writeProduct (signedProduct a b) s

/-- EX of MULTU (R151). -/
def exMultu (a b : Word) (s : State) : ExOut := writeProduct (unsignedProduct a b) s

/-- EX of MFHI: HI, and the lock cleared (R28, R152). -/
def exMfhi (s : State) : ExOut := exPure s.unlock s.hi FaultMask.clear

/-- EX of MFLO: LO, and the lock cleared (R28, R153). -/
def exMflo (s : State) : ExOut := exPure s.unlock s.lo FaultMask.clear

/-- `MULT rs, rt` (R150). -/
def execMult (rs rt : RegIdx) (s : State) : Result := retirePlain (exMult (s.reg rs) (s.reg rt) s)

/-- `MULTU rs, rt` (R151). -/
def execMultu (rs rt : RegIdx) (s : State) : Result := retirePlain (exMultu (s.reg rs) (s.reg rt) s)

/-- `MFHI rd` (R152). -/
def execMfhi (rd : RegIdx) (s : State) : Result := retireReg rd (exMfhi s)

/-- `MFLO rd` (R153). -/
def execMflo (rd : RegIdx) (s : State) : Result := retireReg rd (exMflo s)

end Sys2Proof.Machine
end

