-- ==== Sys2Proof/Machine/RAlu.lean ====
section
/-! DEFINITION. R-format ALU instructions (spec/40_r_format_alu.md R130 to R143): for each instruction its EX
part, which the pipeline uses too (spec/46_pipeline_engine.md R215), and its sequential meaning: the sources are
read, then `x[rd]` is written and `pc <- pc_next` (R130) -/

namespace Sys2Proof.Machine

/-- EX of ADD: the wrapped sum, written even on overflow (R131). -/
def exAdd (a b : Word) (s : State) : ExOut := exPure s (a + b) (raiseIf (addOverflows a b) FaultMask.numberOverflow)

/-- `ADD rd, rs, rt` (R131). -/
def execAdd (rd rs rt : RegIdx) (s : State) : Result := retireReg rd (exAdd (s.reg rs) (s.reg rt) s)

/-- EX of ADDU (R132). -/
def exAddu (a b : Word) (s : State) : ExOut := exPure s (a + b) FaultMask.clear

/-- `ADDU rd, rs, rt` (R132). -/
def execAddu (rd rs rt : RegIdx) (s : State) : Result := retireReg rd (exAddu (s.reg rs) (s.reg rt) s)

/-- EX of SUB: the wrapped difference, written even on overflow (R133). -/
def exSub (a b : Word) (s : State) : ExOut := exPure s (a - b) (raiseIf (subOverflows a b) FaultMask.numberOverflow)

/-- `SUB rd, rs, rt` (R133). -/
def execSub (rd rs rt : RegIdx) (s : State) : Result := retireReg rd (exSub (s.reg rs) (s.reg rt) s)

/-- EX of AND (R134). -/
def exAnd (a b : Word) (s : State) : ExOut := exPure s (a &&& b) FaultMask.clear

/-- `AND rd, rs, rt` (R134). -/
def execAnd (rd rs rt : RegIdx) (s : State) : Result := retireReg rd (exAnd (s.reg rs) (s.reg rt) s)

/-- EX of OR (R135). -/
def exOr (a b : Word) (s : State) : ExOut := exPure s (a ||| b) FaultMask.clear

/-- `OR rd, rs, rt` (R135). -/
def execOr (rd rs rt : RegIdx) (s : State) : Result := retireReg rd (exOr (s.reg rs) (s.reg rt) s)

/-- EX of XOR (R136). -/
def exXor (a b : Word) (s : State) : ExOut := exPure s (a ^^^ b) FaultMask.clear

/-- `XOR rd, rs, rt` (R136). -/
def execXor (rd rs rt : RegIdx) (s : State) : Result := retireReg rd (exXor (s.reg rs) (s.reg rt) s)

/-- EX of NOR (R137). -/
def exNor (a b : Word) (s : State) : ExOut := exPure s (~~~(a ||| b)) FaultMask.clear

/-- `NOR rd, rs, rt` (R137). -/
def execNor (rd rs rt : RegIdx) (s : State) : Result := retireReg rd (exNor (s.reg rs) (s.reg rt) s)

/-- EX of NAND (R138). -/
def exNand (a b : Word) (s : State) : ExOut := exPure s (~~~(a &&& b)) FaultMask.clear

/-- `NAND rd, rs, rt` (R138). -/
def execNand (rd rs rt : RegIdx) (s : State) : Result := retireReg rd (exNand (s.reg rs) (s.reg rt) s)

/-- EX of SLT (R139). -/
def exSlt (a b : Word) (s : State) : ExOut := exPure s (signedLess a b) FaultMask.clear

/-- `SLT rd, rs, rt` (R139). -/
def execSlt (rd rs rt : RegIdx) (s : State) : Result := retireReg rd (exSlt (s.reg rs) (s.reg rt) s)

/-- EX of SLL (R140): the operand is `x[rt]`. -/
def exSll (shamt : Shamt) (b : Word) (s : State) : ExOut := exPure s (b <<< shamt.toNat) FaultMask.clear

/-- `SLL rd, rt, shamt` (R140). -/
def execSll (rd rt : RegIdx) (shamt : Shamt) (s : State) : Result := retireReg rd (exSll shamt (s.reg rt) s)

/-- EX of SRL (R141): the operand is `x[rt]`. -/
def exSrl (shamt : Shamt) (b : Word) (s : State) : ExOut := exPure s (b >>> shamt.toNat) FaultMask.clear

/-- `SRL rd, rt, shamt` (R141). -/
def execSrl (rd rt : RegIdx) (shamt : Shamt) (s : State) : Result := retireReg rd (exSrl shamt (s.reg rt) s)

/-- EX of SRA (R142): the operand is `x[rt]`. -/
def exSra (shamt : Shamt) (b : Word) (s : State) : ExOut := exPure s (b.sshiftRight shamt.toNat) FaultMask.clear

/-- `SRA rd, rt, shamt` (R142). -/
def execSra (rd rt : RegIdx) (shamt : Shamt) (s : State) : Result := retireReg rd (exSra shamt (s.reg rt) s)

end Sys2Proof.Machine
end

