-- ==== Sys2Proof/Machine/System.lean ====
section
/-! DEFINITION. HALT and NOP (spec/45_system_halt_nop.md R200, R201): `pc <- pc_next` and no other effect. What
ends a run is the halt condition of Machine/Status.lean, not the instruction (R200, R202) -/

namespace Sys2Proof.Machine

/-- EX of an instruction with nothing to do there (R215). -/
def exNothing (s : State) : ExOut := exPure s 0#32 FaultMask.clear

/-- `HALT` (R200). -/
def execHalt (s : State) : Result := retirePlain (exNothing s)

/-- `NOP` (R201). -/
def execNop (s : State) : Result := retirePlain (exNothing s)

end Sys2Proof.Machine
end

