-- ==== Sys2Proof/Machine/Status.lean ====
section
/-! DEFINITION. The run status at both levels (spec/10_state.md R41; spec/45_system_halt_nop.md R202;
spec/46_pipeline_engine.md R223). -/

namespace Sys2Proof.Machine

/-- The word fetched from an address is HALT; a fetch that has no word is not. -/
def haltAt (s : State) (a : Word) : Bool :=
  match fetch s a with
  | .word w => isHaltWord s.par.opc w
  | .beyond | .misaligned => false

/-- The halt condition of the pipeline: HALT in IF and in all four latches (R202, D12). -/
def pipeHalted (s : State) : Bool :=
  haltAt s s.pc && isHaltWord s.par.opc s.pipe.ifid.instr && isHaltWord s.par.opc s.pipe.idex.instr &&
    isHaltWord s.par.opc s.pipe.exmem.instr && isHaltWord s.par.opc s.pipe.memwb.instr

/-- The halt condition of the sequential model: the five words at `pc` to `pc + 16` are HALT (R202 item 4). -/
def seqHalted (s : State) : Bool :=
  haltAt s s.pc && haltAt s (s.pc + 4#32) && haltAt s (s.pc + 8#32) && haltAt s (s.pc + 12#32) && haltAt s (s.pc + 16#32)

/-- The three end-of-run tests in the spec's order: a fault, the halt condition, the cap (R223, D30). -/
def statusOf (halted : Bool) (s : State) : RunStatus :=
  if s.stopped then .faultStopped
  else if halted then .halted
  else if s.cycle = s.par.maxCycles then .capped
  else .running

/-- The run status of the sequential model (R41). -/
def seqStatus (s : State) : RunStatus := statusOf (seqHalted s) s

/-- The run status of the pipeline (R41). -/
def pipeStatus (s : State) : RunStatus := statusOf (pipeHalted s) s

/-- The driver-visible `isHalted()`: true in the three non-running states (R41). -/
def RunStatus.isHalted : RunStatus → Bool
  | .running => false
  | .halted | .faultStopped | .capped => true

/-- A step is taken only while the machine runs (R223, R256). -/
def whileRunning (st : RunStatus) (r : Result) : Result :=
  match st with
  | .running => r
  | .halted => .fault .halted
  | .faultStopped => .fault .faultStopped
  | .capped => .fault .capped

end Sys2Proof.Machine
end

