-- ==== Sys2Proof/Machine/Fetch.lean ====
section
/-! DEFINITION. Fetching and decoding the instruction at `pc` in the sequential model, and placing a word
there (spec/20_memory.md R61, R80; spec/45_system_halt_nop.md R203). -/

namespace Sys2Proof.Machine

/-- The stop of an illegal word: the mask is logged and the status becomes `FaultStopped` (R203, R256, R258). -/
def illegalStop (s : State) : State := s.endStep FaultMask.illegalInstruction

/-- Fetch at `pc`, decode, and run the instruction's meaning `run`. -/
def fetchThen (run : Instr → State → Result) (s : State) : Result :=
  match fetch s s.pc with
  | .word w =>
    match decodeWord s.par.opc w with
    | .ok i => run i s
    | .error _ => .next (illegalStop s)
  | .beyond => .refused .fetchBeyond
  | .misaligned => .refused .fetchMisaligned

/-- The index in the instruction array of the word at an address (R30, R61). -/
def imemIndex (s : State) (a : Word) : Nat := (a.toNat - s.par.imemBase.toNat) / 4

/-- A word stored in the instruction array at `pc`: the place `Fetch(pc)` reads for every aligned `pc` inside
the array (R61). -/
def placeWord (s : State) (w : Word) : State := { s with imem := s.imem.write (imemIndex s s.pc) w }

end Sys2Proof.Machine
end

