-- ==== Sys2Proof/Machine/Step.lean ====
section
/-! DEFINITION. One step of the sequential model (spec/00_scope.md R9 (a)): the run-loop tests (R223), the fetch
(R61), the decoder (R96) and the instruction's meaning. The cycle-by-cycle machine, `clock`, is in
Machine/Pipeline.lean. -/

namespace Sys2Proof.Machine

/-- The step: the instruction at `pc` is fetched, decoded and executed. An illegal word is the fatal fault
`IllegalInstruction` (R203, R258). -/
def step (s : State) : Host.Outcome State Fault Refusal := whileRunning (seqStatus s) (fetchThen exec s)

/-- The state with an instruction word stored where `step` fetches next: in the instruction array at `pc`. -/
def State.withFetchWord (s : State) (nbits w : Nat) : State := placeWord s ((BitVec.ofNat nbits w).setWidth 32)

end Sys2Proof.Machine
end

