-- ==== Sys2Proof/Machine/Boot.lean ====
section
/-! DEFINITION. Reset from boot inputs and the layout of the two images (spec/70_reset_and_hazards.md R280 to
R285). Reading the files themselves is out of scope (spec/00_scope.md R4). -/

namespace Sys2Proof.Machine

/-- The four boot inputs (R280). -/
structure BootInputs where
  initialPC : Word
  words : List Word
  stackPointer : Word
  bytes : List Byte
  deriving DecidableEq, Repr

/-- The parameters a machine is built with: capacities, cycle cap and numbering (R6). -/
structure Build where
  imemWords : Nat
  dmemBytes : Nat
  maxCycles : Nat
  opc : Opc
  deriving DecidableEq, Repr

/-- The default parameters (R6). -/
def Build.default : Build :=
  { imemWords := Config.imemWords, dmemBytes := Config.dmemBytes, maxCycles := Config.maxCycles,
    opc := Opc.default }

/-- The host's boot requirements (R285 items 1 and 2; R6: the data capacity is a multiple of 4). -/
def BootInputs.wellFormed (c : Build) (b : BootInputs) : Bool :=
  b.initialPC.extractLsb' 0 2 == 0#2 && decide (b.words.length ≤ c.imemWords) &&
    decide (b.bytes.length ≤ c.dmemBytes) && decide (c.dmemBytes % 4 = 0)

/-- `Reset(initialPC, words, stackPointer, bytes)` (R281). -/
def resetWith (c : Build) (b : BootInputs) : State :=
  { State.reset with
    x := (Vector.replicate 32 0#32).set 29 b.stackPointer,
    pc := b.initialPC,
    imem := Memory.writeAll [] 0 b.words,
    dmem := Memory.writeAll [] 0 b.bytes,
    par := ⟨b.initialPC, c.imemWords, c.dmemBytes, c.maxCycles, c.opc⟩ }

/-- The reset state of well-formed boot inputs; others have no initial state (R285,
spec/93_implementation_defined.md U5: refuse). -/
def boot (c : Build) (b : BootInputs) : Option State :=
  if b.wellFormed c then some (resetWith c b) else none

/-- The 32-bit big-endian field at the head of a file and the bytes behind it (R284). -/
def takeWord : List Byte → Option (Word × List Byte)
  | b0 :: b1 :: b2 :: b3 :: rest => some (wordOfBytes b0 b1 b2 b3, rest)
  | _ => none

/-- `n` big-endian words from the head of a file (R282, R284). -/
def takeWords : Nat → List Byte → Option (List Word)
  | 0, _ => some []
  | n + 1, bs =>
    match takeWord bs with
    | none => none
    | some (w, rest) => (takeWords n rest).map (w :: ·)

/-- `n` bytes from the head of a file; none if it is shorter (U5). -/
def takeBytes (n : Nat) (bs : List Byte) : Option (List Byte) :=
  if n ≤ bs.length then some (bs.take n) else none

/-- `InstructionImage.load`: `initialPC`, `count`, then `count` big-endian words (R282, R284). Bytes behind
the payload are not looked at (DESIGN CHOICE, unsafe: log 9). -/
def parseInstructionImage (file : List Byte) : Option (Word × List Word) :=
  match takeWord file with
  | none => none
  | some (initialPC, file1) =>
    match takeWord file1 with
    | none => none
    | some (count, payload) => (takeWords count.toNat payload).map (initialPC, ·)

/-- The payload length of a data image whose header counts `count` elements (R284, D22). -/
def payloadBytes (u : CountUnit) (count : Nat) : Nat :=
  match u with
  | .words => 4 * count
  | .bytes => count

/-- `DataImage.load`: `stackPointer`, `count`, then the payload bytes in file order (R283, R284). -/
def parseDataImage (u : CountUnit) (file : List Byte) : Option (Word × List Byte) :=
  match takeWord file with
  | none => none
  | some (stackPointer, file1) =>
    match takeWord file1 with
    | none => none
    | some (count, payload) => (takeBytes (payloadBytes u count.toNat) payload).map (stackPointer, ·)

/-- Boot from the two image files (R280 to R284). -/
def bootFiles (c : Build) (u : CountUnit) (instrFile dataFile : List Byte) : Option State :=
  match parseInstructionImage instrFile, parseDataImage u dataFile with
  | some (initialPC, words), some (stackPointer, bytes) =>
    boot c { initialPC := initialPC, words := words, stackPointer := stackPointer, bytes := bytes }
  | _, _ => none

end Sys2Proof.Machine
end

