-- ==== Sys2Proof/Machine/Hazards.lean ====
section
/-! DEFINITION. The hazard and forwarding unit (spec/70_reset_and_hazards.md R300 to R305;
spec/46_pipeline_engine.md R214, R218). All its reads are of start-of-cycle latch contents (R211). -/

namespace Sys2Proof.Machine

/-- `Srcs(w)`: the non-zero registers the word's instruction really reads (R300). -/
def srcs (o : Opc) (w : Word) : List RegIdx :=
  (if (controlOf o w).hasRs && rsOf w != 0#5 then [rsOf w] else []) ++
    (if (controlOf o w).hasRt && rtOf w != 0#5 then [rtOf w] else [])

/-- `IsCtlReg(w)`: the word is BEQ, BNE, BGTZ or JR (R301). -/
def isCtlRegWord (o : Opc) (w : Word) : Bool :=
  match decodeWord o w with
  | .ok i => i.isCtlReg
  | .error _ => false

/-- `LoadUse(w, IDEX)` (R300). -/
def loadUse (o : Opc) (w : Word) (idex : IdEx) : Bool := idex.memRead && (srcs o w).contains idex.writeDest

/-- `CtlEx(w, IDEX)`: a control instruction against a producer in EX (R301). -/
def ctlEx (o : Opc) (w : Word) (idex : IdEx) : Bool :=
  isCtlRegWord o w && idex.regWrite && (srcs o w).contains idex.writeDest

/-- `CtlMem(w, EXMEM)`: a control instruction against a load in MEM (R302). -/
def ctlMem (o : Opc) (w : Word) (exmem : ExMem) : Bool :=
  isCtlRegWord o w && exmem.regWrite && exmem.memRead && (srcs o w).contains exmem.writeDest

/-- `StallCond(w, IDEX, EXMEM)`, the only source of `stall` (R305). -/
def stallCond (o : Opc) (w : Word) (idex : IdEx) (exmem : ExMem) : Bool :=
  loadUse o w idex || ctlEx o w idex || ctlMem o w exmem

/-- Where an EX operand comes from (R214, R224). -/
inductive FwdSource where
  /-- The latched value of ID/EX. -/
  | latched
  /-- "EX-to-EX": `EXMEM.alu_result`. -/
  | exmem
  /-- "MEM-to-EX": `MEMWB.rt_data`. -/
  | memwb
  deriving DecidableEq, Repr

/-- The forwarding decision for one EX operand; EX/MEM has priority (R214). -/
def fwdSource (p : Pipe) (idx : RegIdx) (has : Bool) : FwdSource :=
  if has && idx != 0#5 then
    if p.exmem.regWrite && p.exmem.writeDest == idx then .exmem
    else if p.memwb.regWrite && p.memwb.writeDest == idx then .memwb
    else .latched
  else .latched

/-- `Fwd(idx, has, latched)` (R214). -/
def fwd (p : Pipe) (idx : RegIdx) (has : Bool) (latched : Word) : Word :=
  match fwdSource p idx has with
  | .exmem => p.exmem.aluResult
  | .memwb => p.memwb.rtData
  | .latched => latched

/-- Whether ID takes register `r` from EX/MEM (R218, R303). -/
def idForwards (p : Pipe) (r : RegIdx) : Bool := r != 0#5 && p.exmem.regWrite && p.exmem.writeDest == r

/-- `IDval(r)`: a register as a control instruction sees it in ID; `s` holds the register file after this
cycle's WB write (R218, R24). -/
def idVal (p : Pipe) (s : State) (r : RegIdx) : Word := if idForwards p r then p.exmem.aluResult else s.reg r

end Sys2Proof.Machine
end

