-- ==== Sys2Proof/Machine/Pipeline.lean ====
section
/-! DEFINITION. The pipeline engine (spec/46_pipeline_engine.md R210 to R222, R225): one clock cycle as the five
stage functions in the order WB, MEM, EX, ID, IF. A stage function is given the start-of-cycle latches it reads
(R211) and the register file, memory and HI/LO as the earlier stages of the cycle have left them (R24). -/

namespace Sys2Proof.Machine

/-! ## WB (R212) -/

/-- The register file after WB (R212). -/
def wbState (m : MemWb) (s : State) : State := if m.regWrite then s.setReg m.writeDest m.rtData else s

/-- WB's fault bit (R212, R252). -/
def wbMask (m : MemWb) : FaultMask := if m.regWrite then writeBackMask m.writeDest else FaultMask.clear

/-! ## MEM (R213) -/

/-- EX/MEM holds a load or a store. -/
def ExMem.accesses (e : ExMem) : Bool := e.memRead || e.memWrite

/-- MEM's fault bits: `CheckData` of the access (R213, R255, R257). -/
def memMask (e : ExMem) (p : Params) : FaultMask :=
  if e.accesses then checkData p e.aluResult (controlOf p.opc e.instr).width else FaultMask.clear

/-- The data memory after MEM, where MEM's mask is clear (R213). -/
def memState (e : ExMem) (s : State) : State :=
  if e.memWrite then
    { s with dmem := storeValue s.dmem e.aluResult.toNat (controlOf s.par.opc e.instr).width e.rtData }
  else s

/-- The write-back data MEM hands on: the stored value, the loaded and extended value, or the ALU result
(R213). -/
def memData (e : ExMem) (s : State) : Word :=
  if e.memWrite then e.rtData
  else if e.memRead then
    let c := controlOf s.par.opc e.instr
    loadValue s.dmem e.aluResult.toNat c.width c.ext
  else e.aluResult

/-- `MEMWB'` (R213). -/
def memLatch (e : ExMem) (s : State) : MemWb :=
  { instr := e.instr, rtData := memData e s, writeDest := e.writeDest, regWrite := e.regWrite }

/-! ## EX (R214, R215) -/

/-- `ExecEX`: the EX part of each instruction on its operands `a` (rs), `b` (rt) and `pc_next` (R215). -/
def execEX (i : Instr) (a b pcNext : Word) (s : State) : ExOut :=
  match i with
  | .nop => exNothing s
  | .add _ _ _ => exAdd a b s
  | .addu _ _ _ => exAddu a b s
  | .sub _ _ _ => exSub a b s
  | .and _ _ _ => exAnd a b s
  | .or _ _ _ => exOr a b s
  | .xor _ _ _ => exXor a b s
  | .nor _ _ _ => exNor a b s
  | .nand _ _ _ => exNand a b s
  | .slt _ _ _ => exSlt a b s
  | .sll _ _ shamt => exSll shamt b s
  | .srl _ _ shamt => exSrl shamt b s
  | .sra _ _ shamt => exSra shamt b s
  | .mult _ _ => exMult a b s
  | .multu _ _ => exMultu a b s
  | .mfhi _ => exMfhi s
  | .mflo _ => exMflo s
  | .jr _ => exNothing s
  | .addi _ _ imm => exAddi imm a s
  | .addiu _ _ imm => exAddiu imm a s
  | .lui _ imm => exLui imm s
  | .andi _ _ imm => exAndi imm a s
  | .ori _ _ imm => exOri imm a s
  | .nori _ _ imm => exNori imm a s
  | .slti _ _ imm => exSlti imm a s
  | .lw _ _ imm => exAddress imm a s
  | .lh _ _ imm => exAddress imm a s
  | .lhu _ _ imm => exAddress imm a s
  | .lb _ _ imm => exAddress imm a s
  | .lbu _ _ imm => exAddress imm a s
  | .sw _ _ imm => exAddress imm a s
  | .sh _ _ imm => exAddress imm a s
  | .sb _ _ imm => exAddress imm a s
  | .beq _ _ _ => exNothing s
  | .bne _ _ _ => exNothing s
  | .bgtz _ _ => exNothing s
  | .j _ => exNothing s
  | .jal _ => exLink pcNext s
  | .halt => exNothing s

/-- `ExecEX` on a word. An illegal word never reaches EX (R37, R203, R215); the model gives it NOP's empty
part (DESIGN CHOICE, safe: log 8). -/
def execEXWord (w a b pcNext : Word) (s : State) : ExOut :=
  match decodeWord s.par.opc w with
  | .ok i => execEX i a b pcNext s
  | .error _ => exNothing s

/-- EX's first operand, forwarded (R214). -/
def exOperandA (o : Opc) (p : Pipe) : Word :=
  fwd p (rsOf p.idex.instr) (controlOf o p.idex.instr).hasRs p.idex.rsData

/-- EX's second operand, forwarded (R214). -/
def exOperandB (o : Opc) (p : Pipe) : Word :=
  fwd p (rtOf p.idex.instr) (controlOf o p.idex.instr).hasRt p.idex.rtData

/-- The EX stage on the start-of-cycle latches `p`, in the state MEM has left (R215). -/
def exStage (p : Pipe) (s : State) : ExOut :=
  execEXWord p.idex.instr (exOperandA s.par.opc p) (exOperandB s.par.opc p) p.idex.pcNext s

/-- EX/MEM as EX fills it from ID/EX: the result, the second operand, and the control fields (R215). -/
def exLatch (d : IdEx) (result b : Word) : ExMem :=
  { instr := d.instr, aluResult := result, rtData := b, writeDest := d.writeDest, regWrite := d.regWrite,
    memRead := d.memRead, memWrite := d.memWrite }

/-! ## ID (R216 to R218) -/

/-- The stall signal of this cycle (R216, R305). -/
def stallOf (o : Opc) (p : Pipe) : Bool := stallCond o p.ifid.instr p.idex p.exmem

/-- `ID` part 2: the latch of the decoded instruction; both registers are read for every instruction, in the
state WB has left (R217, R22). -/
def idLatch (f : IfId) (s : State) : IdEx :=
  let w := f.instr
  let c := controlOf s.par.opc w
  { instr := w, pcNext := f.pcNext, rsData := s.reg (rsOf w), rtData := s.reg (rtOf w),
    writeDest := c.dest, regWrite := c.regWrite, memRead := c.memRead, memWrite := c.memWrite }

/-- `ID` part 3: the transfer target if the instruction takes one; `v` gives the operand values (R218). -/
def resolve (i : Instr) (pcn : Word) (v : RegIdx → Word) : Option Word :=
  match i with
  | .jr rs => some (v rs)
  | .beq rs rt imm => if takenBeq (v rs) (v rt) then some (branchTarget pcn imm) else none
  | .bne rs rt imm => if takenBne (v rs) (v rt) then some (branchTarget pcn imm) else none
  | .bgtz rs imm => if takenBgtz (v rs) then some (branchTarget pcn imm) else none
  | .j target => some (jumpTarget pcn target)
  | .jal target => some (jumpTarget pcn target)
  | .nop | .add _ _ _ | .addu _ _ _ | .sub _ _ _ | .and _ _ _ | .or _ _ _ | .xor _ _ _ | .nor _ _ _
  | .nand _ _ _ | .slt _ _ _ | .sll _ _ _ | .srl _ _ _ | .sra _ _ _ | .mult _ _ | .multu _ _ | .mfhi _
  | .mflo _ | .addi _ _ _ | .addiu _ _ _ | .lui _ _ | .andi _ _ _ | .ori _ _ _ | .nori _ _ _
  | .slti _ _ _ | .lw _ _ _ | .lh _ _ _ | .lhu _ _ _ | .lb _ _ _ | .lbu _ _ _ | .sw _ _ _ | .sh _ _ _
  | .sb _ _ _ | .halt => none

/-- What ID tells IF in the same cycle (R38, R218): stall has priority over flush (D26). -/
inductive IdSignal where
  | stall
  | flush (target : Word)
  | proceed
  deriving DecidableEq, Repr

/-- The signal of a cycle whose IF/ID word decodes to `i`; `s` holds the register file after WB (R218). -/
def idSignal (i : Instr) (p : Pipe) (s : State) : IdSignal :=
  if stallOf s.par.opc p then .stall
  else match resolve i p.ifid.pcNext (idVal p s) with
    | some t => .flush t
    | none => .proceed

/-- `IDEX'`: a bubble on a stall (R217, R220). -/
def idStage (sig : IdSignal) (f : IfId) (s : State) : IdEx :=
  match sig with
  | .stall => IdEx.zero
  | .flush _ | .proceed => idLatch f s

/-! ## IF (R219) -/

/-- The latch of a freshly fetched word (R219, R32). -/
def fetchedLatch (pc f : Word) : IfId :=
  { instr := f, pcNext := nextPc pc, rsIdx := rsOf f, rtIdx := rtOf f }

/-- `IFID'` (R219 to R221). -/
def ifLatch (sig : IdSignal) (f : Word) (s : State) : IfId :=
  match sig with
  | .stall => s.pipe.ifid
  | .flush _ => IfId.zero
  | .proceed => fetchedLatch s.pc f

/-- `pc'` (R219 to R221, R29). -/
def ifPc (sig : IdSignal) (s : State) : Word :=
  match sig with
  | .stall => s.pc
  | .flush t => t
  | .proceed => nextPc s.pc

/-! ## The cycle (R210, R222, R225) -/

/-- The state after WB and MEM of a cycle with no fault in MEM; the latches are still the old ones. -/
def afterMem (s : State) : State := memState s.pipe.exmem (wbState s.pipe.memwb s)

/-- What EX answers in such a cycle. -/
def exOut (s : State) : ExOut := exStage s.pipe (afterMem s)

/-- The state after WB, MEM and EX of such a cycle; the latches are still the old ones. -/
def afterEx (s : State) : State := (exOut s).state

/-- The mask of WB and MEM (R222). -/
def maskAfterMem (s : State) : FaultMask := wbMask s.pipe.memwb ||| memMask s.pipe.exmem s.par

/-- The mask of WB, MEM and EX of a cycle with no fault in MEM (R222). -/
def maskAfterEx (s : State) : FaultMask := maskAfterMem s ||| (exOut s).fm

/-- `MEMWB'` (R213): MEM reads the memory, which WB does not change. -/
def nextMemWb (s : State) : MemWb := memLatch s.pipe.exmem s

/-- `EXMEM'` (R215). -/
def nextExMem (s : State) : ExMem := exLatch s.pipe.idex (exOut s).result (exOperandB s.par.opc s.pipe)

/-- A fatal fault in MEM: WB has acted, nothing after it (R222). -/
def stopInMem (s : State) : State := (wbState s.pipe.memwb s).endStep (maskAfterMem s)

/-- A fatal fault in ID: WB, MEM and EX have acted and filled their latches; ID and IF have not (R222). -/
def stopInId (s : State) : State :=
  State.endStep { afterEx s with pipe := { s.pipe with exmem := nextExMem s, memwb := nextMemWb s } }
    (maskAfterEx s ||| FaultMask.illegalInstruction)

/-- The four latches at the end of a whole cycle (R225). -/
def nextPipe (sig : IdSignal) (f : Word) (s : State) : Pipe :=
  { ifid := ifLatch sig f s, idex := idStage sig s.pipe.ifid (afterEx s), exmem := nextExMem s,
    memwb := nextMemWb s }

/-- The commit of a whole cycle (R225). -/
def commit (sig : IdSignal) (f : Word) (s : State) : State :=
  State.endStep { afterEx s with pc := ifPc sig s, pipe := nextPipe sig f s } (maskAfterEx s)

/-- `Step` of the pipeline, one clock cycle (R210, R225). IF's fetch comes last: a fatal fault in MEM or ID
abandons it (R222), and only a cycle that reaches it is refused where `Fetch` has no word (R61, R80; log 7). -/
def clockCycle (s : State) : Result :=
  if (memMask s.pipe.exmem s.par).isFatal then .next (stopInMem s)
  else
    match decodeWord s.par.opc s.pipe.ifid.instr with
    | .error _ => .next (stopInId s)
    | .ok i =>
      match fetch s s.pc with
      | .word f => .next (commit (idSignal i s.pipe (afterEx s)) f s)
      | .beyond => .refused .fetchBeyond
      | .misaligned => .refused .fetchMisaligned

/-- One clock cycle under the run loop's tests (R223). -/
def clock (s : State) : Result := whileRunning (pipeStatus s) (clockCycle s)

end Sys2Proof.Machine
end

