-- ==== Sys2Proof/Machine/Run.lean ====
section
/-! DEFINITION. The run loop (spec/46_pipeline_engine.md R223) over either level, with a bound on the number of
steps in place of "loop". -/

namespace Sys2Proof.Machine

/-- How a run ends (R223). -/
inductive RunEnd where
  /-- The only successful end: the state is the result. -/
  | halted (s : State)
  /-- A fatal fault: never a final state. -/
  | faultStopped (s : State)
  /-- The cycle cap: the program did not terminate within the bound. -/
  | capped (s : State)
  /-- A fetch the spec gives no meaning (U1, U2). -/
  | refused (r : Refusal) (s : State)
  /-- The bound of this function, not of the machine, was used up. -/
  | unfinished (s : State)

/-- At most `n` turns of the loop: the tests in the order of R223, then one step. -/
def runLoop (status : State → RunStatus) (next : State → Result) : Nat → State → RunEnd
  | 0, s => .unfinished s
  | n + 1, s =>
    match status s with
    | .faultStopped => .faultStopped s
    | .halted => .halted s
    | .capped => .capped s
    | .running =>
      match next s with
      | .next t => runLoop status next n t
      | .fault _ => .faultStopped s
      | .refused r => .refused r s

/-- `Run` of the pipeline (R223). -/
def runPipeline (n : Nat) (s : State) : RunEnd := runLoop pipeStatus clock n s

/-- `Run` of the sequential model (R9 (a), R202 item 4, R223). -/
def runSequential (n : Nat) (s : State) : RunEnd := runLoop seqStatus step n s

end Sys2Proof.Machine
end

