-- ==== Sys2Proof/Machine/Trace.lean ====
section
/-! DEFINITION. The outputs of a clock cycle (spec/46_pipeline_engine.md R224): signals the host may read, a
function of the state at the start of the cycle. The annotation strings are out of scope (R4, R224). -/

namespace Sys2Proof.Machine

/-- What a stage holds at the start of the cycle: its word and the mnemonic, none for an illegal word (R105). -/
structure StageView where
  word : Word
  mnemonic : Option String
  deriving DecidableEq, Repr

/-- A stage's word with its mnemonic under a numbering (R105). -/
def stageView (o : Opc) (w : Word) : StageView :=
  { word := w
    mnemonic := match decodeWord o w with
      | .ok i => some i.mnemonic
      | .error _ => none }

/-- The write WB makes: the register, its value, and whether the value is a new one (R212). -/
structure RegWriteView where
  index : RegIdx
  value : Word
  changed : Bool
  deriving DecidableEq, Repr

/-- `CycleTrace` as signals (R224). -/
structure CycleTrace where
  /-- `pc` at the start of the cycle. -/
  pc : Word
  /-- The word IF fetches, where `Fetch` has one. -/
  ifStage : Option StageView
  idStage : StageView
  exStage : StageView
  memStage : StageView
  wbStage : StageView
  stall : Bool
  flush : Bool
  /-- Where each EX operand comes from, with its register. -/
  exRs : RegIdx × FwdSource
  exRt : RegIdx × FwdSource
  /-- For a register-reading control instruction in ID: whether each operand it reads is forwarded. -/
  idRsForwarded : Bool
  idRtForwarded : Bool
  /-- The write WB makes, if it makes one. -/
  regWrite : Option RegWriteView
  /-- Whether HI or LO changes in this cycle. -/
  hiLoChanged : Bool
  /-- The fault mask of the cycle. -/
  fm : FaultMask
  deriving DecidableEq, Repr

/-- WB's write, with the `changed` flag (R212). -/
def wbView (s : State) : Option RegWriteView :=
  let m := s.pipe.memwb
  if m.regWrite && m.writeDest != 0#5 then
    some { index := m.writeDest, value := m.rtData, changed := s.reg m.writeDest != m.rtData }
  else none

/-- The ID signal of the cycle: none where a fatal fault abandons ID (R222). -/
def signalOf (s : State) : Option IdSignal :=
  if (memMask s.pipe.exmem s.par).isFatal then none
  else
    match decodeWord s.par.opc s.pipe.ifid.instr with
    | .ok i => some (idSignal i s.pipe (afterEx s))
    | .error _ => none

/-- The whole mask of the cycle (R222, R261). -/
def cycleMask (s : State) : FaultMask :=
  if (memMask s.pipe.exmem s.par).isFatal then maskAfterMem s
  else
    match decodeWord s.par.opc s.pipe.ifid.instr with
    | .ok _ => maskAfterEx s
    | .error _ => maskAfterEx s ||| FaultMask.illegalInstruction

/-- The step outputs (R224). In a cycle that a fatal fault cuts short the stages after it do not run (R222), and the
spec does not say what the signals of a stage that did not run are: with a fatal fault in MEM no stall, no flush, no
forwarding and no HI/LO change is reported, with one in ID no stall, no flush and no ID forwarding (DESIGN CHOICE,
safe: log 18). -/
def cycleTrace (s : State) : CycleTrace :=
  let p := s.pipe
  let o := s.par.opc
  let w := p.ifid.instr
  let memFault := (memMask p.exmem s.par).isFatal
  let ctl := !memFault && isCtlRegWord o w && !stallOf o p
  { pc := s.pc
    ifStage := match fetch s s.pc with
      | .word f => some (stageView o f)
      | .beyond | .misaligned => none
    idStage := stageView o w
    exStage := stageView o p.idex.instr
    memStage := stageView o p.exmem.instr
    wbStage := stageView o p.memwb.instr
    stall := match signalOf s with
      | some .stall => true
      | some (.flush _) | some .proceed | none => false
    flush := match signalOf s with
      | some (.flush _) => true
      | some .stall | some .proceed | none => false
    exRs := (rsOf p.idex.instr, fwdSource p (rsOf p.idex.instr) (!memFault && (controlOf o p.idex.instr).hasRs))
    exRt := (rtOf p.idex.instr, fwdSource p (rtOf p.idex.instr) (!memFault && (controlOf o p.idex.instr).hasRt))
    idRsForwarded := ctl && (controlOf o w).hasRs && idForwards p (rsOf w)
    idRtForwarded := ctl && (controlOf o w).hasRt && idForwards p (rtOf w)
    regWrite := wbView s
    hiLoChanged := !memFault && ((afterEx s).hi != s.hi || (afterEx s).lo != s.lo)
    fm := cycleMask s }

end Sys2Proof.Machine
end

