-- ==== Sys2Proof/Safety.lean ====
section
/-! DEFINITION. What claims are stated in: the invariants of a state, what two states must share to be the same
architecturally, the architectural state a pipeline state stands for, and the shape of an instruction's
result. -/

namespace Sys2Proof.Machine

/-! ## Invariants -/

/-- Both memories are in canonical form and list no address outside their arrays (R30, R31). -/
structure DataInv (s : State) : Prop where
  imemWf : s.imem.wf = true
  dmemWf : s.dmem.wf = true
  dmemInside : ∀ c ∈ s.dmem, c.1 < s.par.dmemBytes

/-- The word is an instruction or NOP, not ILLEGAL (R96). -/
def legalWord (o : Opc) (w : Word) : Bool :=
  match decodeWord o w with
  | .ok _ => true
  | .error _ => false

/-- The latch invariant: index and control fields are the decoder's outputs for the latch's own word, and the
three back latches hold no illegal word (R32, R37). -/
structure LatchInv (o : Opc) (p : Pipe) : Prop where
  ifidRs : p.ifid.rsIdx = rsOf p.ifid.instr
  ifidRt : p.ifid.rtIdx = rtOf p.ifid.instr
  idexDest : p.idex.writeDest = (controlOf o p.idex.instr).dest
  idexRegWrite : p.idex.regWrite = (controlOf o p.idex.instr).regWrite
  idexMemRead : p.idex.memRead = (controlOf o p.idex.instr).memRead
  idexMemWrite : p.idex.memWrite = (controlOf o p.idex.instr).memWrite
  exmemDest : p.exmem.writeDest = (controlOf o p.exmem.instr).dest
  exmemRegWrite : p.exmem.regWrite = (controlOf o p.exmem.instr).regWrite
  exmemMemRead : p.exmem.memRead = (controlOf o p.exmem.instr).memRead
  exmemMemWrite : p.exmem.memWrite = (controlOf o p.exmem.instr).memWrite
  memwbDest : p.memwb.writeDest = (controlOf o p.memwb.instr).dest
  memwbRegWrite : p.memwb.regWrite = (controlOf o p.memwb.instr).regWrite
  idexLegal : legalWord o p.idex.instr = true
  exmemLegal : legalWord o p.exmem.instr = true
  memwbLegal : legalWord o p.memwb.instr = true

/-- What holds of every pipeline state besides the latch invariant: the operands latched in ID/EX are the ones
the register file holds, the load-use stall has kept a reader of a load out of EX (R300, D27), and the pc is the
one behind the word in IF/ID. -/
structure PipeInv (s : State) : Prop where
  latches : LatchInv s.par.opc s.pipe
  rsLatched : s.pipe.idex.rsData = s.reg (rsOf s.pipe.idex.instr)
  rtLatched : s.pipe.idex.rtData = s.reg (rtOf s.pipe.idex.instr)
  loadGap : s.pipe.exmem.memRead = true → (srcs s.par.opc s.pipe.idex.instr).contains s.pipe.exmem.writeDest = false
  frontPc : s.pipe.ifid = IfId.zero ∨ s.pc = s.pipe.ifid.pcNext

/-- The masks one cycle of the pipeline can log, without the clear one (R261 item 2). -/
def pipelineMasks : List FaultMask :=
  [0x08#6, 0x10#6, 0x18#6, 0x09#6, 0x11#6, 0x19#6,
    0x01#6, 0x02#6, 0x04#6, 0x03#6, 0x05#6, 0x20#6, 0x21#6, 0x22#6, 0x24#6, 0x23#6, 0x25#6]

/-- The masks one instruction of the sequential model can log, without the clear one (R250, R261 item 3). -/
def sequentialMasks : List FaultMask :=
  [0x01#6, 0x02#6, 0x04#6, 0x03#6, 0x08#6, 0x10#6, 0x18#6, 0x0A#6, 0x12#6, 0x1A#6, 0x20#6]

/-- The fault log: every entry is a possible mask, entries are in cycle order, and a fatal mask is the last
entry, of the current cycle, exactly when the machine is stopped (R39, R222, R256, R265). -/
structure LogInv (possible : List FaultMask) (s : State) : Prop where
  masks : ∀ e ∈ s.faultLog, e.2 ∈ possible
  ordered : s.faultLog.Pairwise (fun a b => a.1 < b.1)
  running : s.stopped = false → ∀ e ∈ s.faultLog, e.2.isFatal = false ∧ e.1 < s.cycle
  stopped : s.stopped = true → ∃ front fm, s.faultLog = front ++ [(s.cycle, fm)] ∧ fm.isFatal = true ∧
    ∀ e ∈ front, e.2.isFatal = false ∧ e.1 < s.cycle

/-! ## Agreement of the two levels (R9, R226) -/

/-- How many log entries carry bit `k`: the number of occurrences of that fault (R261 item 4). -/
def faultCount (k : Nat) (log : List (Nat × FaultMask)) : Nat := log.countP (fun e => e.2.getLsbD k)

/-- The two states agree on registers, HI, LO, lock, memories, run status and the number of occurrences of each
fault (R9, R226). -/
structure SameData (a b : State) : Prop where
  x : a.x = b.x
  hi : a.hi = b.hi
  lo : a.lo = b.lo
  lock : a.lock = b.lock
  dmem : a.dmem = b.dmem
  imem : a.imem = b.imem
  par : a.par = b.par
  stopped : a.stopped = b.stopped
  faults : ∀ k, faultCount k a.faultLog = faultCount k b.faultLog

/-- The two states agree on everything the two levels agree on, the pc included while no fatal fault has stopped
them (R9, R226). -/
structure SameArch (a b : State) : Prop extends SameData a b where
  pc : a.stopped = false → a.pc = b.pc

/-- The instruction in WB completed on its own. -/
def finishWb (m : MemWb) (s : State) : State :=
  if s.stopped then s else (wbState m s).logMask (wbMask m)

/-- The instruction in MEM completed on its own, in a state where all older ones are. -/
def finishMem (e : ExMem) (s : State) : State :=
  if s.stopped then s
  else if (memMask e s.par).isFatal then s.faultStop (memMask e s.par)
  else finishWb (memLatch e s) (memState e s)

/-- The instruction in EX completed on its own, its operands read from the register file of a state where all
older instructions are complete (the sequential reading of its operands). -/
def finishEx (d : IdEx) (s : State) : State :=
  if s.stopped then s
  else
    let o := execEXWord d.instr (s.reg (rsOf d.instr)) (s.reg (rtOf d.instr)) d.pcNext s
    finishMem (exLatch d o.result (s.reg (rtOf d.instr))) (o.state.logMask o.fm)

/-- The instruction in ID completed on its own; `pc` is already behind it. -/
def finishId (f : IfId) (s : State) : State :=
  if s.stopped then s
  else
    match decodeWord s.par.opc f.instr with
    | .error _ => s.faultStop FaultMask.illegalInstruction
    | .ok i => finishEx (idLatch f s) { s with pc := (resolve i f.pcNext s.reg).getD s.pc }

/-- The architectural state a pipeline state stands for: every instruction in flight completed, oldest first. -/
def drain (s : State) : State :=
  finishId s.pipe.ifid (finishEx s.pipe.idex (finishMem s.pipe.exmem (finishWb s.pipe.memwb s)))

/-- `k` instructions of the sequential model from a state, without the end-of-run tests (R9 (a)). -/
def sequentialSteps : Nat → State → Result
  | 0, s => .next s
  | k + 1, s =>
    match fetchThen exec s with
    | .next t => if t.stopped then .next t else sequentialSteps k t
    | .fault r => .fault r
    | .refused r => .refused r

/-! ## The shape of an instruction's result -/

/-- No general register reads differently. -/
def SameRegs (s t : State) : Prop := ∀ r, t.reg r = s.reg r

/-- HI, LO and the lock are the same. -/
def SameHiLo (s t : State) : Prop := t.hi = s.hi ∧ t.lo = s.lo ∧ t.lock = s.lock

/-- No byte of data memory reads differently. -/
def SameBytes (s t : State) : Prop := ∀ a, t.dmem.read a = s.dmem.read a

/-- What no instruction of the sequential model changes: the instruction array (R30, R77), the parameters (R6)
and the latches, which only `clock` moves (log 4). -/
def Untouched (s t : State) : Prop := t.imem = s.imem ∧ t.par = s.par ∧ t.pipe = s.pipe

/-- From `s` to `t` each fault of `fm` is logged once, no other is, and no older entry is lost (R39, R222, R265).
How one step's faults are spread over log entries is left out (log 5). -/
def LogsFaults (s t : State) (fm : FaultMask) : Prop :=
  s.faultLog <+: t.faultLog ∧ ∀ k, faultCount k t.faultLog = faultCount k s.faultLog + (fm.getLsbD k).toNat

/-- The step from `s` to `t` is completed, with the logged-only faults of `fm` (R40). -/
def Completed (s t : State) (fm : FaultMask) : Prop :=
  t.cycle = s.cycle + 1 ∧ t.stopped = s.stopped ∧ LogsFaults s t fm

/-- `WriteRegZero` for destination 0, no fault for any other (R23, R252). -/
def regZeroFault (d : RegIdx) : FaultMask := if d = 0#5 then 0x01#6 else 0x00#6

/-- `i` completes from `s`: `x[d] <- v` (nothing is written if `d` is 0), `pc <- pc_next`, the faults `fm` and for
`d = 0` `WriteRegZero` (R23); nothing else changes but the cycle counter. -/
def WritesReg (i : Instr) (s : State) (d : RegIdx) (v : Word) (fm : FaultMask) : Prop :=
  ∃ t, exec i s = .next t ∧ (∀ r, t.reg r = if r = d ∧ d ≠ 0#5 then v else s.reg r) ∧ t.pc = s.pc + 4#32 ∧
    Completed s t (fm ||| regZeroFault d) ∧ SameHiLo s t ∧ SameBytes s t ∧ Untouched s t

/-- `i` completes from `s`: `pc <- target` and no fault; nothing else changes but the cycle counter. -/
def OnlyMovesPc (i : Instr) (s : State) (target : Word) : Prop :=
  ∃ t, exec i s = .next t ∧ t.pc = target ∧ Completed s t 0x00#6 ∧ SameRegs s t ∧ SameHiLo s t ∧ SameBytes s t ∧
    Untouched s t

/-- `i` stops the machine from `s`: the faults of `fm` are logged, the status is FaultStopped, the counter stands
still, no register and no byte of memory changes (R68, R256). -/
def StopsWith (i : Instr) (s : State) (fm : FaultMask) : Prop :=
  ∃ t, exec i s = .next t ∧ t.stopped = true ∧ t.cycle = s.cycle ∧ LogsFaults s t fm ∧ SameRegs s t ∧
    SameHiLo s t ∧ SameBytes s t ∧ Untouched s t

/-- The EX stage on a word with operands `a` and `b` gives the result `v` and raises `fm`, with no side effect
(R215). -/
def ExGives (w a b pcn : Word) (s : State) (v : Word) (fm : FaultMask) : Prop :=
  (execEXWord w a b pcn s).result = v ∧ (execEXWord w a b pcn s).fm = fm ∧ (execEXWord w a b pcn s).state = s

/-- An R-format word of a funct number, of a numbering, that is not the NOP word (R91, R98, R99). -/
def RWord (o : Opc) (funct : Opcode) (w : Word) : Prop :=
  w.extractLsb' 26 6 = o.op.rtype ∧ w.extractLsb' 0 6 = funct ∧ w ≠ 0#32

/-- A word of a primary opcode number that is not the NOP word (R92 to R94, R97, R99). -/
def OpWord (op : Opcode) (w : Word) : Prop := w.extractLsb' 26 6 = op ∧ w ≠ 0#32

/-- `NumberOverflow` for an exact result outside the signed 32-bit range (R143, R253). -/
def overflowFault (n : Int) : FaultMask := if n < -2147483648 ∨ 2147483647 < n then 0x02#6 else 0x00#6

/-- The fatal faults of an access of `n` bytes at `a` (R67, R255, R257). -/
def accessFaults (p : Params) (a n : Nat) : FaultMask :=
  (if p.dmemBytes < a + n then 0x08#6 else 0x00#6) ||| (if a % n ≠ 0 then 0x10#6 else 0x00#6)

/-- An access of `n` bytes at `a` is in bounds and aligned (R67). -/
def AccessOk (p : Params) (a n : Nat) : Prop := a + n ≤ p.dmemBytes ∧ a % n = 0

/-- The load `i` of `n` bytes into `rt` from `imm(rs)`: in bounds and aligned it writes `value` of its address,
elsewhere it stops the machine. The address is `x[rs] + sext(imm)`, whose add may overflow (R170). -/
def LoadMeets (i : Instr) (rt rs : RegIdx) (imm : Imm16) (n : Nat) (s : State) (value : Nat → Word) : Prop :=
  let a := (s.reg rs + imm.signExtend 32).toNat
  let sumFault := overflowFault ((s.reg rs).toInt + (imm.signExtend 32).toInt)
  (AccessOk s.par a n → WritesReg i s rt (value a) sumFault) ∧
    (¬ AccessOk s.par a n → StopsWith i s (sumFault ||| accessFaults s.par a n))

/-- The store `i` of the low `n` bytes of `rt` to `imm(rs)`: in bounds and aligned it stores them, most significant
first, from its address up, and changes no other byte (R64); elsewhere it stops the machine with nothing
written. -/
def StoreMeets (i : Instr) (rt rs : RegIdx) (imm : Imm16) (n : Nat) (s : State) : Prop :=
  let a := (s.reg rs + imm.signExtend 32).toNat
  let sumFault := overflowFault ((s.reg rs).toInt + (imm.signExtend 32).toInt)
  (AccessOk s.par a n → ∃ t, exec i s = .next t ∧
    (∀ k, k < n → t.dmem.read (a + k) = (s.reg rt).extractLsb' (8 * (n - 1 - k)) 8) ∧
    (∀ b, (b < a ∨ a + n ≤ b) → t.dmem.read b = s.dmem.read b) ∧
    t.pc = s.pc + 4#32 ∧ Completed s t sumFault ∧ SameRegs s t ∧ SameHiLo s t ∧ Untouched s t) ∧
    (¬ AccessOk s.par a n → StopsWith i s (sumFault ||| accessFaults s.par a n))

/-! ## Instruction sequences -/

/-- Instructions one after another, each with its own effect, up to the first that stops the machine (R256). -/
def execAll : List Instr → State → Result
  | [], s => .next s
  | i :: rest, s =>
    match exec i s with
    | .next t => if t.stopped then .next t else execAll rest t
    | .fault r => .fault r
    | .refused r => .refused r

/-- MULT or MULTU. -/
def isMultiply : Instr → Bool
  | .mult _ _ | .multu _ _ => true
  | _ => false

/-- MFHI or MFLO. -/
def isMoveFrom : Instr → Bool
  | .mfhi _ | .mflo _ => true
  | _ => false

/-- How many multiplies of a sequence follow another multiply with no move-from in between; `locked` says
whether one stands unread before the sequence (R154, R254). -/
def unreadMultiplies : Bool → List Instr → Nat
  | _, [] => 0
  | locked, i :: rest =>
    if isMultiply i then locked.toNat + unreadMultiplies true rest
    else unreadMultiplies (locked && !isMoveFrom i) rest

end Sys2Proof.Machine
end

