-- ==== Sys2Proof/WellFormed.lean ====
section
/-! DEFINITION. Which instruction terms have a word of their own (spec/30_encoding.md R99, R101;
spec/40_r_format_alu.md R140). Every 5-bit register field, 5-bit shift amount, 16-bit immediate and 26-bit target
is legal (R20, R102), and the fields' types hold no other values, so the only check left is that the term's word
is not the one NOP takes. -/

namespace Sys2Proof

/-- The term's word is not NOP's all-zero word, unless it is NOP. With the default numbering `SLL $0,$0,0` is the
one term that fails (R99, R140; log 16). The machine still runs such a term: a word with a non-zero ignored field
decodes to it. -/
def Instr.wellFormed (o : Opc) (i : Instr) : Bool := i == .nop || encode o i != 0#32

end Sys2Proof
end

