-- ==== Sys2Proof/Certificates/Slice0/Obligations.lean ====
section
/-! DEFINITION. The statements for the provers, one Prop each, from the numbered rules of the spec. What a statement
shares with others (the shape of a result, the invariants, the completed instructions in flight) is in
Sys2Proof/Safety.lean. -/

section

open Sys2Proof Sys2Proof.Machine

/-- O1. Seven words the spec prints beside an instruction (R131 ADD $1,$2,$3; R161 ADDI $1,$0,-5; R171 LW $2,0($1); R176
SW $2,4($1); R187 BNE $1,$2,-3; R190 JAL 0x20; R200 HALT) decode to that instruction with those operands. The
opcode numbers are the spec's from general knowledge (log 1). (40_r_format_alu.md R131, 42_i_format_alu.md R161,
43_loads_stores.md R171, 43_loads_stores.md R176, 44_control_transfer.md R187, 44_control_transfer.md R190,
45_system_halt_nop.md R200) -/
def Obligations.SpecWordsDecode : Prop :=
  decodeWord Opc.default 0x00430820#32 = .ok (.add 1#5 2#5 3#5) ∧
    decodeWord Opc.default 0x2001FFFB#32 = .ok (.addi 1#5 0#5 (-5)) ∧
    decodeWord Opc.default 0x8C220000#32 = .ok (.lw 2#5 1#5 0#16) ∧
    decodeWord Opc.default 0xAC220004#32 = .ok (.sw 2#5 1#5 4#16) ∧
    decodeWord Opc.default 0x1422FFFD#32 = .ok (.bne 1#5 2#5 (-3)) ∧
    decodeWord Opc.default 0x0C000020#32 = .ok (.jal 0x20#26) ∧
    decodeWord Opc.default 0xFFFFFFFF#32 = .ok .halt

/-- O2. For every numbering without repeated numbers, every well-formed instruction i with every operand, and whatever
bytes follow: decoding the four bytes that encode i gives i and the bytes that follow. The fields packed by each
of the layouts R91 to R94 are read back exactly. Well-formed are the terms whose word is not NOP's all-zero
word, and NOP itself: with the default numbering every term but SLL $0,$0,0 (the model's choice, log 16; the
numbers of the default are log 1). (30_encoding.md R106, 30_encoding.md R99, 30_encoding.md R101) -/
def Obligations.DecodeOfEncode : Prop :=
  (∀ (o : Opc) (i : Instr) (rest : List Byte), o.distinct = true → i.wellFormed o = true →
      decode o (encodeBytes o i ++ rest) = .ok (i, rest)) ∧
    (∀ i : Instr, i.wellFormed Opc.default = true ↔ i ≠ .sll 0#5 0#5 0#5) ∧
    (∀ op rs rt rd shamt funct, let w := packR op rs rt rd shamt funct
      opcodeOf w = op ∧ rsOf w = rs ∧ rtOf w = rt ∧ rdOf w = rd ∧ shamtOf w = shamt ∧ functOf w = funct) ∧
    (∀ op rs rt c, let w := packI op rs rt c
      opcodeOf w = op ∧ rsOf w = rs ∧ rtOf w = rt ∧ c16Of w = c) ∧
    (∀ op c, let w := packJ op c
      opcodeOf w = op ∧ c26Of w = c)

/-- O3. For every 32-bit word w: bit k of opcode is bit 26+k of w, of rs bit 21+k, of rt bit 16+k, of rd bit 11+k, of
shamt bit 6+k, of funct, C16 and C26 bit k (k below the field's width); so the fields of each format make up the
word. The IF stage extracts rs and rt of every word it latches, legal or not. (R95) -/
def Obligations.FieldsAreTheNamedBits : Prop :=
  ∀ w : Word,
    (∀ k, k < 6 → (opcodeOf w).getLsbD k = w.getLsbD (26 + k)) ∧
    (∀ k, k < 5 → (rsOf w).getLsbD k = w.getLsbD (21 + k)) ∧
    (∀ k, k < 5 → (rtOf w).getLsbD k = w.getLsbD (16 + k)) ∧
    (∀ k, k < 5 → (rdOf w).getLsbD k = w.getLsbD (11 + k)) ∧
    (∀ k, k < 5 → (shamtOf w).getLsbD k = w.getLsbD (6 + k)) ∧
    (∀ k, k < 6 → (functOf w).getLsbD k = w.getLsbD k) ∧
    (∀ k, k < 16 → (c16Of w).getLsbD k = w.getLsbD k) ∧
    (∀ k, k < 26 → (c26Of w).getLsbD k = w.getLsbD k) ∧
    (∀ pc, (fetchedLatch pc w).rsIdx = rsOf w ∧ (fetchedLatch pc w).rtIdx = rtOf w)

/-- O4. For every numbering a word is classified ILLEGAL if and only if it is not all-zero and either its opcode is none
of the 22 numbers of the primary table, or its opcode is RTYPE and its funct is none of the 17 numbers of the
funct table. An illegal word has the illegal format and every control output 0 (R103). With the default
numbering these are the numbers of R97 and R98, which the spec has from general knowledge (log 1).
(30_encoding.md R96, 30_encoding.md R97, 30_encoding.md R98, 30_encoding.md R100, 30_encoding.md R103) -/
def Obligations.IllegalExactlyOutsideTheTables : Prop :=
  ∀ (o : Opc) (w : Word),
    (legalWord o w = false ↔ w ≠ 0#32 ∧
      (w.extractLsb' 26 6 ∉ o.op.toList ∨ w.extractLsb' 26 6 = o.op.rtype ∧ w.extractLsb' 0 6 ∉ o.fn.toList)) ∧
    (legalWord Opc.default w = false ↔ w ≠ 0#32 ∧
      (w.extractLsb' 26 6 ∉ [0x00#6, 0x02#6, 0x03#6, 0x04#6, 0x05#6, 0x07#6, 0x08#6, 0x09#6, 0x0A#6, 0x0C#6,
          0x0D#6, 0x0E#6, 0x0F#6, 0x20#6, 0x21#6, 0x23#6, 0x24#6, 0x25#6, 0x28#6, 0x29#6, 0x2B#6, 0x3F#6] ∨
        w.extractLsb' 26 6 = 0x00#6 ∧
          w.extractLsb' 0 6 ∉ [0x00#6, 0x02#6, 0x03#6, 0x08#6, 0x10#6, 0x12#6, 0x18#6, 0x19#6, 0x20#6, 0x21#6,
            0x22#6, 0x24#6, 0x25#6, 0x26#6, 0x27#6, 0x28#6, 0x2A#6])) ∧
    (formatOf o w = .illegal ↔ legalWord o w = false) ∧
    (legalWord o w = false → (controlOf o w).hasRs = false ∧ (controlOf o w).hasRt = false ∧
      (controlOf o w).memRead = false ∧ (controlOf o w).memWrite = false ∧ (controlOf o w).regWrite = false)

/-- O5. For every numbering: two words that are not all-zero, with the same opcode and, for opcode RTYPE, the same
funct, have the same format and are legal or illegal together. For every numbering without repeated numbers the
fields R101 lists as unused (shamt of the three-register instructions; rs of the shifts; rt, rd and shamt of JR;
rd and shamt of MULT and MULTU; rs, rt and shamt of MFHI and MFLO; rs of LUI; rt of BGTZ; C of HALT) may hold
anything: two words that differ in them only and are not the all-zero NOP word decode to the same instruction.
The numbers themselves are R97's and R98's from general knowledge (log 1); nothing here depends on them.
(30_encoding.md R101, 30_encoding.md R97, 30_encoding.md R98, 92_eei_decisions.md D24) -/
def Obligations.UnusedFieldsAreIgnored : Prop :=
  (∀ (o : Opc) (v w : Word), v ≠ 0#32 → w ≠ 0#32 → opcodeOf v = opcodeOf w →
      (opcodeOf w = o.op.rtype → functOf v = functOf w) →
      formatOf o v = formatOf o w ∧ legalWord o v = legalWord o w) ∧
    (∀ o : Opc, o.distinct = true →
      let R := packR o.op.rtype
      let same (v w : Word) : Prop := v ≠ 0#32 → w ≠ 0#32 → decodeWord o v = decodeWord o w ∧
        legalWord o w = true
      (∀ rs rt rd a b, ∀ f ∈ [o.fn.add, o.fn.addu, o.fn.sub, o.fn.and, o.fn.or, o.fn.xor, o.fn.nor, o.fn.nand,
        o.fn.slt], same (R rs rt rd a f) (R rs rt rd b f)) ∧
      (∀ a b rt rd shamt, ∀ f ∈ [o.fn.sll, o.fn.srl, o.fn.sra], same (R a rt rd shamt f) (R b rt rd shamt f)) ∧
      (∀ rs a b c d e f, same (R rs a b c o.fn.jr) (R rs d e f o.fn.jr)) ∧
      (∀ rs rt a b c d, ∀ f ∈ [o.fn.mult, o.fn.multu], same (R rs rt a b f) (R rs rt c d f)) ∧
      (∀ rd a b c d e g, ∀ f ∈ [o.fn.mfhi, o.fn.mflo], same (R a b rd c f) (R d e rd g f)) ∧
      (∀ rt c a b, same (packI o.op.lui a rt c) (packI o.op.lui b rt c)) ∧
      (∀ rs c a b, same (packI o.op.bgtz rs a c) (packI o.op.bgtz rs b c)) ∧
      (∀ a b, same (packJ o.op.halt a) (packJ o.op.halt b)))

/-- O6. With every numbering a word decodes to NOP if and only if it is all-zero; NOP has format R, mnemonic NOP and
hasRs, hasRt, isMemoryRead and RegWrite 0. From every state NOP logs nothing, while the word 0x00000040 decodes,
with the default numbering (log 1), to SLL $0,$0,1, which logs WriteRegZero. (R99) -/
def Obligations.OnlyTheAllZeroWordIsNop : Prop :=
  (∀ (o : Opc) (w : Word), decodeWord o w = .ok .nop ↔ w = 0#32) ∧
    (∀ o : Opc, formatOf o 0#32 = .R ∧ (controlOf o 0#32).hasRs = false ∧ (controlOf o 0#32).hasRt = false ∧
      (controlOf o 0#32).memRead = false ∧ (controlOf o 0#32).regWrite = false) ∧
    Instr.nop.mnemonic = "NOP" ∧
    (∀ s, ∃ t, exec .nop s = .next t ∧ SameRegs s t ∧ LogsFaults s t 0x00#6) ∧
    decodeWord Opc.default 0x00000040#32 = .ok (.sll 0#5 0#5 1#5) ∧
    (∀ s, ∃ t, exec (.sll 0#5 0#5 1#5) s = .next t ∧ SameRegs s t ∧ LogsFaults s t 0x01#6)

/-- O7. For every word w that decodes to i, every state s and every register r outside Srcs(w): changing r before i runs
changes nothing of the outcome but r itself, and not even r where i completes and writes r. So the predicates
hasRs and hasRt the hazard unit uses name every register an instruction really reads. (10_state.md R22,
30_encoding.md R103, 70_reset_and_hazards.md R300) -/
def Obligations.ResultsDependOnSourcesOnly : Prop :=
  ∀ (w : Word) (i : Instr) (s t : State) (r : RegIdx) (v : Word), decodeWord s.par.opc w = .ok i →
    r ∉ srcs s.par.opc w → exec i s = .next t →
    ∃ u, exec i (s.setReg r v) = .next u ∧ (∀ q, q ≠ r → u.reg q = t.reg q) ∧
      (i.control.regWrite = true → i.control.dest = r → t.cycle = s.cycle + 1 → u.reg r = t.reg r) ∧
      u.hi = t.hi ∧ u.lo = t.lo ∧ u.lock = t.lock ∧ u.pc = t.pc ∧ u.dmem = t.dmem ∧ u.imem = t.imem ∧
      u.faultLog = t.faultLog ∧ u.cycle = t.cycle ∧ u.stopped = t.stopped

/-- O8. For every numbering without repeated numbers, words of the functs of ADD and SUB and the opcode of ADDI are
these instructions of their fields; the default numbering has the numbers the rules print (the spec's from
general knowledge, log 1). From every state each completes: the destination takes the sum or difference modulo
2^32 (nothing if it is register 0, then WriteRegZero is logged), pc <- pc + 4, NumberOverflow is logged exactly
when the exact signed result is outside -2^31 to 2^31 - 1, and nothing else changes but the cycle counter. The
EX stage gives the same value and raises the same bit. SUB's exact overflow test is the spec's decision D17 (log
12). (R131, R133, R161) -/
def Obligations.AddSubAddiResultAndOverflow : Prop :=
  (∀ o : Opc, o.distinct = true → ∀ w,
      (RWord o o.fn.add w → decodeWord o w = .ok (.add (rdOf w) (rsOf w) (rtOf w))) ∧
      (RWord o o.fn.sub w → decodeWord o w = .ok (.sub (rdOf w) (rsOf w) (rtOf w))) ∧
      (OpWord o.op.addi w → decodeWord o w = .ok (.addi (rtOf w) (rsOf w) (c16Of w)))) ∧
    (Opc.default.op.rtype = 0x00#6 ∧ Opc.default.fn.add = 0x20#6 ∧ Opc.default.fn.sub = 0x22#6 ∧
     Opc.default.op.addi = 0x08#6) ∧
    (∀ rd rs rt s, WritesReg (.add rd rs rt) s rd (s.reg rs + s.reg rt)
      (overflowFault ((s.reg rs).toInt + (s.reg rt).toInt))) ∧
    (∀ rd rs rt s, WritesReg (.sub rd rs rt) s rd (s.reg rs - s.reg rt)
      (overflowFault ((s.reg rs).toInt - (s.reg rt).toInt))) ∧
    (∀ rt rs (c : Imm16) s, WritesReg (.addi rt rs c) s rt (s.reg rs + c.signExtend 32)
      (overflowFault ((s.reg rs).toInt + (c.signExtend 32).toInt))) ∧
    (∀ rd rs rt w a b pcn s, decodeWord s.par.opc w = .ok (.add rd rs rt) →
      ExGives w a b pcn s (a + b) (overflowFault (a.toInt + b.toInt))) ∧
    (∀ rd rs rt w a b pcn s, decodeWord s.par.opc w = .ok (.sub rd rs rt) →
      ExGives w a b pcn s (a - b) (overflowFault (a.toInt - b.toInt))) ∧
    (∀ rt rs (c : Imm16) w a b pcn s, decodeWord s.par.opc w = .ok (.addi rt rs c) →
      ExGives w a b pcn s (a + c.signExtend 32) (overflowFault (a.toInt + (c.signExtend 32).toInt)))

/-- O9. For every numbering without repeated numbers, words of the functs of ADDU, AND, OR, XOR, NOR, NAND and SLT are
these instructions of their fields; the default numbering has the numbers the rules print (the spec's from
general knowledge, log 1). From every state each completes: rd takes the sum modulo 2^32, the bitwise function,
or 1 or 0 by signed comparison; register 0 as destination is not written and logs WriteRegZero; no
NumberOverflow; pc <- pc + 4; nothing else changes but the cycle counter. EX gives the same value and raises
nothing. (R132, R134, R135, R136, R137, R138, R139) -/
def Obligations.RegisterAluResults : Prop :=
  (∀ o : Opc, o.distinct = true → ∀ w,
      (RWord o o.fn.addu w → decodeWord o w = .ok (.addu (rdOf w) (rsOf w) (rtOf w))) ∧
      (RWord o o.fn.and w → decodeWord o w = .ok (.and (rdOf w) (rsOf w) (rtOf w))) ∧
      (RWord o o.fn.or w → decodeWord o w = .ok (.or (rdOf w) (rsOf w) (rtOf w))) ∧
      (RWord o o.fn.xor w → decodeWord o w = .ok (.xor (rdOf w) (rsOf w) (rtOf w))) ∧
      (RWord o o.fn.nor w → decodeWord o w = .ok (.nor (rdOf w) (rsOf w) (rtOf w))) ∧
      (RWord o o.fn.nand w → decodeWord o w = .ok (.nand (rdOf w) (rsOf w) (rtOf w))) ∧
      (RWord o o.fn.slt w → decodeWord o w = .ok (.slt (rdOf w) (rsOf w) (rtOf w)))) ∧
    (Opc.default.op.rtype = 0x00#6 ∧ Opc.default.fn.addu = 0x21#6 ∧ Opc.default.fn.and = 0x24#6 ∧
     Opc.default.fn.or = 0x25#6 ∧ Opc.default.fn.xor = 0x26#6 ∧ Opc.default.fn.nor = 0x27#6 ∧
     Opc.default.fn.nand = 0x28#6 ∧ Opc.default.fn.slt = 0x2A#6) ∧
    (∀ rd rs rt s, WritesReg (.addu rd rs rt) s rd
      (s.reg rs + s.reg rt) 0x00#6) ∧
    (∀ rd rs rt s, WritesReg (.and rd rs rt) s rd
      (s.reg rs &&& s.reg rt) 0x00#6) ∧
    (∀ rd rs rt s, WritesReg (.or rd rs rt) s rd
      (s.reg rs ||| s.reg rt) 0x00#6) ∧
    (∀ rd rs rt s, WritesReg (.xor rd rs rt) s rd
      (s.reg rs ^^^ s.reg rt) 0x00#6) ∧
    (∀ rd rs rt s, WritesReg (.nor rd rs rt) s rd
      (~~~(s.reg rs ||| s.reg rt)) 0x00#6) ∧
    (∀ rd rs rt s, WritesReg (.nand rd rs rt) s rd
      (~~~(s.reg rs &&& s.reg rt)) 0x00#6) ∧
    (∀ rd rs rt s, WritesReg (.slt rd rs rt) s rd
      (if (s.reg rs).toInt < (s.reg rt).toInt then 1#32 else 0#32) 0x00#6) ∧
    (∀ rd rs rt w a b pcn s, decodeWord s.par.opc w = .ok (.addu rd rs rt) →
      ExGives w a b pcn s (a + b) 0x00#6) ∧
    (∀ rd rs rt w a b pcn s, decodeWord s.par.opc w = .ok (.and rd rs rt) →
      ExGives w a b pcn s (a &&& b) 0x00#6) ∧
    (∀ rd rs rt w a b pcn s, decodeWord s.par.opc w = .ok (.or rd rs rt) →
      ExGives w a b pcn s (a ||| b) 0x00#6) ∧
    (∀ rd rs rt w a b pcn s, decodeWord s.par.opc w = .ok (.xor rd rs rt) →
      ExGives w a b pcn s (a ^^^ b) 0x00#6) ∧
    (∀ rd rs rt w a b pcn s, decodeWord s.par.opc w = .ok (.nor rd rs rt) →
      ExGives w a b pcn s (~~~(a ||| b)) 0x00#6) ∧
    (∀ rd rs rt w a b pcn s, decodeWord s.par.opc w = .ok (.nand rd rs rt) →
      ExGives w a b pcn s (~~~(a &&& b)) 0x00#6) ∧
    (∀ rd rs rt w a b pcn s, decodeWord s.par.opc w = .ok (.slt rd rs rt) →
      ExGives w a b pcn s (if (a).toInt < (b).toInt then 1#32 else 0#32) 0x00#6)

/-- O10. For every numbering without repeated numbers, words of the functs of SLL (but the all-zero word), SRL and SRA
are these instructions of rd, rt and shamt; the default numbering has the numbers the rules print (the spec's
from general knowledge, log 1). From every state each completes and writes rd: bit k of SLL is bit k - shamt of
x[rt] or 0 below shamt; bit k of SRL is bit k + shamt or 0 past bit 31; bit k of SRA is bit k + shamt, or bit 31
past the end. x[rs] is not an operand. Nothing else changes but pc and the cycle counter; register 0 as
destination logs WriteRegZero. What SRA shifts in is the spec's from general knowledge (R142, G4; the model's
log 11, PRESUMED). (40_r_format_alu.md R140, 40_r_format_alu.md R141, 40_r_format_alu.md R142,
93_implementation_defined.md G4) -/
def Obligations.ShiftResultsBitByBit : Prop :=
  (∀ o : Opc, o.distinct = true → ∀ w,
      (RWord o o.fn.sll w → decodeWord o w = .ok (.sll (rdOf w) (rtOf w) (shamtOf w))) ∧
      (RWord o o.fn.srl w → decodeWord o w = .ok (.srl (rdOf w) (rtOf w) (shamtOf w))) ∧
      (RWord o o.fn.sra w → decodeWord o w = .ok (.sra (rdOf w) (rtOf w) (shamtOf w)))) ∧
    (Opc.default.op.rtype = 0x00#6 ∧ Opc.default.fn.sll = 0x00#6 ∧ Opc.default.fn.srl = 0x02#6 ∧
     Opc.default.fn.sra = 0x03#6) ∧
    (∀ rd rt (sh : Shamt) s, ∃ v : Word,
      (∀ k, k < 32 → v.getLsbD k = (decide (sh.toNat ≤ k) && (s.reg rt).getLsbD (k - sh.toNat))) ∧
      WritesReg (.sll rd rt sh) s rd v 0x00#6) ∧
    (∀ rd rt (sh : Shamt) s, ∃ v : Word,
      (∀ k, k < 32 → v.getLsbD k = ((s.reg rt).getLsbD (k + sh.toNat))) ∧
      WritesReg (.srl rd rt sh) s rd v 0x00#6) ∧
    (∀ rd rt (sh : Shamt) s, ∃ v : Word,
      (∀ k, k < 32 → v.getLsbD k = (if k + sh.toNat < 32 then (s.reg rt).getLsbD (k + sh.toNat)
        else (s.reg rt).getLsbD 31)) ∧
      WritesReg (.sra rd rt sh) s rd v 0x00#6) ∧
    (∀ rd rt (sh : Shamt) w a b pcn s, decodeWord s.par.opc w = .ok (.sll rd rt sh) → ∃ v : Word,
      (∀ k, k < 32 → v.getLsbD k = (decide (sh.toNat ≤ k) && (b).getLsbD (k - sh.toNat))) ∧
      ExGives w a b pcn s v 0x00#6) ∧
    (∀ rd rt (sh : Shamt) w a b pcn s, decodeWord s.par.opc w = .ok (.srl rd rt sh) → ∃ v : Word,
      (∀ k, k < 32 → v.getLsbD k = ((b).getLsbD (k + sh.toNat))) ∧
      ExGives w a b pcn s v 0x00#6) ∧
    (∀ rd rt (sh : Shamt) w a b pcn s, decodeWord s.par.opc w = .ok (.sra rd rt sh) → ∃ v : Word,
      (∀ k, k < 32 → v.getLsbD k = (if k + sh.toNat < 32 then (b).getLsbD (k + sh.toNat)
        else (b).getLsbD 31)) ∧
      ExGives w a b pcn s v 0x00#6)

/-- O11. For every numbering without repeated numbers, words of the opcodes of ADDIU, ANDI, ORI, NORI, LUI and SLTI are
these instructions of their fields; the default numbering has the numbers the rules print (the spec's from
general knowledge, log 1). From every state each completes and writes rt: ADDIU and SLTI sign-extend the
immediate, ANDI, ORI and NORI zero-extend it, LUI puts it into the upper half; no NumberOverflow; register 0 as
destination is not written and logs WriteRegZero; nothing else changes but pc and the cycle counter. EX gives
the same value and raises nothing. That ADDIU sign-extends is the spec's own decision D18 (R162; the model's log
11, PRESUMED). (42_i_format_alu.md R162, 42_i_format_alu.md R163, 42_i_format_alu.md R164, 42_i_format_alu.md
R165, 42_i_format_alu.md R166, 42_i_format_alu.md R167, 92_eei_decisions.md D18) -/
def Obligations.ImmediateAluResults : Prop :=
  (∀ o : Opc, o.distinct = true → ∀ w,
      (OpWord o.op.addiu w → decodeWord o w = .ok (.addiu (rtOf w) (rsOf w) (c16Of w))) ∧
      (OpWord o.op.andi w → decodeWord o w = .ok (.andi (rtOf w) (rsOf w) (c16Of w))) ∧
      (OpWord o.op.ori w → decodeWord o w = .ok (.ori (rtOf w) (rsOf w) (c16Of w))) ∧
      (OpWord o.op.nori w → decodeWord o w = .ok (.nori (rtOf w) (rsOf w) (c16Of w))) ∧
      (OpWord o.op.slti w → decodeWord o w = .ok (.slti (rtOf w) (rsOf w) (c16Of w))) ∧
      (OpWord o.op.lui w → decodeWord o w = .ok (.lui (rtOf w) (c16Of w)))) ∧
    (Opc.default.op.addiu = 0x09#6 ∧ Opc.default.op.andi = 0x0C#6 ∧ Opc.default.op.ori = 0x0D#6 ∧
     Opc.default.op.nori = 0x0E#6 ∧ Opc.default.op.slti = 0x0A#6 ∧ Opc.default.op.lui = 0x0F#6) ∧
    (∀ rt rs (c : Imm16) s, WritesReg (.addiu rt rs c) s rt
      (s.reg rs + (c).signExtend 32) 0x00#6) ∧
    (∀ rt rs (c : Imm16) s, WritesReg (.andi rt rs c) s rt
      (s.reg rs &&& (c).setWidth 32) 0x00#6) ∧
    (∀ rt rs (c : Imm16) s, WritesReg (.ori rt rs c) s rt
      (s.reg rs ||| (c).setWidth 32) 0x00#6) ∧
    (∀ rt rs (c : Imm16) s, WritesReg (.nori rt rs c) s rt
      (~~~(s.reg rs ||| (c).setWidth 32)) 0x00#6) ∧
    (∀ rt rs (c : Imm16) s, WritesReg (.slti rt rs c) s rt
      (if (s.reg rs).toInt < ((c).signExtend 32).toInt then 1#32 else 0#32) 0x00#6) ∧
    (∀ rt (c : Imm16) s, WritesReg (.lui rt c) s rt (c.setWidth 32 <<< 16) 0x00#6) ∧
    (∀ rt rs (c : Imm16) w a b pcn s, decodeWord s.par.opc w = .ok (.addiu rt rs c) →
      ExGives w a b pcn s (a + (c).signExtend 32) 0x00#6) ∧
    (∀ rt rs (c : Imm16) w a b pcn s, decodeWord s.par.opc w = .ok (.andi rt rs c) →
      ExGives w a b pcn s (a &&& (c).setWidth 32) 0x00#6) ∧
    (∀ rt rs (c : Imm16) w a b pcn s, decodeWord s.par.opc w = .ok (.ori rt rs c) →
      ExGives w a b pcn s (a ||| (c).setWidth 32) 0x00#6) ∧
    (∀ rt rs (c : Imm16) w a b pcn s, decodeWord s.par.opc w = .ok (.nori rt rs c) →
      ExGives w a b pcn s (~~~(a ||| (c).setWidth 32)) 0x00#6) ∧
    (∀ rt rs (c : Imm16) w a b pcn s, decodeWord s.par.opc w = .ok (.slti rt rs c) →
      ExGives w a b pcn s (if (a).toInt < ((c).signExtend 32).toInt then 1#32 else 0#32) 0x00#6) ∧
    (∀ rt (c : Imm16) w a b pcn s, decodeWord s.par.opc w = .ok (.lui rt c) →
      ExGives w a b pcn s (c.setWidth 32 <<< 16) 0x00#6)

/-- O12. For every numbering without repeated numbers, words of the functs of MULT and MULTU are these instructions of rs
and rt; the default numbering has the numbers the rules print (the spec's from general knowledge, log 1). From
every state each completes: HI and LO together, read as a signed (MULT) or unsigned (MULTU) 64-bit number, are
the exact product, the lock is set, HiLoOverwrite is logged exactly when the lock was set, no general register
and no byte of memory changes, pc <- pc + 4. EX has the same effects, raises the same bit and gives the result
0. (R150, R151) -/
def Obligations.MultiplyResult : Prop :=
  (∀ o : Opc, o.distinct = true → ∀ w,
      (RWord o o.fn.mult w → decodeWord o w = .ok (.mult (rsOf w) (rtOf w))) ∧
      (RWord o o.fn.multu w → decodeWord o w = .ok (.multu (rsOf w) (rtOf w)))) ∧
    (Opc.default.op.rtype = 0x00#6 ∧ Opc.default.fn.mult = 0x18#6 ∧ Opc.default.fn.multu = 0x19#6) ∧
    (∀ rs rt s, ∃ t, exec (.mult rs rt) s = .next t ∧
      (t.hi ++ t.lo : BitVec 64).toInt = (s.reg rs).toInt * (s.reg rt).toInt ∧ t.lock = true ∧
      Completed s t (if s.lock then 0x04#6 else 0x00#6) ∧ t.pc = s.pc + 4#32 ∧ SameRegs s t ∧ SameBytes s t ∧
      Untouched s t) ∧
    (∀ rs rt s, ∃ t, exec (.multu rs rt) s = .next t ∧
      (t.hi ++ t.lo : BitVec 64).toNat = (s.reg rs).toNat * (s.reg rt).toNat ∧ t.lock = true ∧
      Completed s t (if s.lock then 0x04#6 else 0x00#6) ∧ t.pc = s.pc + 4#32 ∧ SameRegs s t ∧ SameBytes s t ∧
      Untouched s t) ∧
    (∀ rs rt w a b pcn s, decodeWord s.par.opc w = .ok (.mult rs rt) → let o := execEXWord w a b pcn s
      (o.state.hi ++ o.state.lo : BitVec 64).toInt = a.toInt * b.toInt ∧ o.state.lock = true ∧ o.result = 0#32 ∧
      o.fm = if s.lock then 0x04#6 else 0x00#6) ∧
    (∀ rs rt w a b pcn s, decodeWord s.par.opc w = .ok (.multu rs rt) → let o := execEXWord w a b pcn s
      (o.state.hi ++ o.state.lo : BitVec 64).toNat = a.toNat * b.toNat ∧ o.state.lock = true ∧ o.result = 0#32 ∧
      o.fm = if s.lock then 0x04#6 else 0x00#6)

/-- O13. For every numbering without repeated numbers, words of the functs of MFHI and MFLO are these instructions of rd;
the default numbering has the numbers the rules print (the spec's from general knowledge, log 1). From every
state each completes: rd takes HI (MFHI) or LO (MFLO) (register 0 is not written and logs WriteRegZero), the
lock is cleared also for rd = 0, HI and LO stay, pc <- pc + 4, and nothing else changes but the cycle counter.
The read and the clearing happen in EX, with no fault there. (R152, R153, R28) -/
def Obligations.MoveFromHiLo : Prop :=
  (∀ o : Opc, o.distinct = true → ∀ w,
      (RWord o o.fn.mfhi w → decodeWord o w = .ok (.mfhi (rdOf w))) ∧
      (RWord o o.fn.mflo w → decodeWord o w = .ok (.mflo (rdOf w)))) ∧
    (Opc.default.op.rtype = 0x00#6 ∧ Opc.default.fn.mfhi = 0x10#6 ∧ Opc.default.fn.mflo = 0x12#6) ∧
    (∀ rd s, ∃ t, exec (.mfhi rd) s = .next t ∧ (∀ r, t.reg r = if r = rd ∧ rd ≠ 0#5 then s.hi else s.reg r) ∧
      t.lock = false ∧ t.hi = s.hi ∧ t.lo = s.lo ∧ t.pc = s.pc + 4#32 ∧ Completed s t (regZeroFault rd) ∧
      SameBytes s t ∧ Untouched s t) ∧
    (∀ rd s, ∃ t, exec (.mflo rd) s = .next t ∧ (∀ r, t.reg r = if r = rd ∧ rd ≠ 0#5 then s.lo else s.reg r) ∧
      t.lock = false ∧ t.hi = s.hi ∧ t.lo = s.lo ∧ t.pc = s.pc + 4#32 ∧ Completed s t (regZeroFault rd) ∧
      SameBytes s t ∧ Untouched s t) ∧
    (∀ rd w a b pcn s, decodeWord s.par.opc w = .ok (.mfhi rd) → let o := execEXWord w a b pcn s
      o.result = s.hi ∧ o.fm = 0x00#6 ∧ o.state = { s with lock := false }) ∧
    (∀ rd w a b pcn s, decodeWord s.par.opc w = .ok (.mflo rd) → let o := execEXWord w a b pcn s
      o.result = s.lo ∧ o.fm = 0x00#6 ∧ o.state = { s with lock := false })

/-- O14. For every list of instructions run one after another from any state that is not stopped, up to the first that a
fatal fault stops (R256): a next state results, and if no instruction of the list stopped the machine, the
number of HiLoOverwrite occurrences added to the log is the number of multiplies of the list that follow another
multiply (or an unread product the start state holds) with no MFHI or MFLO in between. (41_hilo_multiply.md
R154, 60_exceptions.md R254, 10_state.md R27, 60_exceptions.md R256) -/
def Obligations.HiLoOverwriteCounted : Prop :=
  ∀ (is : List Instr) (s : State), s.stopped = false → ∃ t, execAll is s = .next t ∧
    (t.stopped = false → faultCount 2 t.faultLog = faultCount 2 s.faultLog + unreadMultiplies s.lock is)

/-- O15. For every numbering without repeated numbers, words of the opcodes of LW, LH, LHU, LB and LBU are these
instructions of their fields; the default numbering has the numbers the rules print (the spec's from general
knowledge, log 1). From every state, with a = (x[rs] + sext(C)) mod 2^32: if the access is in bounds and aligned
the load completes and rt takes the bytes from a up, most significant first, as they are (LW), sign-extended
(LH, LB) or zero-extended (LHU, LBU), and nothing else changes but pc and the cycle counter (register 0 is not
written and logs WriteRegZero; an overflowing address add logs NumberOverflow). Otherwise the machine stops with
AddressOverflow and/or Misaligned logged, and no register, HI, LO, lock or byte of memory changed. (R171, R172,
R173, R174, R175) -/
def Obligations.LoadsReadBigEndianBytesOrStop : Prop :=
  (∀ o : Opc, o.distinct = true → ∀ w,
      (OpWord o.op.lw w → decodeWord o w = .ok (.lw (rtOf w) (rsOf w) (c16Of w))) ∧
      (OpWord o.op.lh w → decodeWord o w = .ok (.lh (rtOf w) (rsOf w) (c16Of w))) ∧
      (OpWord o.op.lhu w → decodeWord o w = .ok (.lhu (rtOf w) (rsOf w) (c16Of w))) ∧
      (OpWord o.op.lb w → decodeWord o w = .ok (.lb (rtOf w) (rsOf w) (c16Of w))) ∧
      (OpWord o.op.lbu w → decodeWord o w = .ok (.lbu (rtOf w) (rsOf w) (c16Of w)))) ∧
    (Opc.default.op.lw = 0x23#6 ∧ Opc.default.op.lh = 0x21#6 ∧ Opc.default.op.lhu = 0x25#6 ∧
     Opc.default.op.lb = 0x20#6 ∧ Opc.default.op.lbu = 0x24#6) ∧
    (∀ rt rs imm s, LoadMeets (.lw rt rs imm) rt rs imm 4 s (fun a =>
      s.dmem.read a ++ s.dmem.read (a + 1) ++ s.dmem.read (a + 2) ++ s.dmem.read (a + 3))) ∧
    (∀ rt rs imm s, LoadMeets (.lh rt rs imm) rt rs imm 2 s (fun a =>
      (s.dmem.read a ++ s.dmem.read (a + 1)).signExtend 32)) ∧
    (∀ rt rs imm s, LoadMeets (.lhu rt rs imm) rt rs imm 2 s (fun a =>
      (s.dmem.read a ++ s.dmem.read (a + 1)).setWidth 32)) ∧
    (∀ rt rs imm s, LoadMeets (.lb rt rs imm) rt rs imm 1 s (fun a =>
      (s.dmem.read a).signExtend 32)) ∧
    (∀ rt rs imm s, LoadMeets (.lbu rt rs imm) rt rs imm 1 s (fun a =>
      (s.dmem.read a).setWidth 32))

/-- O16. For every numbering without repeated numbers, words of the opcodes of SW, SH and SB are these instructions of
their fields; the default numbering has the numbers the rules print (the spec's from general knowledge, log 1).
From every state whose data memory has its canonical form, with a = (x[rs] + sext(C)) mod 2^32: if the access is
in bounds and aligned the store completes, byte a+k becomes byte k from the top of the low 4, 2 or 1 bytes of
x[rt], every other byte, every register, HI, LO and the lock stay, pc <- pc + 4. Otherwise the machine stops
with AddressOverflow and/or Misaligned logged and nothing written. In MEM a store passes its 32-bit datum on to
MEM/WB. (R176, R177, R178) -/
def Obligations.StoresWriteTheirBytesOnlyOrStop : Prop :=
  (∀ o : Opc, o.distinct = true → ∀ w,
      (OpWord o.op.sw w → decodeWord o w = .ok (.sw (rtOf w) (rsOf w) (c16Of w))) ∧
      (OpWord o.op.sh w → decodeWord o w = .ok (.sh (rtOf w) (rsOf w) (c16Of w))) ∧
      (OpWord o.op.sb w → decodeWord o w = .ok (.sb (rtOf w) (rsOf w) (c16Of w)))) ∧
    (Opc.default.op.sw = 0x2B#6 ∧ Opc.default.op.sh = 0x29#6 ∧ Opc.default.op.sb = 0x28#6) ∧
    (∀ rt rs imm s, s.dmem.wf = true → StoreMeets (.sw rt rs imm) rt rs imm 4 s) ∧
    (∀ rt rs imm s, s.dmem.wf = true → StoreMeets (.sh rt rs imm) rt rs imm 2 s) ∧
    (∀ rt rs imm s, s.dmem.wf = true → StoreMeets (.sb rt rs imm) rt rs imm 1 s) ∧
    (∀ e s, e.memWrite = true → (memLatch e s).rtData = e.rtData)

/-- O17. For every word that is a load or a store under the machine's numbering the EX stage gives (a + sext(C)) mod 2^32
and raises NumberOverflow exactly when the exact signed sum is outside the 32-bit range, with no other effect.
Whenever it overflows, the wrapped address is at least 0x7FFF8000 as an unsigned number, so CheckData raises
AddressOverflow for every data capacity up to 0x7FFF8000. The base register never changes unless it is a load's
destination. (R170) -/
def Obligations.AddressAddOverflow : Prop :=
  (∀ rt rs (c : Imm16) w a b pcn s, ∀ i ∈ [Instr.lw rt rs c, .lh rt rs c, .lhu rt rs c, .lb rt rs c, .lbu rt rs c,
        .sw rt rs c, .sh rt rs c, .sb rt rs c], decodeWord s.par.opc w = .ok i →
      ExGives w a b pcn s (a + c.signExtend 32) (overflowFault (a.toInt + (c.signExtend 32).toInt))) ∧
    (∀ (a : Word) (c : Imm16) (p : Params) (n : Width), p.dmemBytes ≤ 0x7FFF8000 →
      overflowFault (a.toInt + (c.signExtend 32).toInt) ≠ 0x00#6 →
      0x7FFF8000 ≤ (a + c.signExtend 32).toNat ∧ (checkData p (a + c.signExtend 32) n).getLsbD 3 = true) ∧
    (∀ rt rs imm s t (i : Instr), i ∈ [.lw rt rs imm, .lh rt rs imm, .lhu rt rs imm, .lb rt rs imm, .lbu rt rs imm,
        .sw rt rs imm, .sh rt rs imm, .sb rt rs imm] → exec i s = .next t →
      (i.control.regWrite = true → rt ≠ rs) → t.reg rs = s.reg rs)

/-- O18. For every numbering without repeated numbers, words of the opcodes of BEQ, BNE and BGTZ are these instructions
of their fields; the default numbering has the numbers the rules print (the spec's from general knowledge, log
1). From every state each completes: pc becomes pc + 4 + (sext(C) << 2) modulo 2^32 if the two registers are
equal (BEQ), differ (BNE) or the register is greater than 0 as a signed number (BGTZ), else pc + 4. No register,
HI, LO, lock or byte of memory changes and no fault is raised. The decoder has hasRs = hasRt = 1 for BEQ and
BNE, hasRs = 1 and hasRt = 0 for BGTZ. (R186, R187, R188) -/
def Obligations.BranchesGoToTargetOrNext : Prop :=
  (∀ o : Opc, o.distinct = true → ∀ w,
      (OpWord o.op.beq w → decodeWord o w = .ok (.beq (rsOf w) (rtOf w) (c16Of w)) ∧ (controlOf o w).hasRs = true ∧
        (controlOf o w).hasRt = true) ∧
      (OpWord o.op.bne w → decodeWord o w = .ok (.bne (rsOf w) (rtOf w) (c16Of w)) ∧ (controlOf o w).hasRs = true ∧
        (controlOf o w).hasRt = true) ∧
      (OpWord o.op.bgtz w → decodeWord o w = .ok (.bgtz (rsOf w) (c16Of w)) ∧ (controlOf o w).hasRs = true ∧
        (controlOf o w).hasRt = false)) ∧
    (Opc.default.op.beq = 0x04#6 ∧ Opc.default.op.bne = 0x05#6 ∧ Opc.default.op.bgtz = 0x07#6) ∧
    (∀ rs rt (c : Imm16) s, OnlyMovesPc (.beq rs rt c) s
      (if s.reg rs = s.reg rt then s.pc + 4#32 + (c.signExtend 32 <<< 2) else s.pc + 4#32)) ∧
    (∀ rs rt (c : Imm16) s, OnlyMovesPc (.bne rs rt c) s
      (if s.reg rs ≠ s.reg rt then s.pc + 4#32 + (c.signExtend 32 <<< 2) else s.pc + 4#32)) ∧
    (∀ rs (c : Imm16) s, OnlyMovesPc (.bgtz rs c) s
      (if 0 < (s.reg rs).toInt then s.pc + 4#32 + (c.signExtend 32 <<< 2) else s.pc + 4#32))

/-- O19. For every numbering without repeated numbers, words of the opcodes of J and JAL and of the funct of JR are these
instructions of their fields; the default numbering has the numbers the rules print (the spec's from general
knowledge, log 1). From every state each completes with no fault: J and JAL set pc to the upper 4 bits of pc +
4, the 26-bit field and 00; JAL also writes pc + 4 to register 31, and no other register; JR sets pc to x[rs]
unmasked. HI, LO, lock and every byte of memory stay. The link value is what EX hands on for JAL, with RegWrite
= 1 and WriteDest = 31; J and JR write no register. The link's path and JR in ID are the spec's decisions D23
and D7 (log 12). (R189, R190, R191) -/
def Obligations.JumpsAndLink : Prop :=
  (∀ o : Opc, o.distinct = true → ∀ w,
      (OpWord o.op.j w → decodeWord o w = .ok (.j (c26Of w)) ∧ (controlOf o w).hasRs = false ∧
        (controlOf o w).hasRt = false ∧ (controlOf o w).regWrite = false) ∧
      (OpWord o.op.jal w → decodeWord o w = .ok (.jal (c26Of w)) ∧ (controlOf o w).regWrite = true ∧
        (controlOf o w).dest = 31#5) ∧
      (RWord o o.fn.jr w → decodeWord o w = .ok (.jr (rsOf w)) ∧ (controlOf o w).hasRs = true ∧
        (controlOf o w).hasRt = false ∧ (controlOf o w).regWrite = false)) ∧
    (Opc.default.op.rtype = 0x00#6 ∧ Opc.default.fn.jr = 0x08#6 ∧ Opc.default.op.j = 0x02#6 ∧
     Opc.default.op.jal = 0x03#6) ∧
    (∀ target s, OnlyMovesPc (.j target) s ((s.pc + 4#32).extractLsb' 28 4 ++ target ++ 0#2)) ∧
    (∀ target s, ∃ t, exec (.jal target) s = .next t ∧
      (∀ r, t.reg r = if r = 31#5 then s.pc + 4#32 else s.reg r) ∧
      t.pc = (s.pc + 4#32).extractLsb' 28 4 ++ target ++ 0#2 ∧ Completed s t 0x00#6 ∧ SameHiLo s t ∧
      SameBytes s t ∧ Untouched s t) ∧
    (∀ rs s, OnlyMovesPc (.jr rs) s (s.reg rs)) ∧
    (∀ target w a b pcn s, decodeWord s.par.opc w = .ok (.jal target) → ExGives w a b pcn s pcn 0x00#6)

/-- O20. For every numbering without repeated numbers every word of the opcode of HALT, whatever C holds, decodes to
HALT, and the all-zero word to NOP; the default numbering has HALT at 0x3F, with 0xFFFFFFFF its canonical word
(the spec's from general knowledge, log 1). From every state both complete, pc becomes pc + 4, no fault is
raised and nothing else changes but the cycle counter. Their decoder outputs hasRs, hasRt, MemRead, MemWrite and
RegWrite are 0, and EX does nothing for them. The word NOP is what a bubble and a fetch below the base hold.
That HALT does not stop fetching is the spec's decision D28 (log 12). (R200, R201) -/
def Obligations.HaltAndNopOnlyAdvance : Prop :=
  (∀ o : Opc, o.distinct = true → ∀ w, OpWord o.op.halt w →
      decodeWord o w = .ok .halt ∧ controlOf o w = Control.none) ∧
    Opc.default.op.halt = 0x3F#6 ∧ encode Opc.default .halt = 0xFFFFFFFF#32 ∧
    (∀ o : Opc, decodeWord o 0x00000000#32 = .ok .nop ∧ controlOf o 0x00000000#32 = Control.none) ∧
    (∀ s, OnlyMovesPc .halt s (s.pc + 4#32)) ∧
    (∀ s, OnlyMovesPc .nop s (s.pc + 4#32)) ∧
    (∀ w a b pcn s, decodeWord s.par.opc w = .ok .halt → ExGives w a b pcn s 0x00000000#32 0x00#6) ∧
    (∀ a b pcn s, ExGives 0x00000000#32 a b pcn s 0x00000000#32 0x00#6) ∧
    IfId.zero.instr = 0x00000000#32 ∧ IdEx.zero.instr = 0x00000000#32 ∧
    (∀ s a, a.extractLsb' 0 2 = 0#2 → a.toNat < s.par.imemBase.toNat → fetch s a = .word 0x00000000#32)

/-- O21. For every instruction i and state s whose pc is a multiple of 4: if i gives a next state, its pc is a multiple
of 4, unless i is a JR whose register is not; so a JR to an aligned register keeps it too. (20_memory.md R80,
44_control_transfer.md R192) -/
def Obligations.PcStaysAligned : Prop :=
  ∀ (i : Instr) (s t : State), exec i s = .next t → s.pc.toNat % 4 = 0 →
    (∀ rs, i = .jr rs → (s.reg rs).toNat % 4 = 0) → t.pc.toNat % 4 = 0

/-- O22. For every memory in canonical form, address and value: after a 4-byte write the 4-byte read gives the value, the
2-byte reads its halves and the 1-byte reads its bytes, upper first; after a 2-byte write likewise; a 2-byte
write inside a word changes only its half. Every byte outside a write reads as before, and every write keeps the
canonical form. For addresses that fail CheckData, to which R79 gives no meaning and at which no step makes an
access, this is the model's choice (log 23). (20_memory.md R63, 20_memory.md R64, 20_memory.md R66) -/
def Obligations.MemoryIsBigEndianBytes : Prop :=
  ∀ (m : Memory 8) (a : Nat), m.wf = true →
    (∀ v : Word, memRead4 (memWrite4 m a v) a = v ∧
      memRead2 (memWrite4 m a v) a = v.extractLsb' 16 16 ∧ memRead2 (memWrite4 m a v) (a + 2) = v.extractLsb' 0 16 ∧
      (∀ k, k < 4 → memRead1 (memWrite4 m a v) (a + k) = v.extractLsb' (8 * (3 - k)) 8) ∧
      (∀ b, b < a ∨ a + 4 ≤ b → memRead1 (memWrite4 m a v) b = memRead1 m b) ∧ (memWrite4 m a v).wf = true) ∧
    (∀ v : BitVec 16, memRead2 (memWrite2 m a v) a = v ∧
      memRead1 (memWrite2 m a v) a = v.extractLsb' 8 8 ∧ memRead1 (memWrite2 m a v) (a + 1) = v.extractLsb' 0 8 ∧
      memRead4 (memWrite2 m a v) a = v ++ memRead2 m (a + 2) ∧
      (∀ b, b < a ∨ a + 2 ≤ b → memRead1 (memWrite2 m a v) b = memRead1 m b) ∧ (memWrite2 m a v).wf = true) ∧
    (∀ v : Byte, memRead1 (memWrite1 m a v) a = v ∧
      (∀ b, b ≠ a → memRead1 (memWrite1 m a v) b = memRead1 m b) ∧ (memWrite1 m a v).wf = true)

/-- O23. For every capacity, address and width n (1, 2 or 4): CheckData's mask is AddressOverflow if u(addr) + n exceeds
DMEM_BYTES, and Misaligned if u(addr) mod n is not 0, both when both fail; a byte access is never misaligned;
the mask is fatal exactly when it is not empty. MEM runs it for every latch with MemRead or MemWrite set and for
no other; on a fatal mask a clock cycle performs no access (the data memory stays) and stops the machine. That
both tests are made is the spec's decision D25 (log 12). (R67) -/
def Obligations.CheckDataRaisesBothTests : Prop :=
  (∀ (p : Params) (addr : Word) (n : Width),
      checkData p addr n = accessFaults p addr.toNat n.bytes ∧
      ((checkData p addr n).isFatal = true ↔ ¬ AccessOk p addr.toNat n.bytes)) ∧
    (∀ (p : Params) (addr : Word), (checkData p addr .byte).getLsbD 4 = false) ∧
    (∀ (e : ExMem) (p : Params), memMask e p =
      if e.memRead = true ∨ e.memWrite = true then checkData p e.aluResult (controlOf p.opc e.instr).width else 0x00#6) ∧
    (∀ s t, clock s = .next t → (memMask s.pipe.exmem s.par).isFatal = true → t.dmem = s.dmem ∧ t.stopped = true)

/-- O24. For every state and address a: misaligned gives no word; aligned below IMEM_BASE gives 0; aligned at IMEM_BASE +
4*i with i below IMEM_WORDS gives word i; at or past the end gives FETCH_BEYOND. In a running state a step whose
pc has no word is refused by name, and a clock cycle that reaches IF is refused in the same way (a cycle that a
fatal fault cuts short before IF is not: log 7). (20_memory.md R61, 20_memory.md R80,
93_implementation_defined.md U1, 93_implementation_defined.md U2) -/
def Obligations.FetchByAddress : Prop :=
  (∀ (s : State) (a : Word), a.toNat % 4 ≠ 0 → fetch s a = .misaligned) ∧
    (∀ (s : State) (a : Word), a.toNat % 4 = 0 → a.toNat < s.par.imemBase.toNat → fetch s a = .word 0x00000000#32) ∧
    (∀ (s : State) (a : Word) (i : Nat), a.toNat % 4 = 0 → a.toNat = s.par.imemBase.toNat + 4 * i →
      i < s.par.imemWords → fetch s a = .word (s.imem.read i)) ∧
    (∀ (s : State) (a : Word), a.toNat % 4 = 0 → s.par.imemBase.toNat % 4 = 0 →
      s.par.imemBase.toNat + 4 * s.par.imemWords ≤ a.toNat → fetch s a = .beyond) ∧
    (∀ s, seqStatus s = .running → fetch s s.pc = .beyond → step s = .refused .fetchBeyond) ∧
    (∀ s, seqStatus s = .running → fetch s s.pc = .misaligned → step s = .refused .fetchMisaligned) ∧
    (∀ s, pipeStatus s = .running → (memMask s.pipe.exmem s.par).isFatal = false →
      legalWord s.par.opc s.pipe.ifid.instr = true → (fetch s s.pc = .beyond → clock s = .refused .fetchBeyond) ∧
        (fetch s s.pc = .misaligned → clock s = .refused .fetchMisaligned))

/-- O25. In every state register 0 reads as 0. For every instruction, every sequential step and every clock cycle that
gives a next state, the stored cell of register 0 is as before and register 0 reads as 0 afterwards; so after
any sequence of writes to index 0 it reads as 0. (R21) -/
def Obligations.RegisterZeroIsHardwired : Prop :=
  (∀ s : State, s.reg 0#5 = 0#32) ∧
    (∀ i s t, exec i s = .next t → t.x[0] = s.x[0] ∧ t.reg 0#5 = 0#32) ∧
    (∀ s t, step s = .next t → t.x[0] = s.x[0] ∧ t.reg 0#5 = 0#32) ∧
    (∀ s t, clock s = .next t → t.x[0] = s.x[0] ∧ t.reg 0#5 = 0#32) ∧
    (∀ (s : State) (vs : List Word), (vs.foldl (fun u v => u.setReg 0#5 v) s).reg 0#5 = 0#32)

/-- O26. For every instruction but MULT and MULTU, HI and LO are unchanged; for every instruction but the four, the lock
is. A clock cycle changes HI or LO only if the word in EX is MULT or MULTU, changes the lock only if it is one
of the four, and changes none of them if MEM raises a fatal fault. (41_hilo_multiply.md R155, 10_state.md R26,
10_state.md R43) -/
def Obligations.OnlyMultipliesWriteHiLo : Prop :=
  (∀ i s t, exec i s = .next t → isMultiply i = false → t.hi = s.hi ∧ t.lo = s.lo) ∧
    (∀ i s t, exec i s = .next t → isMultiply i = false → isMoveFrom i = false → t.lock = s.lock) ∧
    (∀ s t, clock s = .next t → (∀ i, decodeWord s.par.opc s.pipe.idex.instr = .ok i → isMultiply i = false) →
      t.hi = s.hi ∧ t.lo = s.lo) ∧
    (∀ s t, clock s = .next t →
      (∀ i, decodeWord s.par.opc s.pipe.idex.instr = .ok i → isMultiply i = false ∧ isMoveFrom i = false) →
      t.lock = s.lock) ∧
    (∀ s t, clock s = .next t → (memMask s.pipe.exmem s.par).isFatal = true →
      t.hi = s.hi ∧ t.lo = s.lo ∧ t.lock = s.lock)

/-- O27. For every instruction, sequential step and clock cycle that gives a next state, and every address, Fetch gives
the same afterwards as before: no store is seen by a fetch, and a fetch made twice gets the same word. (R77) -/
def Obligations.StoresNeverReachInstructions : Prop :=
  (∀ i s t, exec i s = .next t → ∀ a, fetch t a = fetch s a) ∧
    (∀ s t, step s = .next t → ∀ a, fetch t a = fetch s a) ∧
    (∀ s t, clock s = .next t → ∀ a, fetch t a = fetch s a)

/-- O28. For every instruction but SW, SH and SB the data memory is unchanged. A clock cycle changes it only if EX/MEM
holds a store that passes the check, and then only in the bytes of that access: a store whose check fails
changes no byte, in a cycle or as an instruction (one that stops the machine leaves the counter where it is). No
instruction and no cycle changes the parameters. (20_memory.md R60, 20_memory.md R74, 10_state.md R31) -/
def Obligations.OnlyStoresChangeDataMemory : Prop :=
  (∀ i s t, exec i s = .next t → i.control.memWrite = false → t.dmem = s.dmem) ∧
    (∀ i s t, exec i s = .next t → t.cycle = s.cycle → t.dmem = s.dmem) ∧
    (∀ s t, clock s = .next t → s.pipe.exmem.memWrite = false → t.dmem = s.dmem) ∧
    (∀ s t, clock s = .next t → (memMask s.pipe.exmem s.par).isFatal = true → t.dmem = s.dmem) ∧
    (∀ s t, clock s = .next t → ∀ b, (b < s.pipe.exmem.aluResult.toNat ∨
      s.pipe.exmem.aluResult.toNat + (controlOf s.par.opc s.pipe.exmem.instr).width.bytes ≤ b) →
      t.dmem.read b = s.dmem.read b) ∧
    (∀ i s t, exec i s = .next t → t.par = s.par) ∧
    (∀ s t, clock s = .next t → t.par = s.par)

/-- O29. For every running state whose pc fetches a word that decodes to i, step is exec i in that state: the step adds
nothing around the instruction. (00_scope.md R9, 20_memory.md R61, 30_encoding.md R96) -/
def Obligations.StepRunsTheDecodedInstruction : Prop :=
  ∀ (s : State) (w : Word) (i : Instr), seqStatus s = .running → fetch s s.pc = .word w →
    decodeWord s.par.opc w = .ok i → step s = exec i s

/-- O30. For every running state whose pc fetches an illegal word, step gives a state that is FaultStopped, with
IllegalInstruction logged once in the current cycle, the counter not advanced, and every register, HI, LO, lock,
the memories, the latches and the pc unchanged (the unchanged pc is the model's choice: log 5). From a
FaultStopped state neither step nor clock takes a step. (45_system_halt_nop.md R203, 60_exceptions.md R256,
60_exceptions.md R258) -/
def Obligations.StepStopsAtAnIllegalWord : Prop :=
  (∀ (s : State) (w : Word), seqStatus s = .running → fetch s s.pc = .word w → legalWord s.par.opc w = false →
      step s = .next { s with faultLog := s.faultLog ++ [(s.cycle, 0x20#6)], stopped := true }) ∧
    (∀ s : State, s.stopped = true → step s = .fault .faultStopped ∧ clock s = .fault .faultStopped)

/-- O31. For every state whose pc is an aligned address inside the instruction array and whose instruction array is in
canonical form: after withFetchWord s 32 w the fetch at the pc gives w modulo 2^32, every other index of the
array reads as before, the form is kept, and no other field changes. That a program comes from outside the
machine is the model's choice (log 3). (20_memory.md R61, 70_reset_and_hazards.md R281) -/
def Obligations.FetchWordIsPlacedAtThePc : Prop :=
  ∀ (s : State) (w i : Nat), s.imem.wf = true → s.pc.toNat % 4 = 0 →
    s.pc.toNat = s.par.imemBase.toNat + 4 * i → i < s.par.imemWords →
    fetch (s.withFetchWord 32 w) s.pc = .word (BitVec.ofNat 32 w) ∧
      (∀ j, j ≠ i → (s.withFetchWord 32 w).imem.read j = s.imem.read j) ∧
      (s.withFetchWord 32 w).imem.wf = true ∧
      s.withFetchWord 32 w = { s with imem := (s.withFetchWord 32 w).imem }

/-- O32. For all boot inputs and parameters: pc and IMEM_BASE are initialPC; x[29] is the stack pointer and every other
register 0; HI, LO and lock are 0; IMEM[i] is word i of the image and 0 past it; DMEM[a] is byte a of the image
and 0 past it; the four latches are all zero; the log is empty, the cycle counter 0, the status not
FaultStopped; the capacities, the cycle cap and the numbering are the ones the machine is built with. The zeros
the source does not state are the spec's own decision D5, the model's DESIGN CHOICE of log 2.
(70_reset_and_hazards.md R281, 10_state.md R45, 92_eei_decisions.md D5) -/
def Obligations.ResetSequence : Prop :=
  ∀ (c : Build) (b : BootInputs), let s := resetWith c b
    s.par.imemBase = b.initialPC ∧ s.pc = b.initialPC ∧
      (∀ r : RegIdx, s.reg r = if r = 29#5 then b.stackPointer else 0x00000000#32) ∧
      s.hi = 0x00000000#32 ∧ s.lo = 0x00000000#32 ∧ s.lock = false ∧
      (∀ i, s.imem.read i = b.words.getD i 0x00000000#32) ∧
      (∀ a, s.dmem.read a = b.bytes.getD a 0x00#8) ∧
      s.pipe.ifid = ⟨0#32, 0#32, 0#5, 0#5⟩ ∧ s.pipe.idex = ⟨0#32, 0#32, 0#32, 0#32, 0#5, false, false, false⟩ ∧
      s.pipe.exmem = ⟨0#32, 0#32, 0#32, 0#5, false, false, false⟩ ∧ s.pipe.memwb = ⟨0#32, 0#32, 0#5, false⟩ ∧
      s.faultLog = [] ∧ s.cycle = 0 ∧ s.stopped = false ∧
      s.par.imemWords = c.imemWords ∧ s.par.dmemBytes = c.dmemBytes ∧ s.par.maxCycles = c.maxCycles ∧ s.par.opc = c.opc

/-- O33. State.reset is resetWith of the default parameters with initialPC 0, stack pointer 0 and empty images; the
choice of these boot inputs is the model's (log 3). Its parameters are R6's defaults: 1024 words, 4096 bytes,
500,000 cycles, and the default numbering (log 1). (10_state.md R45, 00_scope.md R6) -/
def Obligations.ResetStateIsAnEmptyBoot : Prop :=
  State.reset = resetWith Build.default
      { initialPC := 0x00000000#32, words := [], stackPointer := 0x00000000#32, bytes := [] } ∧
    State.reset.par.imemWords = 1024 ∧ State.reset.par.dmemBytes = 4096 ∧ State.reset.par.maxCycles = 500000 ∧
    State.reset.par.opc = Opc.default

/-- O34. For every initialPC and word list the file of the big-endian header (initialPC, count) and the big-endian words
parses to exactly these; for every stack pointer and byte list likewise, with the count in words (a multiple of
4 bytes) or in bytes. boot gives a state exactly when initialPC is a multiple of 4, both images fit, and the
data capacity is a multiple of 4, and it is then the reset sequence's. That the capacity R6 requires to be a
multiple of 4 is tested with the boot requirements of R285, and that inputs which fail give no state, is the
model's reading (log 22, DEDUCED). (70_reset_and_hazards.md R282, 70_reset_and_hazards.md R283,
70_reset_and_hazards.md R284, 70_reset_and_hazards.md R285, 93_implementation_defined.md U5, 00_scope.md R6) -/
def Obligations.ImageFilesBootTheMachine : Prop :=
  (∀ (pc : Word) (ws : List Word), ws.length < 2 ^ 32 →
      parseInstructionImage (wordBytes pc ++ wordBytes (BitVec.ofNat 32 ws.length) ++ ws.flatMap wordBytes) =
        some (pc, ws)) ∧
    (∀ (sp : Word) (bs : List Byte) (n : Nat), n < 2 ^ 32 → bs.length = 4 * n →
      parseDataImage .words (wordBytes sp ++ wordBytes (BitVec.ofNat 32 n) ++ bs) = some (sp, bs)) ∧
    (∀ (sp : Word) (bs : List Byte), bs.length < 2 ^ 32 →
      parseDataImage .bytes (wordBytes sp ++ wordBytes (BitVec.ofNat 32 bs.length) ++ bs) = some (sp, bs)) ∧
    (∀ (c : Build) (b : BootInputs),
      boot c b = if b.initialPC.toNat % 4 = 0 ∧ b.words.length ≤ c.imemWords ∧ b.bytes.length ≤ c.dmemBytes ∧
        c.dmemBytes % 4 = 0 then some (resetWith c b) else none)

/-- O35. For every clock cycle that gives a next state: register r reads as MEM/WB's datum if MEM/WB has RegWrite = 1 and
WriteDest = r and r is not 0, and as before otherwise; WriteRegZero is logged once exactly when RegWrite = 1 and
WriteDest = 0, and then no register changes. ID sees the written value in the same cycle: the operands it
latches are the registers after the write. The 'changed' output tells whether the written register's old value
differed. The fault for register 0 is the spec's decision D3 (log 12). (R212, R252) -/
def Obligations.WritebackIsTheOnlyRegisterWriter : Prop :=
  (∀ s t, clock s = .next t →
    (∀ r, t.reg r = if s.pipe.memwb.regWrite = true ∧ r = s.pipe.memwb.writeDest ∧ r ≠ 0#5 then s.pipe.memwb.rtData
        else s.reg r) ∧
      faultCount 0 t.faultLog = faultCount 0 s.faultLog +
        (if s.pipe.memwb.regWrite = true ∧ s.pipe.memwb.writeDest = 0#5 then 1 else 0) ∧
      (t.stopped = false → t.pipe.idex ≠ IdEx.zero →
        t.pipe.idex.rsData = t.reg (rsOf t.pipe.idex.instr) ∧ t.pipe.idex.rtData = t.reg (rtOf t.pipe.idex.instr))) ∧
    (∀ s v, (cycleTrace s).regWrite = some v → s.pipe.memwb.regWrite = true ∧ v.index = s.pipe.memwb.writeDest ∧
      v.index ≠ 0#5 ∧ v.value = s.pipe.memwb.rtData ∧ (v.changed = true ↔ s.reg v.index ≠ v.value))

/-- O36. For every clock cycle without a fatal fault in MEM, from a data memory in canonical form: MEM/WB takes over
instr, RegWrite and WriteDest from EX/MEM; its datum is EX/MEM's datum for a store, else for a load the 4, 2 or
1 bytes at the address, most significant first, sign- or zero-extended as the word in MEM says, else the ALU
result; a store leaves its low bytes at the address and every other byte reads as before; without a store all of
memory does. Where MEM raises a fatal fault the machine stops and neither memory nor MEM/WB changes. (R213) -/
def Obligations.MemStageOfACompletedCycle : Prop :=
  ∀ s t, clock s = .next t → s.dmem.wf = true →
    let e := s.pipe.exmem
    let a := e.aluResult.toNat
    let n := (controlOf s.par.opc e.instr).width
    let m := s.dmem
    ((memMask e s.par).isFatal = false →
      t.pipe.memwb.instr = e.instr ∧ t.pipe.memwb.regWrite = e.regWrite ∧ t.pipe.memwb.writeDest = e.writeDest ∧
      (e.memWrite = true → t.pipe.memwb.rtData = e.rtData ∧
        (∀ k, k < n.bytes → t.dmem.read (a + k) = e.rtData.extractLsb' (8 * (n.bytes - 1 - k)) 8) ∧
        (∀ b, (b < a ∨ a + n.bytes ≤ b) → t.dmem.read b = m.read b)) ∧
      (e.memWrite = false → t.dmem = m) ∧
      (e.memWrite = false → e.memRead = true → t.pipe.memwb.rtData = match n, (controlOf s.par.opc e.instr).ext with
        | .word, _ => m.read a ++ m.read (a + 1) ++ m.read (a + 2) ++ m.read (a + 3)
        | .half, .sign => (m.read a ++ m.read (a + 1)).signExtend 32
        | .half, _ => (m.read a ++ m.read (a + 1)).setWidth 32
        | .byte, .sign => (m.read a).signExtend 32
        | .byte, _ => (m.read a).setWidth 32) ∧
      (e.memWrite = false → e.memRead = false → t.pipe.memwb.rtData = e.aluResult)) ∧
    ((memMask e s.par).isFatal = true → t.stopped = true ∧ t.dmem = m ∧ t.pipe.memwb = s.pipe.memwb)

/-- O37. A running machine takes the cycle: with a fatal fault in MEM or an illegal word in IF/ID a next state results
that is stopped, and with neither, where the pc fetches a word, one that is not. For every clock cycle: with a
fatal fault in MEM, WB's register write is done and nothing else: memory, HI, LO, lock, all latches and pc stay,
and the logged mask is WB's bit and MEM's. With none in MEM and an illegal word in IF/ID, WB, MEM and EX are
done with MEM/WB and EX/MEM filled, ID/EX, IF/ID and pc stay, and the logged mask is the bits of WB, EX and
IllegalInstruction. In both cases the status becomes FaultStopped and the counter stands still. With neither,
the cycle is completed, its mask is logged if it is not empty, and the counter advances. Which stages have acted
is the spec's decision D13 (log 12). (R222) -/
def Obligations.FatalFaultAbandonsLaterStages : Prop :=
  (∀ s, pipeStatus s = .running →
    let bad := (memMask s.pipe.exmem s.par).isFatal
    (bad = true → ∃ t, clock s = .next t ∧ t.stopped = true) ∧
    (bad = false → legalWord s.par.opc s.pipe.ifid.instr = false → ∃ t, clock s = .next t ∧ t.stopped = true) ∧
    (∀ f, bad = false → legalWord s.par.opc s.pipe.ifid.instr = true → fetch s s.pc = .word f →
      ∃ t, clock s = .next t ∧ t.stopped = false)) ∧
  ∀ s t, clock s = .next t →
    let bad := memMask s.pipe.exmem s.par
    let wz : FaultMask := if s.pipe.memwb.regWrite = true ∧ s.pipe.memwb.writeDest = 0#5 then 0x01#6 else 0x00#6
    let ex := (exOut s).fm
    (bad.isFatal = true →
      t.stopped = true ∧ t.cycle = s.cycle ∧ t.faultLog = s.faultLog ++ [(s.cycle, wz ||| bad)] ∧
      t.x = (wbState s.pipe.memwb s).x ∧ t.dmem = s.dmem ∧ t.hi = s.hi ∧ t.lo = s.lo ∧ t.lock = s.lock ∧
      t.pipe = s.pipe ∧ t.pc = s.pc) ∧
    (bad.isFatal = false → legalWord s.par.opc s.pipe.ifid.instr = false →
      t.stopped = true ∧ t.cycle = s.cycle ∧ t.faultLog = s.faultLog ++ [(s.cycle, wz ||| ex ||| 0x20#6)] ∧
      t.x = (wbState s.pipe.memwb s).x ∧ t.dmem = (memState s.pipe.exmem s).dmem ∧
      t.hi = (exOut s).state.hi ∧ t.lo = (exOut s).state.lo ∧ t.lock = (exOut s).state.lock ∧
      t.pipe.memwb = nextMemWb s ∧ t.pipe.exmem = nextExMem s ∧ t.pipe.idex = s.pipe.idex ∧
      t.pipe.ifid = s.pipe.ifid ∧ t.pc = s.pc) ∧
    (bad.isFatal = false → legalWord s.par.opc s.pipe.ifid.instr = true →
      t.stopped = false ∧ t.cycle = s.cycle + 1 ∧
      t.faultLog = s.faultLog ++ (if wz ||| ex = 0x00#6 then [] else [(s.cycle, wz ||| ex)]))

/-- O38. For every clock cycle that completes: if the stall condition holds, IF/ID and pc are kept and a bubble enters
ID/EX; else, if the control instruction in ID transfers to a target, IF/ID is zeroed and pc is the target; else
IF/ID takes the word at pc with pc + 4 and its rs and rt fields, and pc becomes pc + 4. Unless it stalls, the
instruction of IF/ID enters ID/EX, and in every case the words of ID/EX and EX/MEM move on to EX/MEM and MEM/WB:
nothing past ID is flushed. (R219, R221) -/
def Obligations.StallFlushAndFetch : Prop :=
  ∀ s t, clock s = .next t → t.stopped = false → ∃ i f, decodeWord s.par.opc s.pipe.ifid.instr = .ok i ∧
    fetch s s.pc = .word f ∧
    t.pipe.exmem.instr = s.pipe.idex.instr ∧ t.pipe.memwb.instr = s.pipe.exmem.instr ∧
    (stallCond s.par.opc s.pipe.ifid.instr s.pipe.idex s.pipe.exmem = true →
      t.pipe.ifid = s.pipe.ifid ∧ t.pc = s.pc ∧ t.pipe.idex = IdEx.zero) ∧
    (stallCond s.par.opc s.pipe.ifid.instr s.pipe.idex s.pipe.exmem = false →
      t.pipe.idex.instr = s.pipe.ifid.instr ∧ t.pipe.idex.pcNext = s.pipe.ifid.pcNext ∧
      match resolve i s.pipe.ifid.pcNext (idVal s.pipe t) with
      | some target => t.pipe.ifid = IfId.zero ∧ t.pc = target
      | none => t.pipe.ifid = ⟨f, s.pc + 4#32, f.extractLsb' 21 5, f.extractLsb' 16 5⟩ ∧ t.pc = s.pc + 4#32)

/-- O39. In a completed cycle whose stall condition holds: ID/EX becomes the all-zero latch, IF/ID and pc stay, the word
of ID/EX moves to EX/MEM and that of EX/MEM to MEM/WB. The condition is evaluated afresh in every cycle, and if
it holds in two completed cycles in a row it does not hold in the next. (R220) -/
def Obligations.StallInjectionLastsAtMostTwoCycles : Prop :=
  (∀ s t, clock s = .next t → t.stopped = false → stallCond s.par.opc s.pipe.ifid.instr s.pipe.idex s.pipe.exmem = true →
      t.pipe.idex = IdEx.zero ∧ t.pipe.ifid = s.pipe.ifid ∧ t.pc = s.pc ∧
      t.pipe.exmem.instr = s.pipe.idex.instr ∧ t.pipe.memwb.instr = s.pipe.exmem.instr) ∧
    (∀ s t u, clock s = .next t → t.stopped = false → clock t = .next u → u.stopped = false →
      stallCond s.par.opc s.pipe.ifid.instr s.pipe.idex s.pipe.exmem = true →
      stallCond t.par.opc t.pipe.ifid.instr t.pipe.idex t.pipe.exmem = true →
      stallCond u.par.opc u.pipe.ifid.instr u.pipe.idex u.pipe.exmem = false)

/-- O40. For every numbering, word, ID/EX and EX/MEM: the stall condition holds exactly when some non-zero register the
word's instruction reads is the destination of a load in EX, or, for BEQ, BNE, BGTZ and JR, of any register-
writing instruction in EX or of a load in MEM. It never holds for NOP, HALT, J, JAL, LUI, MFHI, MFLO, for
destinations 0, or against bubbles. The condition is the spec's decision D10 (log 12). (R305) -/
def Obligations.StallConditionByMnemonic : Prop :=
  (∀ (o : Opc) (w : Word) (i : Instr) (d : IdEx) (e : ExMem),
      decodeWord o w = .ok i →
      let reads (r : RegIdx) : Prop := r ≠ 0#5 ∧
        ((controlOf o w).hasRs = true ∧ r = rsOf w ∨ (controlOf o w).hasRt = true ∧ r = rtOf w)
      let ctl : Prop := (∃ rs rt c, i = .beq rs rt c) ∨ (∃ rs rt c, i = .bne rs rt c) ∨ (∃ rs c, i = .bgtz rs c) ∨
        ∃ rs, i = .jr rs
      (stallCond o w d e = true ↔ d.memRead = true ∧ reads d.writeDest ∨
        ctl ∧ d.regWrite = true ∧ reads d.writeDest ∨
        ctl ∧ e.regWrite = true ∧ e.memRead = true ∧ reads e.writeDest)) ∧
    (∀ (o : Opc) (w : Word) (d : IdEx) (e : ExMem), decodeWord o w = .ok .nop ∨
      decodeWord o w = .ok .halt ∨
      (∃ c, decodeWord o w = .ok (.j c)) ∨ (∃ c, decodeWord o w = .ok (.jal c)) ∨
      (∃ rt c, decodeWord o w = .ok (.lui rt c)) ∨ (∃ rd, decodeWord o w = .ok (.mfhi rd)) ∨
      (∃ rd, decodeWord o w = .ok (.mflo rd)) → stallCond o w d e = false) ∧
    (∀ (o : Opc) (w : Word) (d : IdEx) (e : ExMem), d.writeDest = 0#5 → e.writeDest = 0#5 → stallCond o w d e = false) ∧
    (∀ (o : Opc) (w : Word), stallCond o w IdEx.zero ExMem.zero = false)

/-- O41. In every state of a pipeline that meets the pipeline invariant, is not stopped and has no fatal fault in MEM:
for an operand the instruction in EX really reads, the forwarded value is what its register holds once the
instructions in WB and MEM have completed. So the load-use stall makes the two forwarding paths always deliver
the sequential value, and the nearer producer wins. (46_pipeline_engine.md R214, 70_reset_and_hazards.md R300,
70_reset_and_hazards.md R304) -/
def Obligations.ForwardedOperandsAreSequential : Prop :=
  ∀ s : State, PipeInv s → s.stopped = false → (memMask s.pipe.exmem s.par).isFatal = false →
    let older := finishMem s.pipe.exmem (finishWb s.pipe.memwb s)
    ((controlOf s.par.opc s.pipe.idex.instr).hasRs = true →
        exOperandA s.par.opc s.pipe = older.reg (rsOf s.pipe.idex.instr)) ∧
      ((controlOf s.par.opc s.pipe.idex.instr).hasRt = true →
        exOperandB s.par.opc s.pipe = older.reg (rtOf s.pipe.idex.instr))

/-- O42. In every state that meets the pipeline invariant, is not stopped, has no fatal fault in MEM and does not stall:
for every register that the BEQ, BNE, BGTZ or JR in ID reads, the value it uses is what the register holds once
the instructions in WB, MEM and EX have completed. (46_pipeline_engine.md R218, 70_reset_and_hazards.md R303,
44_control_transfer.md R192) -/
def Obligations.BranchOperandsInIdAreSequential : Prop :=
  ∀ (s : State) (i : Instr) (r : RegIdx), PipeInv s → s.stopped = false →
    (memMask s.pipe.exmem s.par).isFatal = false → stallOf s.par.opc s.pipe = false →
    decodeWord s.par.opc s.pipe.ifid.instr = .ok i → i.isCtlReg = true → r ∈ srcs s.par.opc s.pipe.ifid.instr →
    idVal s.pipe (afterEx s) r =
      (finishEx s.pipe.idex (finishMem s.pipe.exmem (finishWb s.pipe.memwb s))).reg r

/-- O43. For every state that meets the latch invariant (index and control fields of every latch are the decoder's
outputs for the latch's own word; ID/EX, EX/MEM and MEM/WB hold no illegal word) every clock cycle that gives a
next state gives one that meets it, a cycle cut short by a fatal fault included. (10_state.md R37, 10_state.md
R32) -/
def Obligations.LatchInvariantKept : Prop :=
  ∀ s t : State, LatchInv s.par.opc s.pipe → clock s = .next t → LatchInv t.par.opc t.pipe

/-- O44. For every state that meets the pipeline invariant (the latch invariant; the operands latched in ID/EX are the
register file's; no instruction in EX reads the destination of a load in MEM; the pc is the one behind the word
in IF/ID, or IF/ID is a bubble) every clock cycle that completes gives a state that meets it.
(70_reset_and_hazards.md R300, 46_pipeline_engine.md R217, 10_state.md R29) -/
def Obligations.PipelineInvariantKept : Prop :=
  ∀ s t : State, PipeInv s → clock s = .next t → t.stopped = false → PipeInv t

/-- O45. For every state whose memories are in canonical form and whose data memory lists no address outside the array,
every step and every clock cycle that gives a next state keeps this: no store, of any width, reaches past the
array, and equal memories stay equal data. (10_state.md R30, 10_state.md R31, 20_memory.md R67) -/
def Obligations.DataInvariantKept : Prop :=
  (∀ s t : State, DataInv s → step s = .next t → DataInv t) ∧ (∀ s t : State, DataInv s → clock s = .next t → DataInv t)

/-- O46. For both levels: if the log's masks are among the possible ones (R261 item 2 for a clock cycle; for a sequential
step the one instruction's bits together, log 5), its cycles strictly rise, no entry of a running machine is
fatal or of a cycle not yet completed, and that of a stopped machine ends in one fatal entry of the current
cycle, then every step or clock cycle that gives a next state keeps this. (60_exceptions.md R261,
60_exceptions.md R265, 60_exceptions.md R256, 10_state.md R39) -/
def Obligations.FaultLogInvariantKept : Prop :=
  (∀ s t : State, LogInv pipelineMasks s → clock s = .next t → LogInv pipelineMasks t) ∧
    (∀ s t : State, LogInv sequentialMasks s → step s = .next t → LogInv sequentialMasks t)

/-- O47. The data, latch, pipeline and fault-log invariants hold in State.reset and in the state after the reset sequence
for all boot inputs that meet the boot requirements. The zeros and the boot inputs of State.reset are choices
(log 2, log 3). (10_state.md R45, 70_reset_and_hazards.md R281, 10_state.md R37) -/
def Obligations.InvariantsHoldAtReset : Prop :=
  (DataInv State.reset ∧ LatchInv State.reset.par.opc State.reset.pipe ∧ PipeInv State.reset ∧ LogInv pipelineMasks State.reset ∧
      LogInv sequentialMasks State.reset) ∧
    (∀ (c : Build) (b : BootInputs), b.wellFormed c = true →
      DataInv (resetWith c b) ∧ LatchInv (resetWith c b).par.opc (resetWith c b).pipe ∧ PipeInv (resetWith c b) ∧
      LogInv pipelineMasks (resetWith c b) ∧ LogInv sequentialMasks (resetWith c b))

/-- O48. For every state that meets the pipeline invariant and every clock cycle that completes: with every instruction
in flight completed, oldest first, the state after the cycle is the same as that before it (registers, HI, LO,
lock, memories, fault counts, status, pc), or it is what executing the one instruction at its pc sequentially
makes of it. (46_pipeline_engine.md R226, 00_scope.md R9) -/
def Obligations.ClockRefinesSequentialExecution : Prop :=
  ∀ s t : State, PipeInv s → clock s = .next t → t.stopped = false →
    SameArch (drain t) (drain s) ∨
      ((drain s).stopped = false ∧ ∃ u, fetchThen exec (drain s) = .next u ∧ SameArch (drain t) u)

/-- O49. For all boot inputs, every numbering without repeated numbers and every bound: if the pipeline run from the
reset state ends Halted, then some number of instructions executed one at a time from the same reset state gives
a state with the same registers, HI, LO, lock, memories, number of occurrences of each fault, status and pc.
(46_pipeline_engine.md R226, 00_scope.md R9, 46_pipeline_engine.md R223) -/
def Obligations.HaltedRunIsASequentialRun : Prop :=
  ∀ (c : Build) (b : BootInputs) (n : Nat) (u : State), c.opc.distinct = true →
    runPipeline n (resetWith c b) = .halted u →
    ∃ k t, sequentialSteps k (resetWith c b) = .next t ∧ t.stopped = false ∧ SameArch u t

/-- O50. For all boot inputs: if the pipeline run from the reset state ends FaultStopped, some number of sequential
instructions from the same reset state ends in a fatal fault. And in every state that meets the pipeline
invariant: a cycle with a fatal fault in MEM gives the very state (registers, HI, LO, lock, memories, fault
counts) that completing the instructions in flight gives; a cycle that stops at an illegal word in ID stops
where completing them stops too. (46_pipeline_engine.md R226, 60_exceptions.md R263) -/
def Obligations.FaultStoppedRunIsASequentialStop : Prop :=
  (∀ (c : Build) (b : BootInputs) (n : Nat) (u : State), runPipeline n (resetWith c b) = .faultStopped u →
      ∃ k t, sequentialSteps k (resetWith c b) = .next t ∧ t.stopped = true) ∧
    (∀ s t : State, PipeInv s → clock s = .next t → t.stopped = true →
      (drain s).stopped = true ∧ ((memMask s.pipe.exmem s.par).isFatal = true → SameArch t (drain s)))

/-- O51. The literal claim of R263 and R226 that a stop at an illegal word leaves the data memory of the sequential
execution. Under the abort table of R222, which the model follows, it does not hold: a store that is in EX when
an illegal word is in ID never reaches MEM (log 10). (60_exceptions.md R263, 46_pipeline_engine.md R226,
46_pipeline_engine.md R222) -/
def Obligations.IllegalStopHasSequentialMemory : Prop :=
  ∀ s t : State, PipeInv s → clock s = .next t → t.stopped = true → t.dmem = (drain s).dmem

/-- O52. The counter is 0 in the reset state; for every step and every clock cycle that gives a next state, the counter
is one more if the machine is not stopped afterwards and unchanged if a fatal fault stopped it. The run loop
compares it with MAX_CYCLES: a machine that is neither stopped nor halted takes a cycle only while they differ.
No instruction reads it: executing an instruction from a state with another count logs the same masks, each
under that count, moves the count by as much, and is otherwise the same. R40 and R223 count cycles of the
pipeline; that a sequential step advances the counter in the same way, and what cycle its log entries carry, is
the model's choice (log 5). (10_state.md R40, 46_pipeline_engine.md R223) -/
def Obligations.OnlyCompletedStepsCount : Prop :=
  State.reset.cycle = 0 ∧
    (∀ s t, step s = .next t → t.cycle = if t.stopped then s.cycle else s.cycle + 1) ∧
    (∀ s t, clock s = .next t → t.cycle = if t.stopped then s.cycle else s.cycle + 1) ∧
    (∀ s : State, s.stopped = false → (pipeStatus s = .capped ↔ pipeHalted s = false ∧ s.cycle = s.par.maxCycles)) ∧
    (∀ (i : Instr) (s t : State) (n : Nat), exec i s = .next t → ∃ (u : State) (fms : List FaultMask),
      exec i { s with cycle := n } = .next u ∧ t.faultLog = s.faultLog ++ fms.map (fun fm => (s.cycle, fm)) ∧
      u.faultLog = s.faultLog ++ fms.map (fun fm => (n, fm)) ∧ u.cycle + s.cycle = t.cycle + n ∧
      { u with cycle := t.cycle, faultLog := t.faultLog } = t)

/-- O53. At both levels the status of a state is FaultStopped if a fatal fault was raised, else Halted if the halt
condition holds, else Capped if the counter has reached MAX_CYCLES, else Running; no step is taken from the
first three. A run returns Halted, FaultStopped or Capped with the first state at which that test holds, and
each state before it was stepped. The order of the tests is the spec's decision D30 (log 12). R223 speaks of the
pipeline's loop: that the sequential level is tested in the same way with its own count of steps (log 5) and its
own halt condition (log 20), the names a machine at its end answers (log 6), and the bound on the loop (log 21)
are the model's. (46_pipeline_engine.md R223, 10_state.md R41, 60_exceptions.md R256, 92_eei_decisions.md D30) -/
def Obligations.EndOfRunTests : Prop :=
  (∀ s : State, pipeStatus s = if s.stopped = true then .faultStopped else if pipeHalted s = true then .halted
      else if s.cycle = s.par.maxCycles then .capped else .running) ∧
    (∀ s : State, seqStatus s = if s.stopped = true then .faultStopped else if seqHalted s = true then .halted
      else if s.cycle = s.par.maxCycles then .capped else .running) ∧
    (∀ s : State, (pipeStatus s = .faultStopped → clock s = .fault .faultStopped) ∧
      (pipeStatus s = .halted → clock s = .fault .halted) ∧ (pipeStatus s = .capped → clock s = .fault .capped)) ∧
    (∀ s : State, (seqStatus s = .faultStopped → step s = .fault .faultStopped) ∧
      (seqStatus s = .halted → step s = .fault .halted) ∧ (seqStatus s = .capped → step s = .fault .capped)) ∧
    (∀ (n : Nat) (s : State), (pipeStatus s = .halted → runPipeline (n + 1) s = .halted s) ∧
      (pipeStatus s = .faultStopped → runPipeline (n + 1) s = .faultStopped s) ∧
      (pipeStatus s = .capped → runPipeline (n + 1) s = .capped s)) ∧
    (∀ (n : Nat) (s u : State), (runPipeline n s = .halted u → pipeStatus u = .halted) ∧
      (runPipeline n s = .faultStopped u → pipeStatus u = .faultStopped) ∧
      (runPipeline n s = .capped u → pipeStatus u = .capped)) ∧
    (∀ (n : Nat) (s t : State), pipeStatus s = .running → clock s = .next t →
      runPipeline (n + 1) s = runPipeline n t)

/-- O54. For every numbering without repeated numbers and every state that meets the latch invariant, is not stopped and
meets the halt condition (HALT in IF and in all four latches): the stall condition is false, the word in ID is
HALT (or, if the numbering gives HALT the opcode 0, the all-zero word, which is NOP) and resolves to no
transfer, and completing the instructions in flight changes neither registers, HI, LO, lock, memories, fault
counts nor pc. So every instruction before the first HALT has completed. (45_system_halt_nop.md R202) -/
def Obligations.HaltedPipelineIsDrained : Prop :=
  ∀ s : State, s.par.opc.distinct = true → LatchInv s.par.opc s.pipe → s.stopped = false → pipeHalted s = true →
    stallOf s.par.opc s.pipe = false ∧
      (∃ i, decodeWord s.par.opc s.pipe.ifid.instr = .ok i ∧
        (i = .halt ∨ s.par.opc.op.halt = 0x00#6 ∧ s.pipe.ifid.instr = 0x00000000#32) ∧
        ∀ p v, resolve i p v = none) ∧
      SameArch s (drain s)

/-- O55. For every clock cycle that gives a next state the log is the old one, followed, exactly if the cycle's mask is
not empty, by the one pair of the cycle number and that mask; the mask is the one the step outputs name. A
sequential step appends at most one entry likewise, numbered with its count of steps: that one instruction's
faults stand in one entry of that number is the model's choice (log 5; in the pipeline R261 item 3 puts them in
different entries). The bits of faults_seen are never cleared. (10_state.md R39, 46_pipeline_engine.md R222,
60_exceptions.md R265, 60_exceptions.md R259) -/
def Obligations.FaultLogOnlyGrows : Prop :=
  (∀ s t, clock s = .next t → t.faultLog = s.faultLog ++
      (if (cycleTrace s).fm = 0x00#6 then [] else [(s.cycle, (cycleTrace s).fm)])) ∧
    (∀ s t, step s = .next t → t.faultLog = s.faultLog ∨ ∃ fm, fm ≠ 0x00#6 ∧ t.faultLog = s.faultLog ++ [(s.cycle, fm)]) ∧
    (∀ s t, clock s = .next t → t.faultsSeen = s.faultsSeen ||| (cycleTrace s).fm)

/-- O56. For every clock cycle that completes: the trace names pc, the word at pc and the words of the four latches, each
with its mnemonic; it reports stall exactly when the stall condition holds, and flush exactly when the
instruction in ID does not stall and resolves to a target, and then IF/ID is zeroed; it reports the register,
value and changed flag of WB's write exactly when WB makes one; it reports a HI/LO change exactly when HI or LO
differ after the cycle; its EX operand sources name the value EX works on; its ID flags are set exactly when
BEQ, BNE, BGTZ or JR is in ID without a stall, really reads the operand, and EX/MEM writes that non-zero
register, and then the operand's value is EX/MEM's. That an illegal word has no mnemonic is the model's choice
(log 18). (46_pipeline_engine.md R224, 46_pipeline_engine.md R212, 10_state.md R38) -/
def Obligations.TraceShowsTheCycle : Prop :=
  ∀ s t, clock s = .next t → t.stopped = false →
    let c := cycleTrace s
    let m := s.pipe.memwb
    let e := s.pipe.exmem
    let w := s.pipe.ifid.instr
    let readsCtl : Prop := c.stall = false ∧ ∃ i, decodeWord s.par.opc w = .ok i ∧ i.isCtlReg = true
    c.pc = s.pc ∧ c.idStage.word = s.pipe.ifid.instr ∧ c.exStage.word = s.pipe.idex.instr ∧
      c.memStage.word = s.pipe.exmem.instr ∧ c.wbStage.word = m.instr ∧
      (∃ f v, fetch s s.pc = .word f ∧ c.ifStage = some v ∧ v.word = f ∧
        ∀ u ∈ [v, c.idStage, c.exStage, c.memStage, c.wbStage],
          (∀ i, decodeWord s.par.opc u.word = .ok i → u.mnemonic = some i.mnemonic) ∧
          (legalWord s.par.opc u.word = false → u.mnemonic = none)) ∧
      (c.stall = true ↔ stallCond s.par.opc s.pipe.ifid.instr s.pipe.idex s.pipe.exmem = true) ∧
      (c.flush = true ↔ c.stall = false ∧ ∃ i target, decodeWord s.par.opc s.pipe.ifid.instr = .ok i ∧
        resolve i s.pipe.ifid.pcNext (idVal s.pipe t) = some target) ∧
      (c.flush = true → t.pipe.ifid = IfId.zero) ∧
      (c.flush = false → c.stall = false → t.pc = s.pc + 4#32) ∧
      c.regWrite = (if m.regWrite = true ∧ m.writeDest ≠ 0#5 then
        some ⟨m.writeDest, m.rtData, s.reg m.writeDest != m.rtData⟩ else none) ∧
      (c.regWrite = none → ∀ r, t.reg r = s.reg r) ∧
      (c.hiLoChanged = true ↔ (t.hi ≠ s.hi ∨ t.lo ≠ s.lo)) ∧
      c.exRs.1 = rsOf s.pipe.idex.instr ∧ c.exRt.1 = rtOf s.pipe.idex.instr ∧
      exOperandA s.par.opc s.pipe = (match c.exRs.2 with
        | .exmem => s.pipe.exmem.aluResult
        | .memwb => m.rtData
        | .latched => s.pipe.idex.rsData) ∧
      t.pipe.exmem.rtData = (match c.exRt.2 with
        | .exmem => s.pipe.exmem.aluResult
        | .memwb => m.rtData
        | .latched => s.pipe.idex.rtData) ∧
      (c.idRsForwarded = true ↔ readsCtl ∧ (controlOf s.par.opc w).hasRs = true ∧ e.regWrite = true ∧
        e.writeDest = rsOf w ∧ rsOf w ≠ 0#5) ∧
      (c.idRtForwarded = true ↔ readsCtl ∧ (controlOf s.par.opc w).hasRt = true ∧ e.regWrite = true ∧
        e.writeDest = rtOf w ∧ rtOf w ≠ 0#5) ∧
      (c.idRsForwarded = true → idVal s.pipe t (rsOf w) = e.aluResult) ∧
      (c.idRtForwarded = true → idVal s.pipe t (rtOf w) = e.aluResult)

/-- O57. The default numbering gives every instruction the primary opcode R97 prints for it and every R-format
instruction the funct R98 prints for it (the spec's own numbers from general knowledge: log 1), no two primary
opcodes and no two functs are the same, and State.reset carries it. (00_scope.md R6, 30_encoding.md R97,
30_encoding.md R98, 92_eei_decisions.md D1) -/
def Obligations.DefaultNumbering : Prop :=
  Opc.default.op = {
      rtype := 0x00#6, j := 0x02#6, jal := 0x03#6, beq := 0x04#6, bne := 0x05#6, bgtz := 0x07#6, addi := 0x08#6,
      addiu := 0x09#6, slti := 0x0A#6, andi := 0x0C#6, ori := 0x0D#6, nori := 0x0E#6, lui := 0x0F#6, lb := 0x20#6,
      lh := 0x21#6, lw := 0x23#6, lbu := 0x24#6, lhu := 0x25#6, sb := 0x28#6, sh := 0x29#6, sw := 0x2B#6,
      halt := 0x3F#6 } ∧
    Opc.default.fn = {
      sll := 0x00#6, srl := 0x02#6, sra := 0x03#6, jr := 0x08#6, mfhi := 0x10#6, mflo := 0x12#6, mult := 0x18#6,
      multu := 0x19#6, add := 0x20#6, addu := 0x21#6, sub := 0x22#6, and := 0x24#6, or := 0x25#6, xor := 0x26#6,
      nor := 0x27#6, nand := 0x28#6, slt := 0x2A#6 } ∧
    Opc.default.distinct = true ∧ State.reset.par.opc = Opc.default

end
end

