-- ==== Sys2Proof/Laws/Decode.lean ====
section
/-! SUPPORT. What a decoded word says about its instruction: every operand is the field of the word that the
format gives it (spec/30_encoding.md R91 to R95). -/

namespace Sys2Proof

/-- The instruction of the same mnemonic with its operands taken from the fields of a word. -/
def Instr.refill (w : Word) : Instr → Instr
  | .nop => .nop
  | .add _ _ _ => .add (rdOf w) (rsOf w) (rtOf w)
  | .addu _ _ _ => .addu (rdOf w) (rsOf w) (rtOf w)
  | .sub _ _ _ => .sub (rdOf w) (rsOf w) (rtOf w)
  | .and _ _ _ => .and (rdOf w) (rsOf w) (rtOf w)
  | .or _ _ _ => .or (rdOf w) (rsOf w) (rtOf w)
  | .xor _ _ _ => .xor (rdOf w) (rsOf w) (rtOf w)
  | .nor _ _ _ => .nor (rdOf w) (rsOf w) (rtOf w)
  | .nand _ _ _ => .nand (rdOf w) (rsOf w) (rtOf w)
  | .slt _ _ _ => .slt (rdOf w) (rsOf w) (rtOf w)
  | .sll _ _ _ => .sll (rdOf w) (rtOf w) (shamtOf w)
  | .srl _ _ _ => .srl (rdOf w) (rtOf w) (shamtOf w)
  | .sra _ _ _ => .sra (rdOf w) (rtOf w) (shamtOf w)
  | .mult _ _ => .mult (rsOf w) (rtOf w)
  | .multu _ _ => .multu (rsOf w) (rtOf w)
  | .mfhi _ => .mfhi (rdOf w)
  | .mflo _ => .mflo (rdOf w)
  | .jr _ => .jr (rsOf w)
  | .addi _ _ _ => .addi (rtOf w) (rsOf w) (c16Of w)
  | .addiu _ _ _ => .addiu (rtOf w) (rsOf w) (c16Of w)
  | .lui _ _ => .lui (rtOf w) (c16Of w)
  | .andi _ _ _ => .andi (rtOf w) (rsOf w) (c16Of w)
  | .ori _ _ _ => .ori (rtOf w) (rsOf w) (c16Of w)
  | .nori _ _ _ => .nori (rtOf w) (rsOf w) (c16Of w)
  | .slti _ _ _ => .slti (rtOf w) (rsOf w) (c16Of w)
  | .lw _ _ _ => .lw (rtOf w) (rsOf w) (c16Of w)
  | .lh _ _ _ => .lh (rtOf w) (rsOf w) (c16Of w)
  | .lhu _ _ _ => .lhu (rtOf w) (rsOf w) (c16Of w)
  | .lb _ _ _ => .lb (rtOf w) (rsOf w) (c16Of w)
  | .lbu _ _ _ => .lbu (rtOf w) (rsOf w) (c16Of w)
  | .sw _ _ _ => .sw (rtOf w) (rsOf w) (c16Of w)
  | .sh _ _ _ => .sh (rtOf w) (rsOf w) (c16Of w)
  | .sb _ _ _ => .sb (rtOf w) (rsOf w) (c16Of w)
  | .beq _ _ _ => .beq (rsOf w) (rtOf w) (c16Of w)
  | .bne _ _ _ => .bne (rsOf w) (rtOf w) (c16Of w)
  | .bgtz _ _ => .bgtz (rsOf w) (c16Of w)
  | .j _ => .j (c26Of w)
  | .jal _ => .jal (c26Of w)
  | .halt => .halt

theorem mem_of_lookupRow {c : Opcode} {rows : List OpcodeRow} {build : Word → Instr}
    (h : lookupRow c rows = some build) : (c, build) ∈ rows := by
  induction rows with
  | nil => simp [lookupRow] at h
  | cons r t ih =>
    simp only [lookupRow] at h
    split at h
    · next hc => cases h; subst hc; exact List.mem_cons_self
    · exact List.mem_cons_of_mem _ (ih h)

/-- In a numbering without repeats no two rows of a table share a number, so decoding is unambiguous. -/
theorem rows_distinct {o : Opc} (h : o.distinct = true) :
    ((functRows o.fn).map Prod.fst).Nodup ∧ ((opcodeRows o.op).map Prod.fst).Nodup ∧
      o.op.rtype ∉ (opcodeRows o.op).map Prod.fst := by
  obtain ⟨hp, hf⟩ := of_decide_eq_true h
  obtain ⟨hr, hp⟩ := List.nodup_cons.1 hp
  exact ⟨hf, hp, hr⟩

/-- The numbers of R97 and R98 are without repeats. -/
theorem default_distinct : Opc.default.distinct = true := by decide

theorem lookupRow_of_mem {c : Opcode} {rows : List OpcodeRow} {build : Word → Instr}
    (hd : (rows.map Prod.fst).Nodup) (h : (c, build) ∈ rows) : lookupRow c rows = some build := by
  induction rows with
  | nil => cases h
  | cons r t ih =>
    obtain ⟨hr, hd⟩ := List.nodup_cons.1 hd
    rcases List.mem_cons.1 h with rfl | h
    · simp [lookupRow]
    · have : c ≠ r.1 := by
        rintro rfl
        exact hr (List.mem_map.2 ⟨_, h, rfl⟩)
      simp [lookupRow, this, ih hd h]

/-- A word with a row's funct is that row's instruction (R96, R98). -/
theorem decodeWord_of_funct {o : Opc} (hd : o.distinct = true) {w : Word} (hw : w ≠ 0#32)
    (ho : opcodeOf w = o.op.rtype) {build : Word → Instr} (h : (functOf w, build) ∈ functRows o.fn) :
    decodeWord o w = .ok (build w) := by
  simp [decodeWord, hw, ho, lookupRow_of_mem (rows_distinct hd).1 h]

/-- A word with a row's primary opcode is that row's instruction (R96, R97). -/
theorem decodeWord_of_opcode {o : Opc} (hd : o.distinct = true) {w : Word} (hw : w ≠ 0#32)
    {build : Word → Instr} (h : (opcodeOf w, build) ∈ opcodeRows o.op) : decodeWord o w = .ok (build w) := by
  have hr : opcodeOf w ≠ o.op.rtype := fun he =>
    (rows_distinct hd).2.2 (he ▸ List.mem_map.2 ⟨_, h, rfl⟩)
  simp [decodeWord, hw, hr, lookupRow_of_mem (rows_distinct hd).2.1 h]

/-- What a decoded word is: the NOP word, or a row of one of the two tables applied to it. -/
theorem decodeWord_cases {o : Opc} {w : Word} {i : Instr} (h : decodeWord o w = .ok i) :
    (w = 0#32 ∧ i = .nop) ∨
      (w ≠ 0#32 ∧ opcodeOf w = o.op.rtype ∧ ∃ r ∈ functRows o.fn, functOf w = r.1 ∧ i = r.2 w) ∨
      (w ≠ 0#32 ∧ opcodeOf w ≠ o.op.rtype ∧ ∃ r ∈ opcodeRows o.op, opcodeOf w = r.1 ∧ i = r.2 w) := by
  unfold decodeWord at h
  split at h
  · next hw => exact .inl ⟨hw, by cases h; rfl⟩
  · next hw =>
    split at h
    · next ho =>
      split at h
      · next b hb => exact .inr (.inl ⟨hw, ho, _, mem_of_lookupRow hb, rfl, by cases h; rfl⟩)
      · cases h
    · next ho =>
      split at h
      · next b hb => exact .inr (.inr ⟨hw, ho, _, mem_of_lookupRow hb, rfl, by cases h; rfl⟩)
      · cases h

/-- The operands of a decoded instruction are the fields of its word. -/
theorem refill_of_decodeWord {o : Opc} {w : Word} {i : Instr} (h : decodeWord o w = .ok i) : i.refill w = i := by
  have hf : ∀ r ∈ functRows o.fn, Instr.refill w (r.2 w) = r.2 w := by
    simp only [functRows, List.forall_mem_cons]; simp [Instr.refill]
  have ho : ∀ r ∈ opcodeRows o.op, Instr.refill w (r.2 w) = r.2 w := by
    simp only [opcodeRows, List.forall_mem_cons]; simp [Instr.refill]
  rcases decodeWord_cases h with ⟨-, rfl⟩ | ⟨-, -, r, hr, -, rfl⟩ | ⟨-, -, r, hr, -, rfl⟩
  · rfl
  · exact hf r hr
  · exact ho r hr

theorem control_of_decodeWord {o : Opc} {w : Word} {i : Instr} (h : decodeWord o w = .ok i) : controlOf o w = i.control := by
  simp [controlOf, h]

theorem controlOf_zero (o : Opc) : controlOf o 0#32 = Control.none := rfl

@[simp] theorem rsOf_zero : rsOf 0#32 = 0#5 := rfl

@[simp] theorem rtOf_zero : rtOf 0#32 = 0#5 := rfl

theorem decodeWord_zero (o : Opc) : decodeWord o 0#32 = .ok .nop := rfl

end Sys2Proof
end

