-- ==== Sys2Proof/Laws/Memory.lean ====
section
/-! SUPPORT. The laws of the sparse memory: a read after a write, and that every memory operation keeps the
canonical form. -/

namespace Sys2Proof.Machine

theorem Memory.wf_cons {n : Nat} (k : Nat) (v : BitVec n) (t : Memory n) :
    Memory.wf ((k, v) :: t) = true ↔
      v ≠ Memory.unlisted n ∧ (∀ c ∈ t, k < c.1) ∧ Memory.wf t = true := by
  simp [Memory.wf, and_assoc]

/-- An address below every listed one is unlisted. -/
theorem Memory.read_below {n : Nat} (t : Memory n) (a : Nat) (h : ∀ c ∈ t, a < c.1) :
    Memory.read t a = Memory.unlisted n := by
  induction t with
  | nil => rfl
  | cons c t ih =>
    obtain ⟨k, v⟩ := c
    have hk : a < k := h (k, v) (by simp)
    simp only [Memory.read, if_neg (Nat.ne_of_gt hk)]
    exact ih fun c hc => h c (by simp [hc])

theorem Memory.read_cons_same {n : Nat} (a : Nat) (v : BitVec n) (t : Memory n) (h : ∀ c ∈ t, a < c.1) :
    Memory.read (Memory.cons a v t) a = v := by
  unfold Memory.cons
  split
  · next hv => rw [Memory.read_below t a h, hv]
  · simp [Memory.read]

theorem Memory.read_cons_other {n : Nat} {a b : Nat} (v : BitVec n) (t : Memory n) (h : b ≠ a) :
    Memory.read (Memory.cons a v t) b = Memory.read t b := by
  unfold Memory.cons
  split
  · rfl
  · simp [Memory.read, Ne.symm h]

/-- A read after a write to the same address gives the value written. -/
theorem Memory.read_write_same {n : Nat} (m : Memory n) (hm : m.wf = true) (a : Nat) (v : BitVec n) :
    (m.write a v).read a = v := by
  induction m with
  | nil => exact Memory.read_cons_same a v [] (by simp)
  | cons c t ih =>
    obtain ⟨k, u⟩ := c
    obtain ⟨-, hlt, ht⟩ := (Memory.wf_cons k u t).1 hm
    simp only [Memory.write]
    split
    · next h =>
      refine Memory.read_cons_same a v _ fun c hc => ?_
      rcases List.mem_cons.1 hc with rfl | hc
      · exact h
      · exact h.trans (hlt c hc)
    · split
      · next h => subst h; exact Memory.read_cons_same a v t hlt
      · next h => simp only [Memory.read, if_neg (Ne.symm h)]; exact ih ht

/-- A write leaves every other address alone. -/
theorem Memory.read_write_other {n : Nat} (m : Memory n) {a b : Nat} (v : BitVec n) (h : b ≠ a) :
    (m.write a v).read b = m.read b := by
  induction m with
  | nil => exact Memory.read_cons_other v [] h
  | cons c t ih =>
    obtain ⟨k, u⟩ := c
    simp only [Memory.write]
    split
    · exact Memory.read_cons_other v _ h
    · split
      · next hk => subst hk; rw [Memory.read_cons_other v t h]; simp [Memory.read, Ne.symm h]
      · simp only [Memory.read]; rw [ih]

theorem Memory.read_write {n : Nat} (m : Memory n) (hm : m.wf = true) (a b : Nat) (v : BitVec n) :
    (m.write a v).read b = if b = a then v else m.read b := by
  split
  · next h => subst h; exact m.read_write_same hm b v
  · next h => exact m.read_write_other v h

/-- The listed addresses of a written memory are old ones or the written one. -/
theorem Memory.mem_write {n : Nat} (m : Memory n) (a : Nat) (v : BitVec n) {c : Nat × BitVec n}
    (h : c ∈ m.write a v) : c ∈ m ∨ c = (a, v) := by
  induction m with
  | nil =>
    unfold Memory.write Memory.cons at h
    split at h <;> simp_all
  | cons d t ih =>
    obtain ⟨k, u⟩ := d
    simp only [Memory.write, Memory.cons] at h
    split at h
    · split at h <;> simp_all
      tauto
    · split at h
      · split at h <;> simp_all
        tauto
      · rcases List.mem_cons.1 h with rfl | h
        · simp
        · rcases ih h with h | h <;> simp [h]

/-- A write keeps the canonical form. -/
theorem Memory.wf_write {n : Nat} (m : Memory n) (hm : m.wf = true) (a : Nat) (v : BitVec n) :
    (m.write a v).wf = true := by
  induction m with
  | nil =>
    unfold Memory.write Memory.cons
    split
    · rfl
    · next h => simp [Memory.wf, h]
  | cons c t ih =>
    obtain ⟨k, u⟩ := c
    obtain ⟨hu, hlt, ht⟩ := (Memory.wf_cons k u t).1 hm
    simp only [Memory.write, Memory.cons]
    split
    · next h =>
      split
      · exact hm
      · next hv =>
        refine (Memory.wf_cons _ _ _).2 ⟨hv, fun c hc => ?_, hm⟩
        rcases List.mem_cons.1 hc with rfl | hc
        · exact h
        · exact h.trans (hlt c hc)
    · next hnlt =>
      split
      · next h =>
        subst h
        split
        · exact ht
        · next hv => exact (Memory.wf_cons _ _ _).2 ⟨hv, hlt, ht⟩
      · next hne =>
        refine (Memory.wf_cons _ _ _).2 ⟨hu, fun c hc => ?_, ih ht⟩
        rcases Memory.mem_write t a v hc with hc | rfl
        · exact hlt c hc
        · show k < a
          omega

theorem Memory.wf_writeAll {n : Nat} (vs : List (BitVec n)) (m : Memory n) (hm : m.wf = true) (a : Nat) :
    (m.writeAll a vs).wf = true := by
  induction vs generalizing m a with
  | nil => exact hm
  | cons v vs ih => exact ih _ (m.wf_write hm a v) _

/-- Image loading: cell `a + i` reads as item `i`, every other cell as before (R281). -/
theorem Memory.read_writeAll {n : Nat} (vs : List (BitVec n)) (m : Memory n) (hm : m.wf = true) (a b : Nat) :
    (m.writeAll a vs).read b =
      if h : a ≤ b ∧ b - a < vs.length then vs[b - a]'h.2 else m.read b := by
  induction vs generalizing m a with
  | nil => simp [Memory.writeAll]
  | cons v vs ih =>
    rw [Memory.writeAll, ih _ (m.wf_write hm a v), Memory.read_write m hm]
    by_cases hb : b = a
    · subst hb
      simp
    · rcases Nat.lt_or_gt_of_ne hb with h | h
      · rw [dif_neg (by omega), dif_neg (by omega), if_neg hb]
      · obtain ⟨d, rfl⟩ : ∃ d, b = a + 1 + d := ⟨b - a - 1, by omega⟩
        have e1 : a + 1 + d - (a + 1) = d := by omega
        have e2 : a + 1 + d - a = d + 1 := by omega
        simp only [e1, e2]
        by_cases hd : d < vs.length
        · rw [dif_pos ⟨by omega, hd⟩, dif_pos ⟨by omega, by simpa using hd⟩]
          simp
        · rw [dif_neg (by omega), dif_neg (by simp; omega), if_neg hb]

/-- Both memories of the reset state are in canonical form. -/
theorem reset_memory_wf : State.reset.imem.wf = true ∧ State.reset.dmem.wf = true := ⟨rfl, rfl⟩

/-! ## Stores -/

/-- A store keeps the canonical form. -/
theorem wf_storeValue (m : Memory 8) (hm : m.wf = true) (a : Nat) (n : Width) (v : Word) :
    (storeValue m a n v).wf = true := by
  cases n
  · exact m.wf_write hm _ _
  · exact Memory.wf_write _ (m.wf_write hm _ _) _ _
  · exact Memory.wf_write _ (Memory.wf_write _ (Memory.wf_write _ (m.wf_write hm _ _) _ _) _ _) _ _

/-- A store changes only its own bytes (R64). -/
theorem read_storeValue_other (m : Memory 8) (a : Nat) (n : Width) (v : Word) (b : Nat)
    (h : b < a ∨ a + n.bytes ≤ b) : (storeValue m a n v).read b = m.read b := by
  cases n <;> simp only [Width.bytes] at h <;>
    simp only [storeValue, memWrite1, memWrite2, memWrite4]
  · rw [Memory.read_write_other _ _ (by omega)]
  · rw [Memory.read_write_other _ _ (by omega), Memory.read_write_other _ _ (by omega)]
  · rw [Memory.read_write_other _ _ (by omega), Memory.read_write_other _ _ (by omega),
      Memory.read_write_other _ _ (by omega), Memory.read_write_other _ _ (by omega)]

/-- The bytes of a word store (R64, R176). -/
theorem read_storeValue_word (m : Memory 8) (hm : m.wf = true) (a : Nat) (v : Word) :
    (storeValue m a .word v).read a = v.extractLsb' 24 8 ∧
      (storeValue m a .word v).read (a + 1) = v.extractLsb' 16 8 ∧
      (storeValue m a .word v).read (a + 2) = v.extractLsb' 8 8 ∧
      (storeValue m a .word v).read (a + 3) = v.extractLsb' 0 8 := by
  have h0 := m.wf_write hm a (v.extractLsb' 24 8)
  have h1 := Memory.wf_write _ h0 (a + 1) (v.extractLsb' 16 8)
  have h2 := Memory.wf_write _ h1 (a + 2) (v.extractLsb' 8 8)
  simp only [storeValue, memWrite4, Memory.read_write _ h2, Memory.read_write _ h1, Memory.read_write _ h0,
    Memory.read_write _ hm]
  simp

/-- The bytes of a halfword store (R64, R177). -/
theorem read_storeValue_half (m : Memory 8) (hm : m.wf = true) (a : Nat) (v : Word) :
    (storeValue m a .half v).read a = v.extractLsb' 8 8 ∧
      (storeValue m a .half v).read (a + 1) = v.extractLsb' 0 8 := by
  have h0 := m.wf_write hm a ((v.extractLsb' 0 16).extractLsb' 8 8)
  simp only [storeValue, memWrite2, Memory.read_write _ h0, Memory.read_write _ hm]
  refine ⟨?_, ?_⟩ <;> simp

/-- The byte of a byte store (R64, R178). -/
theorem read_storeValue_byte (m : Memory 8) (hm : m.wf = true) (a : Nat) (v : Word) :
    (storeValue m a .byte v).read a = v.extractLsb' 0 8 := m.read_write_same hm a _

/-- The addresses a store lists are in the bytes it stores to (used for bounds). -/
theorem mem_storeValue (m : Memory 8) (a : Nat) (n : Width) (v : Word) {c : Nat × BitVec 8}
    (h : c ∈ storeValue m a n v) : c ∈ m ∨ (a ≤ c.1 ∧ c.1 < a + n.bytes) := by
  have step (m : Memory 8) (b : Nat) (u : BitVec 8) (hb : a ≤ b ∧ b < a + n.bytes)
      (h : c ∈ m.write b u) : c ∈ m ∨ (a ≤ c.1 ∧ c.1 < a + n.bytes) := by
    rcases Memory.mem_write m b u h with h | rfl
    · exact .inl h
    · exact .inr hb
  cases n <;> simp only [Width.bytes] at step ⊢ <;>
    simp only [storeValue, memWrite1, memWrite2, memWrite4] at h
  · exact step _ _ _ (by omega) h
  · exact (step _ _ _ (by omega) h).elim (step _ _ _ (by omega)) .inr
  · exact (step _ _ _ (by omega) h).elim (fun h => (step _ _ _ (by omega) h).elim
      (fun h => (step _ _ _ (by omega) h).elim (step _ _ _ (by omega)) .inr) .inr) .inr

end Sys2Proof.Machine
end

