-- ==== Sys2Proof/Laws/State.lean ====
section
/-! SUPPORT. What each named update of the state leaves alone and what it sets, field by field, so that no later
proof unfolds a record update. -/

namespace Sys2Proof.Machine

@[simp] theorem State.setReg_hi (s : State) (i : RegIdx) (v : Word) : (s.setReg i v).hi = s.hi := by unfold State.setReg; split <;> rfl
@[simp] theorem State.setReg_lo (s : State) (i : RegIdx) (v : Word) : (s.setReg i v).lo = s.lo := by unfold State.setReg; split <;> rfl
@[simp] theorem State.setReg_lock (s : State) (i : RegIdx) (v : Word) : (s.setReg i v).lock = s.lock := by unfold State.setReg; split <;> rfl
@[simp] theorem State.setReg_pc (s : State) (i : RegIdx) (v : Word) : (s.setReg i v).pc = s.pc := by unfold State.setReg; split <;> rfl
@[simp] theorem State.setReg_imem (s : State) (i : RegIdx) (v : Word) : (s.setReg i v).imem = s.imem := by unfold State.setReg; split <;> rfl
@[simp] theorem State.setReg_dmem (s : State) (i : RegIdx) (v : Word) : (s.setReg i v).dmem = s.dmem := by unfold State.setReg; split <;> rfl
@[simp] theorem State.setReg_pipe (s : State) (i : RegIdx) (v : Word) : (s.setReg i v).pipe = s.pipe := by unfold State.setReg; split <;> rfl
@[simp] theorem State.setReg_faultLog (s : State) (i : RegIdx) (v : Word) : (s.setReg i v).faultLog = s.faultLog := by unfold State.setReg; split <;> rfl
@[simp] theorem State.setReg_cycle (s : State) (i : RegIdx) (v : Word) : (s.setReg i v).cycle = s.cycle := by unfold State.setReg; split <;> rfl
@[simp] theorem State.setReg_stopped (s : State) (i : RegIdx) (v : Word) : (s.setReg i v).stopped = s.stopped := by unfold State.setReg; split <;> rfl
@[simp] theorem State.setReg_par (s : State) (i : RegIdx) (v : Word) : (s.setReg i v).par = s.par := by unfold State.setReg; split <;> rfl

@[simp] theorem State.writeHiLo_x (s : State) (hi lo : Word) : (s.writeHiLo hi lo).x = s.x := rfl
@[simp] theorem State.writeHiLo_pc (s : State) (hi lo : Word) : (s.writeHiLo hi lo).pc = s.pc := rfl
@[simp] theorem State.writeHiLo_imem (s : State) (hi lo : Word) : (s.writeHiLo hi lo).imem = s.imem := rfl
@[simp] theorem State.writeHiLo_dmem (s : State) (hi lo : Word) : (s.writeHiLo hi lo).dmem = s.dmem := rfl
@[simp] theorem State.writeHiLo_pipe (s : State) (hi lo : Word) : (s.writeHiLo hi lo).pipe = s.pipe := rfl
@[simp] theorem State.writeHiLo_faultLog (s : State) (hi lo : Word) : (s.writeHiLo hi lo).faultLog = s.faultLog := rfl
@[simp] theorem State.writeHiLo_cycle (s : State) (hi lo : Word) : (s.writeHiLo hi lo).cycle = s.cycle := rfl
@[simp] theorem State.writeHiLo_stopped (s : State) (hi lo : Word) : (s.writeHiLo hi lo).stopped = s.stopped := rfl
@[simp] theorem State.writeHiLo_par (s : State) (hi lo : Word) : (s.writeHiLo hi lo).par = s.par := rfl

@[simp] theorem State.unlock_x (s : State) : (s.unlock).x = s.x := rfl
@[simp] theorem State.unlock_hi (s : State) : (s.unlock).hi = s.hi := rfl
@[simp] theorem State.unlock_lo (s : State) : (s.unlock).lo = s.lo := rfl
@[simp] theorem State.unlock_pc (s : State) : (s.unlock).pc = s.pc := rfl
@[simp] theorem State.unlock_imem (s : State) : (s.unlock).imem = s.imem := rfl
@[simp] theorem State.unlock_dmem (s : State) : (s.unlock).dmem = s.dmem := rfl
@[simp] theorem State.unlock_pipe (s : State) : (s.unlock).pipe = s.pipe := rfl
@[simp] theorem State.unlock_faultLog (s : State) : (s.unlock).faultLog = s.faultLog := rfl
@[simp] theorem State.unlock_cycle (s : State) : (s.unlock).cycle = s.cycle := rfl
@[simp] theorem State.unlock_stopped (s : State) : (s.unlock).stopped = s.stopped := rfl
@[simp] theorem State.unlock_par (s : State) : (s.unlock).par = s.par := rfl

@[simp] theorem State.advance_x (s : State) : (s.advance).x = s.x := rfl
@[simp] theorem State.advance_hi (s : State) : (s.advance).hi = s.hi := rfl
@[simp] theorem State.advance_lo (s : State) : (s.advance).lo = s.lo := rfl
@[simp] theorem State.advance_lock (s : State) : (s.advance).lock = s.lock := rfl
@[simp] theorem State.advance_imem (s : State) : (s.advance).imem = s.imem := rfl
@[simp] theorem State.advance_dmem (s : State) : (s.advance).dmem = s.dmem := rfl
@[simp] theorem State.advance_pipe (s : State) : (s.advance).pipe = s.pipe := rfl
@[simp] theorem State.advance_faultLog (s : State) : (s.advance).faultLog = s.faultLog := rfl
@[simp] theorem State.advance_cycle (s : State) : (s.advance).cycle = s.cycle := rfl
@[simp] theorem State.advance_stopped (s : State) : (s.advance).stopped = s.stopped := rfl
@[simp] theorem State.advance_par (s : State) : (s.advance).par = s.par := rfl

@[simp] theorem State.logMask_x (s : State) (fm : FaultMask) : (s.logMask fm).x = s.x := rfl
@[simp] theorem State.logMask_hi (s : State) (fm : FaultMask) : (s.logMask fm).hi = s.hi := rfl
@[simp] theorem State.logMask_lo (s : State) (fm : FaultMask) : (s.logMask fm).lo = s.lo := rfl
@[simp] theorem State.logMask_lock (s : State) (fm : FaultMask) : (s.logMask fm).lock = s.lock := rfl
@[simp] theorem State.logMask_pc (s : State) (fm : FaultMask) : (s.logMask fm).pc = s.pc := rfl
@[simp] theorem State.logMask_imem (s : State) (fm : FaultMask) : (s.logMask fm).imem = s.imem := rfl
@[simp] theorem State.logMask_dmem (s : State) (fm : FaultMask) : (s.logMask fm).dmem = s.dmem := rfl
@[simp] theorem State.logMask_pipe (s : State) (fm : FaultMask) : (s.logMask fm).pipe = s.pipe := rfl
@[simp] theorem State.logMask_cycle (s : State) (fm : FaultMask) : (s.logMask fm).cycle = s.cycle := rfl
@[simp] theorem State.logMask_stopped (s : State) (fm : FaultMask) : (s.logMask fm).stopped = s.stopped := rfl
@[simp] theorem State.logMask_par (s : State) (fm : FaultMask) : (s.logMask fm).par = s.par := rfl

@[simp] theorem State.completeStep_x (s : State) (fm : FaultMask) : (s.completeStep fm).x = s.x := by simp [State.completeStep]
@[simp] theorem State.completeStep_hi (s : State) (fm : FaultMask) : (s.completeStep fm).hi = s.hi := by simp [State.completeStep]
@[simp] theorem State.completeStep_lo (s : State) (fm : FaultMask) : (s.completeStep fm).lo = s.lo := by simp [State.completeStep]
@[simp] theorem State.completeStep_lock (s : State) (fm : FaultMask) : (s.completeStep fm).lock = s.lock := by simp [State.completeStep]
@[simp] theorem State.completeStep_pc (s : State) (fm : FaultMask) : (s.completeStep fm).pc = s.pc := by simp [State.completeStep]
@[simp] theorem State.completeStep_imem (s : State) (fm : FaultMask) : (s.completeStep fm).imem = s.imem := by simp [State.completeStep]
@[simp] theorem State.completeStep_dmem (s : State) (fm : FaultMask) : (s.completeStep fm).dmem = s.dmem := by simp [State.completeStep]
@[simp] theorem State.completeStep_pipe (s : State) (fm : FaultMask) : (s.completeStep fm).pipe = s.pipe := by simp [State.completeStep]
@[simp] theorem State.completeStep_stopped (s : State) (fm : FaultMask) : (s.completeStep fm).stopped = s.stopped := by simp [State.completeStep]
@[simp] theorem State.completeStep_par (s : State) (fm : FaultMask) : (s.completeStep fm).par = s.par := by simp [State.completeStep]

@[simp] theorem State.faultStop_x (s : State) (fm : FaultMask) : (s.faultStop fm).x = s.x := by simp [State.faultStop]
@[simp] theorem State.faultStop_hi (s : State) (fm : FaultMask) : (s.faultStop fm).hi = s.hi := by simp [State.faultStop]
@[simp] theorem State.faultStop_lo (s : State) (fm : FaultMask) : (s.faultStop fm).lo = s.lo := by simp [State.faultStop]
@[simp] theorem State.faultStop_lock (s : State) (fm : FaultMask) : (s.faultStop fm).lock = s.lock := by simp [State.faultStop]
@[simp] theorem State.faultStop_pc (s : State) (fm : FaultMask) : (s.faultStop fm).pc = s.pc := by simp [State.faultStop]
@[simp] theorem State.faultStop_imem (s : State) (fm : FaultMask) : (s.faultStop fm).imem = s.imem := by simp [State.faultStop]
@[simp] theorem State.faultStop_dmem (s : State) (fm : FaultMask) : (s.faultStop fm).dmem = s.dmem := by simp [State.faultStop]
@[simp] theorem State.faultStop_pipe (s : State) (fm : FaultMask) : (s.faultStop fm).pipe = s.pipe := by simp [State.faultStop]
@[simp] theorem State.faultStop_cycle (s : State) (fm : FaultMask) : (s.faultStop fm).cycle = s.cycle := by simp [State.faultStop]
@[simp] theorem State.faultStop_par (s : State) (fm : FaultMask) : (s.faultStop fm).par = s.par := by simp [State.faultStop]

@[simp] theorem State.endStep_x (s : State) (fm : FaultMask) : (s.endStep fm).x = s.x := by unfold State.endStep; split <;> simp
@[simp] theorem State.endStep_hi (s : State) (fm : FaultMask) : (s.endStep fm).hi = s.hi := by unfold State.endStep; split <;> simp
@[simp] theorem State.endStep_lo (s : State) (fm : FaultMask) : (s.endStep fm).lo = s.lo := by unfold State.endStep; split <;> simp
@[simp] theorem State.endStep_lock (s : State) (fm : FaultMask) : (s.endStep fm).lock = s.lock := by unfold State.endStep; split <;> simp
@[simp] theorem State.endStep_pc (s : State) (fm : FaultMask) : (s.endStep fm).pc = s.pc := by unfold State.endStep; split <;> simp
@[simp] theorem State.endStep_imem (s : State) (fm : FaultMask) : (s.endStep fm).imem = s.imem := by unfold State.endStep; split <;> simp
@[simp] theorem State.endStep_dmem (s : State) (fm : FaultMask) : (s.endStep fm).dmem = s.dmem := by unfold State.endStep; split <;> simp
@[simp] theorem State.endStep_pipe (s : State) (fm : FaultMask) : (s.endStep fm).pipe = s.pipe := by unfold State.endStep; split <;> simp
@[simp] theorem State.endStep_par (s : State) (fm : FaultMask) : (s.endStep fm).par = s.par := by unfold State.endStep; split <;> simp

@[simp] theorem State.writeHiLo_hi (s : State) (hi lo : Word) : (s.writeHiLo hi lo).hi = hi := rfl
@[simp] theorem State.writeHiLo_lo (s : State) (hi lo : Word) : (s.writeHiLo hi lo).lo = lo := rfl
@[simp] theorem State.writeHiLo_lock (s : State) (hi lo : Word) : (s.writeHiLo hi lo).lock = true := rfl
@[simp] theorem State.unlock_lock (s : State) : s.unlock.lock = false := rfl
@[simp] theorem State.advance_pc (s : State) : s.advance.pc = nextPc s.pc := rfl

@[simp] theorem logEntry_clear (c : Nat) : logEntry c FaultMask.clear = [] := rfl

theorem State.logMask_faultLog (s : State) (fm : FaultMask) :
    (s.logMask fm).faultLog = s.faultLog ++ logEntry s.cycle fm := rfl

@[simp] theorem State.completeStep_faultLog (s : State) (fm : FaultMask) :
    (s.completeStep fm).faultLog = s.faultLog ++ logEntry s.cycle fm := s.logMask_faultLog fm

@[simp] theorem State.completeStep_cycle (s : State) (fm : FaultMask) :
    (s.completeStep fm).cycle = s.cycle + 1 := rfl

@[simp] theorem State.faultStop_faultLog (s : State) (fm : FaultMask) :
    (s.faultStop fm).faultLog = s.faultLog ++ logEntry s.cycle fm := s.logMask_faultLog fm

@[simp] theorem State.faultStop_stopped (s : State) (fm : FaultMask) : (s.faultStop fm).stopped = true := rfl

/-- Every end of a step logs its mask (R222). -/
@[simp] theorem State.endStep_faultLog (s : State) (fm : FaultMask) :
    (s.endStep fm).faultLog = s.faultLog ++ logEntry s.cycle fm := by
  unfold State.endStep; split <;> simp

/-- Only a completed step counts (R40, R256). -/
@[simp] theorem State.endStep_cycle (s : State) (fm : FaultMask) :
    (s.endStep fm).cycle = if fm.isFatal then s.cycle else s.cycle + 1 := by
  unfold State.endStep; split <;> simp

/-- A fatal mask stops the machine, no other mask changes the status (R256). -/
@[simp] theorem State.endStep_stopped (s : State) (fm : FaultMask) :
    (s.endStep fm).stopped = (s.stopped || fm.isFatal) := by
  unfold State.endStep; split <;> simp_all

/-! ## The register file -/

@[simp] theorem State.reg_zero (s : State) : s.reg 0#5 = 0#32 := rfl

/-- A read depends on the register array only. -/
theorem State.reg_congr {s t : State} (h : t.x = s.x) (r : RegIdx) : t.reg r = s.reg r := by
  unfold State.reg; rw [h]

/-- What a register write does to every register (R21, R23). -/
theorem State.reg_setReg (s : State) (i : RegIdx) (v : Word) (r : RegIdx) :
    (s.setReg i v).reg r = if r = i ∧ i ≠ 0#5 then v else s.reg r := by
  unfold State.setReg State.reg
  by_cases hi : i = 0#5
  · simp [hi]
  · by_cases hr : r = 0#5
    · have : r ≠ i := fun h => hi (h ▸ hr)
      simp [hi, hr, Ne.symm hi]
    · by_cases hri : r = i
      · subst hri; simp [hi]
      · have : i.toNat ≠ r.toNat := fun h => hri (BitVec.eq_of_toNat_eq h.symm)
        simp [hi, hr, hri, Vector.getElem_set_ne _ _ this]

theorem State.reg_setReg_self (s : State) {i : RegIdx} (hi : i ≠ 0#5) (v : Word) :
    (s.setReg i v).reg i = v := by
  simp [State.reg_setReg, hi]

theorem State.reg_setReg_other (s : State) {i r : RegIdx} (h : r ≠ i) (v : Word) :
    (s.setReg i v).reg r = s.reg r := by
  simp [State.reg_setReg, h]

@[simp] theorem State.setReg_zero (s : State) (v : Word) : s.setReg 0#5 v = s := rfl

@[simp] theorem State.reg_writeHiLo (s : State) (hi lo : Word) (r : RegIdx) : (s.writeHiLo hi lo).reg r = s.reg r :=
  State.reg_congr (by simp) r
@[simp] theorem State.reg_unlock (s : State) (r : RegIdx) : (s.unlock).reg r = s.reg r :=
  State.reg_congr (by simp) r
@[simp] theorem State.reg_advance (s : State) (r : RegIdx) : (s.advance).reg r = s.reg r :=
  State.reg_congr (by simp) r
@[simp] theorem State.reg_logMask (s : State) (fm : FaultMask) (r : RegIdx) : (s.logMask fm).reg r = s.reg r :=
  State.reg_congr (by simp) r
@[simp] theorem State.reg_completeStep (s : State) (fm : FaultMask) (r : RegIdx) : (s.completeStep fm).reg r = s.reg r :=
  State.reg_congr (by simp) r
@[simp] theorem State.reg_faultStop (s : State) (fm : FaultMask) (r : RegIdx) : (s.faultStop fm).reg r = s.reg r :=
  State.reg_congr (by simp) r
@[simp] theorem State.reg_endStep (s : State) (fm : FaultMask) (r : RegIdx) : (s.endStep fm).reg r = s.reg r :=
  State.reg_congr (by simp) r

/-- Which masks stop the machine (R251, R256). -/
theorem FaultMask.isFatal_or (a b : FaultMask) : (a ||| b).isFatal = (a.isFatal || b.isFatal) := by
  revert a b; decide

@[simp] theorem FaultMask.isFatal_clear : FaultMask.clear.isFatal = false := rfl

@[simp] theorem FaultMask.or_clear (a : FaultMask) : a ||| FaultMask.clear = a := by revert a; decide

@[simp] theorem FaultMask.clear_or (a : FaultMask) : FaultMask.clear ||| a = a := by revert a; decide

@[simp] theorem isFatal_writeBackMask (i : RegIdx) : (writeBackMask i).isFatal = false := by
  unfold writeBackMask raiseIf; split <;> rfl

@[simp] theorem isFatal_raiseIf_numberOverflow (b : Bool) :
    (raiseIf b FaultMask.numberOverflow).isFatal = false := by
  cases b <;> rfl

@[simp] theorem isFatal_raiseIf_hiLoOverwrite (b : Bool) :
    (raiseIf b FaultMask.hiLoOverwrite).isFatal = false := by
  cases b <;> rfl

@[simp] theorem isFatal_raiseIf_addressOverflow (b : Bool) :
    (raiseIf b FaultMask.addressOverflow).isFatal = b := by
  cases b <;> rfl

@[simp] theorem isFatal_raiseIf_misaligned (b : Bool) : (raiseIf b FaultMask.misaligned).isFatal = b := by
  cases b <;> rfl

@[simp] theorem isFatal_illegalInstruction : FaultMask.illegalInstruction.isFatal = true := rfl

/-- `CheckData` raises nothing exactly for an access in bounds and aligned, and what it raises is fatal (R67). -/
theorem checkData_clear_iff (p : Params) (addr : Word) (n : Width) :
    checkData p addr n = FaultMask.clear ↔ addr.toNat + n.bytes ≤ p.dmemBytes ∧ addr.toNat % n.bytes = 0 := by
  unfold checkData raiseIf
  by_cases h1 : p.dmemBytes < addr.toNat + n.bytes <;> by_cases h2 : addr.toNat % n.bytes = 0 <;>
    simp [h1, h2, FaultMask.clear, FaultMask.addressOverflow, FaultMask.misaligned] <;> omega

theorem checkData_isFatal (p : Params) (addr : Word) (n : Width) :
    (checkData p addr n).isFatal = decide (checkData p addr n ≠ FaultMask.clear) := by
  unfold checkData raiseIf
  split <;> split <;> rfl

end Sys2Proof.Machine
end

