-- ==== Sys2Proof/Laws/Exec.lean ====
section
/-! SUPPORT. What each shared way of retiring an instruction does, said once: a meaning that is one of these
operations has the shape stated here. -/

namespace Sys2Proof.Machine

/-! ## The fault log -/

theorem faultCount_append (k : Nat) (a b : List (Nat × FaultMask)) :
    faultCount k (a ++ b) = faultCount k a + faultCount k b := List.countP_append

/-- A log entry counts for exactly the faults of its mask; the clear mask has none and no entry (R39). -/
theorem faultCount_logEntry (k c : Nat) (fm : FaultMask) :
    faultCount k (logEntry c fm) = (fm.getLsbD k).toNat := by
  unfold logEntry faultCount
  split
  · next h => subst h; simp [FaultMask.clear]
  · simp [List.countP_cons]; cases fm.getLsbD k <;> rfl

/-- A log with one more mask logs that mask's faults. -/
theorem logsFaults_of_append {s t : State} {fm : FaultMask} {c : Nat}
    (h : t.faultLog = s.faultLog ++ logEntry c fm) : LogsFaults s t fm := by
  refine ⟨⟨_, h.symm⟩, fun k => ?_⟩
  rw [h, faultCount_append, faultCount_logEntry]

theorem writeBackMask_eq (d : RegIdx) : writeBackMask d = regZeroFault d := by
  by_cases h : d = 0#5 <;>
    simp [writeBackMask, regZeroFault, raiseIf, h, FaultMask.writeRegZero, FaultMask.clear]

/-! ## Retirement -/

/-- Retirement into a register, of a result with no side effect (R130, R160). -/
theorem retireReg_shape (d : RegIdx) (s : State) (v : Word) (fm : FaultMask) (h : fm.isFatal = false) :
    ∃ t, retireReg d (exPure s v fm) = .next t ∧ (∀ r, t.reg r = if r = d ∧ d ≠ 0#5 then v else s.reg r) ∧
      t.pc = s.pc + 4#32 ∧ Completed s t (fm ||| regZeroFault d) ∧ SameHiLo s t ∧ SameBytes s t ∧
      Untouched s t := by
  refine ⟨_, rfl, fun r => ?_, ?_, ⟨?_, ?_, ?_⟩, ?_, ?_, ?_⟩
  · simp [exPure, State.reg_setReg]
  · simp [exPure, nextPc]
  · simp [exPure, FaultMask.isFatal_or, h]
  · simp [exPure, FaultMask.isFatal_or, h]
  · exact logsFaults_of_append (c := s.cycle) (by simp [exPure, writeBackMask_eq])
  · simp [exPure, SameHiLo]
  · simp [exPure, SameBytes]
  · simp [exPure, Untouched]

theorem writesReg_of_retireReg {i : Instr} {s : State} {d : RegIdx} {v : Word} {fm : FaultMask}
    (he : exec i s = retireReg d (exPure s v fm)) (h : fm.isFatal = false) : WritesReg i s d v fm := by
  unfold WritesReg
  rw [he]
  exact retireReg_shape d s v fm h

/-- Retirement of a transfer of control (R185). -/
theorem onlyMovesPc_of_retireTo {i : Instr} {s : State} {target : Word}
    (he : exec i s = retireTo s target) : OnlyMovesPc i s target := by
  refine ⟨_, he, by simp, ⟨by simp, by simp, ?_⟩, fun r => ?_, by simp [SameHiLo], by simp [SameBytes],
    by simp [Untouched]⟩
  · exact logsFaults_of_append (c := s.cycle) (by simp; rfl)
  · exact State.reg_congr (by simp) r

/-- Retirement of an instruction with no effect (R200, R201). -/
theorem onlyMovesPc_of_retirePlain {i : Instr} {s : State}
    (he : exec i s = retirePlain (exNothing s)) : OnlyMovesPc i s (s.pc + 4#32) := by
  refine ⟨_, he, by simp [exNothing, exPure, nextPc], ⟨by simp [exNothing, exPure], by simp [exNothing, exPure],
    ?_⟩, fun r => ?_, by simp [SameHiLo, exNothing, exPure], by simp [SameBytes, exNothing, exPure],
    by simp [Untouched, exNothing, exPure]⟩
  · exact logsFaults_of_append (c := s.cycle) (by simp [exNothing, exPure]; rfl)
  · exact State.reg_congr (by simp [exNothing, exPure]) r

/-! ## Loads and stores -/

/-- The mask EX raises on an address add (R170). -/
def addressFault (s : State) (rs : RegIdx) (c : Imm16) : FaultMask :=
  raiseIf (addOverflows (s.reg rs) (signExt16 c)) FaultMask.numberOverflow

/-- A load whose address passes the check (R171 to R175). -/
theorem loadInto_ok {n : Width} {e : LoadExt} {rt rs : RegIdx} {c : Imm16} {s : State}
    (h : checkData s.par (effectiveAddress (s.reg rs) c) n = FaultMask.clear) :
    loadInto n e rt rs c s =
      retireReg rt (exPure s (loadValue s.dmem (effectiveAddress (s.reg rs) c).toNat n e)
        (addressFault s rs c)) := by
  simp [loadInto, exAddress, exPure, h, addressFault]

/-- A load or store whose address fails the check ends the step with the fatal mask (R68, R256). -/
theorem loadInto_bad {n : Width} {e : LoadExt} {rt rs : RegIdx} {c : Imm16} {s : State}
    (h : checkData s.par (effectiveAddress (s.reg rs) c) n ≠ FaultMask.clear) :
    loadInto n e rt rs c s =
      .next (s.endStep (addressFault s rs c ||| checkData s.par (effectiveAddress (s.reg rs) c) n)) := by
  simp [loadInto, exAddress, exPure, h, addressFault]

theorem storeFrom_ok {n : Width} {rt rs : RegIdx} {c : Imm16} {s : State}
    (h : checkData s.par (effectiveAddress (s.reg rs) c) n = FaultMask.clear) :
    storeFrom n rt rs c s = .next (State.endStep
      { s with dmem := storeValue s.dmem (effectiveAddress (s.reg rs) c).toNat n (s.reg rt), pc := nextPc s.pc }
      (addressFault s rs c)) := by
  simp [storeFrom, exAddress, exPure, h, addressFault, retirePlain, State.advance]

theorem storeFrom_bad {n : Width} {rt rs : RegIdx} {c : Imm16} {s : State}
    (h : checkData s.par (effectiveAddress (s.reg rs) c) n ≠ FaultMask.clear) :
    storeFrom n rt rs c s =
      .next (s.endStep (addressFault s rs c ||| checkData s.par (effectiveAddress (s.reg rs) c) n)) := by
  simp [storeFrom, exAddress, exPure, h, addressFault]

/-- A step ended with a fatal mask stops the machine and changes nothing else but the log (R256). -/
theorem stopsWith_of_endStep {i : Instr} {s : State} {fm : FaultMask}
    (he : exec i s = .next (s.endStep fm)) (h : fm.isFatal = true) : StopsWith i s fm := by
  refine ⟨_, he, by simp [h], by simp [h], logsFaults_of_append (c := s.cycle) (by simp), fun r => by simp,
    by simp [SameHiLo], by simp [SameBytes], by simp [Untouched]⟩

@[simp] theorem isFatal_addressFault (s : State) (rs : RegIdx) (c : Imm16) :
    (addressFault s rs c).isFatal = false := by simp [addressFault]

end Sys2Proof.Machine
end

