-- ==== Sys2Proof/Laws/Drain.lean ====
section
/-! SUPPORT. The completion operations of Sys2Proof/Safety.lean respect `SameData` and leave the pc alone, and what a
sequential instruction does is what completing it from ID does. -/

namespace Sys2Proof.Machine

/-! ## `SameData` is an equivalence that the state updates respect -/

theorem SameData.refl (s : State) : SameData s s := ⟨rfl, rfl, rfl, rfl, rfl, rfl, rfl, rfl, fun _ => rfl⟩

theorem SameData.symm {s t : State} (h : SameData s t) : SameData t s :=
  ⟨h.x.symm, h.hi.symm, h.lo.symm, h.lock.symm, h.dmem.symm, h.imem.symm, h.par.symm, h.stopped.symm,
    fun k => (h.faults k).symm⟩

theorem SameData.trans {s t u : State} (h : SameData s t) (g : SameData t u) : SameData s u :=
  ⟨h.x.trans g.x, h.hi.trans g.hi, h.lo.trans g.lo, h.lock.trans g.lock, h.dmem.trans g.dmem,
    h.imem.trans g.imem, h.par.trans g.par, h.stopped.trans g.stopped, fun k => (h.faults k).trans (g.faults k)⟩

/-- The pc is no part of the data. -/
theorem SameData.withPc {s t : State} (h : SameData s t) (p q : Word) :
    SameData { s with pc := p } { t with pc := q } :=
  ⟨h.x, h.hi, h.lo, h.lock, h.dmem, h.imem, h.par, h.stopped, h.faults⟩

theorem SameData.reg {s t : State} (h : SameData s t) (r : RegIdx) : s.reg r = t.reg r :=
  State.reg_congr h.x r

theorem SameData.setReg {s t : State} (h : SameData s t) (i : RegIdx) (v : Word) :
    SameData (s.setReg i v) (t.setReg i v) := by
  refine ⟨?_, by simp [h.hi], by simp [h.lo], by simp [h.lock], by simp [h.dmem], by simp [h.imem],
    by simp [h.par], by simp [h.stopped], by simp [h.faults]⟩
  unfold State.setReg
  split
  · exact h.x
  · simp [h.x]

theorem SameData.logMask {s t : State} (h : SameData s t) (fm : FaultMask) :
    SameData (s.logMask fm) (t.logMask fm) := by
  refine ⟨by simp [h.x], by simp [h.hi], by simp [h.lo], by simp [h.lock], by simp [h.dmem], by simp [h.imem],
    by simp [h.par], by simp [h.stopped], fun k => ?_⟩
  simp [State.logMask_faultLog, faultCount_append, faultCount_logEntry, h.faults]

theorem SameData.faultStop {s t : State} (h : SameData s t) (fm : FaultMask) :
    SameData (s.faultStop fm) (t.faultStop fm) :=
  { h.logMask fm with stopped := rfl }

theorem SameData.writeHiLo {s t : State} (h : SameData s t) (hi lo : Word) :
    SameData (s.writeHiLo hi lo) (t.writeHiLo hi lo) := { h with hi := rfl, lo := rfl, lock := rfl }

theorem SameData.unlock {s t : State} (h : SameData s t) : SameData s.unlock t.unlock := { h with lock := rfl }

/-- The end of a step with no fatal fault logs its mask; the counter is no part of the data. -/
theorem SameData.endStep_nonfatal (s : State) {fm : FaultMask} (h : fm.isFatal = false) :
    SameData (s.endStep fm) (s.logMask fm) := by
  simp only [State.endStep, h]
  exact { SameData.refl (s.logMask fm) with }

theorem SameData.endStep_fatal (s : State) {fm : FaultMask} (h : fm.isFatal = true) :
    SameData (s.endStep fm) (s.faultStop fm) := by
  simp only [State.endStep, h, if_true]
  exact SameData.refl _

/-- Two masks with no bit in common are the same logged together or one after the other (R261). -/
theorem SameData.logMask_or (s : State) {a b : FaultMask} (h : a &&& b = 0#6) :
    SameData (s.logMask (a ||| b)) ((s.logMask a).logMask b) := by
  refine ⟨rfl, rfl, rfl, rfl, rfl, rfl, rfl, rfl, fun k => ?_⟩
  simp only [State.logMask_faultLog, faultCount_append, faultCount_logEntry]
  have : (a &&& b).getLsbD k = false := by simp [h]
  rw [BitVec.getLsbD_and] at this
  rw [BitVec.getLsbD_or]
  revert this
  cases a.getLsbD k <;> cases b.getLsbD k <;> simp

theorem SameData.faultStop_or (s : State) {a b : FaultMask} (h : a &&& b = 0#6) :
    SameData (s.faultStop (a ||| b)) ((s.logMask a).faultStop b) :=
  { SameData.logMask_or s h with stopped := rfl }

@[simp] theorem State.logMask_clear (s : State) : s.logMask FaultMask.clear = s := by
  simp [State.logMask]

/-! ## The parts of a stage -/

theorem SameData.wbState {s t : State} (h : SameData s t) (m : MemWb) : SameData (wbState m s) (wbState m t) := by
  unfold Machine.wbState
  split
  · exact h.setReg _ _
  · exact h

theorem SameData.memState {s t : State} (h : SameData s t) (e : ExMem) :
    SameData (memState e s) (memState e t) := by
  unfold Machine.memState
  split
  · exact { h with dmem := by simp [h.dmem, h.par] }
  · exact h

theorem memLatch_congr {s t : State} (h : s.dmem = t.dmem) (hp : s.par = t.par) (e : ExMem) :
    memLatch e s = memLatch e t := by
  simp [memLatch, memData, h, hp]

@[simp] theorem wbState_pc (m : MemWb) (s : State) : (wbState m s).pc = s.pc := by unfold wbState; split <;> simp
@[simp] theorem wbState_dmem (m : MemWb) (s : State) : (wbState m s).dmem = s.dmem := by
  unfold wbState; split <;> simp
@[simp] theorem wbState_imem (m : MemWb) (s : State) : (wbState m s).imem = s.imem := by
  unfold wbState; split <;> simp
@[simp] theorem wbState_par (m : MemWb) (s : State) : (wbState m s).par = s.par := by
  unfold wbState; split <;> simp
@[simp] theorem wbState_stopped (m : MemWb) (s : State) : (wbState m s).stopped = s.stopped := by
  unfold wbState; split <;> simp
@[simp] theorem wbState_faultLog (m : MemWb) (s : State) : (wbState m s).faultLog = s.faultLog := by
  unfold wbState; split <;> simp
@[simp] theorem wbState_cycle (m : MemWb) (s : State) : (wbState m s).cycle = s.cycle := by
  unfold wbState; split <;> simp
@[simp] theorem wbState_pipe (m : MemWb) (s : State) : (wbState m s).pipe = s.pipe := by
  unfold wbState; split <;> simp
@[simp] theorem wbState_hi (m : MemWb) (s : State) : (wbState m s).hi = s.hi := by unfold wbState; split <;> simp
@[simp] theorem wbState_lo (m : MemWb) (s : State) : (wbState m s).lo = s.lo := by unfold wbState; split <;> simp
@[simp] theorem wbState_lock (m : MemWb) (s : State) : (wbState m s).lock = s.lock := by
  unfold wbState; split <;> simp

@[simp] theorem memState_pc (e : ExMem) (s : State) : (memState e s).pc = s.pc := by unfold memState; split <;> rfl
@[simp] theorem memState_x (e : ExMem) (s : State) : (memState e s).x = s.x := by unfold memState; split <;> rfl
@[simp] theorem memState_imem (e : ExMem) (s : State) : (memState e s).imem = s.imem := by
  unfold memState; split <;> rfl
@[simp] theorem memState_par (e : ExMem) (s : State) : (memState e s).par = s.par := by
  unfold memState; split <;> rfl
@[simp] theorem memState_stopped (e : ExMem) (s : State) : (memState e s).stopped = s.stopped := by
  unfold memState; split <;> rfl
@[simp] theorem memState_faultLog (e : ExMem) (s : State) : (memState e s).faultLog = s.faultLog := by
  unfold memState; split <;> rfl
@[simp] theorem memState_cycle (e : ExMem) (s : State) : (memState e s).cycle = s.cycle := by
  unfold memState; split <;> rfl
@[simp] theorem memState_pipe (e : ExMem) (s : State) : (memState e s).pipe = s.pipe := by
  unfold memState; split <;> rfl
@[simp] theorem memState_hi (e : ExMem) (s : State) : (memState e s).hi = s.hi := by unfold memState; split <;> rfl
@[simp] theorem memState_lo (e : ExMem) (s : State) : (memState e s).lo = s.lo := by unfold memState; split <;> rfl
@[simp] theorem memState_lock (e : ExMem) (s : State) : (memState e s).lock = s.lock := by
  unfold memState; split <;> rfl
@[simp] theorem reg_memState (e : ExMem) (s : State) (r : RegIdx) : (memState e s).reg r = s.reg r :=
  State.reg_congr (by simp) r

/-- What WB does to every register (R212). -/
theorem reg_wbState (m : MemWb) (s : State) (r : RegIdx) :
    (wbState m s).reg r = if m.regWrite = true ∧ r = m.writeDest ∧ r ≠ 0#5 then m.rtData else s.reg r := by
  unfold wbState
  split
  · next h =>
    rw [State.reg_setReg]
    by_cases hr : r = m.writeDest
    · subst hr; simp [h]
    · simp [hr]
  · next h => simp [h]

/-! ## EX -/

/-- All that EX can do to the state: nothing, a product written, or the lock cleared (R155, R215). -/
theorem execEX_state_cases (i : Instr) (a b p : Word) (s : State) :
    (execEX i a b p s).state = s ∨ (∃ hi lo, (execEX i a b p s).state = s.writeHiLo hi lo) ∨
      (execEX i a b p s).state = s.unlock := by
  cases i <;> first | exact .inl rfl | exact .inr (.inl ⟨_, _, rfl⟩) | exact .inr (.inr rfl)

theorem execEXWord_state_cases (w a b p : Word) (s : State) :
    (execEXWord w a b p s).state = s ∨ (∃ hi lo, (execEXWord w a b p s).state = s.writeHiLo hi lo) ∨
      (execEXWord w a b p s).state = s.unlock := by
  unfold execEXWord
  split
  · exact execEX_state_cases ..
  · exact .inl rfl

/-- EX raises only `NumberOverflow` or `HiLoOverwrite`, never both (R215, R261). -/
theorem execEXWord_fm_cases (w a b p : Word) (s : State) :
    (execEXWord w a b p s).fm = FaultMask.clear ∨ (execEXWord w a b p s).fm = FaultMask.numberOverflow ∨
      (execEXWord w a b p s).fm = FaultMask.hiLoOverwrite := by
  have hn (c : Bool) : raiseIf c FaultMask.numberOverflow = FaultMask.clear ∨
      raiseIf c FaultMask.numberOverflow = FaultMask.numberOverflow ∨
      raiseIf c FaultMask.numberOverflow = FaultMask.hiLoOverwrite := by cases c <;> simp [raiseIf]
  have hh (c : Bool) : raiseIf c FaultMask.hiLoOverwrite = FaultMask.clear ∨
      raiseIf c FaultMask.hiLoOverwrite = FaultMask.numberOverflow ∨
      raiseIf c FaultMask.hiLoOverwrite = FaultMask.hiLoOverwrite := by cases c <;> simp [raiseIf]
  unfold execEXWord
  split
  · next i _ => cases i <;> first | exact .inl rfl | exact hn _ | exact hh _
  · exact .inl rfl

@[simp] theorem execEXWord_fm_isFatal (w a b p : Word) (s : State) : (execEXWord w a b p s).fm.isFatal = false := by
  rcases execEXWord_fm_cases w a b p s with h | h | h <;> rw [h] <;> rfl

@[simp] theorem execEXWord_x (w a b p : Word) (s : State) : (execEXWord w a b p s).state.x = s.x := by
  rcases execEXWord_state_cases w a b p s with h | ⟨_, _, h⟩ | h <;> rw [h] <;> rfl
@[simp] theorem execEXWord_pc (w a b p : Word) (s : State) : (execEXWord w a b p s).state.pc = s.pc := by
  rcases execEXWord_state_cases w a b p s with h | ⟨_, _, h⟩ | h <;> rw [h] <;> rfl
@[simp] theorem execEXWord_dmem (w a b p : Word) (s : State) : (execEXWord w a b p s).state.dmem = s.dmem := by
  rcases execEXWord_state_cases w a b p s with h | ⟨_, _, h⟩ | h <;> rw [h] <;> rfl
@[simp] theorem execEXWord_imem (w a b p : Word) (s : State) : (execEXWord w a b p s).state.imem = s.imem := by
  rcases execEXWord_state_cases w a b p s with h | ⟨_, _, h⟩ | h <;> rw [h] <;> rfl
@[simp] theorem execEXWord_par (w a b p : Word) (s : State) : (execEXWord w a b p s).state.par = s.par := by
  rcases execEXWord_state_cases w a b p s with h | ⟨_, _, h⟩ | h <;> rw [h] <;> rfl
@[simp] theorem execEXWord_pipe (w a b p : Word) (s : State) : (execEXWord w a b p s).state.pipe = s.pipe := by
  rcases execEXWord_state_cases w a b p s with h | ⟨_, _, h⟩ | h <;> rw [h] <;> rfl
@[simp] theorem execEXWord_stopped (w a b p : Word) (s : State) :
    (execEXWord w a b p s).state.stopped = s.stopped := by
  rcases execEXWord_state_cases w a b p s with h | ⟨_, _, h⟩ | h <;> rw [h] <;> rfl
@[simp] theorem execEXWord_cycle (w a b p : Word) (s : State) : (execEXWord w a b p s).state.cycle = s.cycle := by
  rcases execEXWord_state_cases w a b p s with h | ⟨_, _, h⟩ | h <;> rw [h] <;> rfl
@[simp] theorem execEXWord_faultLog (w a b p : Word) (s : State) :
    (execEXWord w a b p s).state.faultLog = s.faultLog := by
  rcases execEXWord_state_cases w a b p s with h | ⟨_, _, h⟩ | h <;> rw [h] <;> rfl
@[simp] theorem reg_execEXWord (w a b p : Word) (s : State) (r : RegIdx) :
    (execEXWord w a b p s).state.reg r = s.reg r := State.reg_congr (by simp) r

/-- EX depends on the data of the state only. -/
theorem execEXWord_congr {s t : State} (h : SameData s t) (w a b p : Word) :
    (execEXWord w a b p s).result = (execEXWord w a b p t).result ∧
      (execEXWord w a b p s).fm = (execEXWord w a b p t).fm ∧
      SameData (execEXWord w a b p s).state (execEXWord w a b p t).state := by
  unfold execEXWord
  rw [h.par]
  split
  · next i _ =>
    cases i
    case mult => exact ⟨rfl, by simp [execEX, exMult, writeProduct, h.lock], h.writeHiLo _ _⟩
    case multu => exact ⟨rfl, by simp [execEX, exMultu, writeProduct, h.lock], h.writeHiLo _ _⟩
    case mfhi => exact ⟨h.hi, rfl, h.unlock⟩
    case mflo => exact ⟨h.lo, rfl, h.unlock⟩
    all_goals exact ⟨rfl, rfl, h⟩
  · exact ⟨rfl, rfl, h⟩

/-- EX uses an operand only where the decoder says that it is read (R103). -/
theorem execEXWord_operands {w a a' b b' : Word} (p : Word) (s : State)
    (ha : (controlOf s.par.opc w).hasRs = true → a = a') (hb : (controlOf s.par.opc w).hasRt = true → b = b') :
    execEXWord w a b p s = execEXWord w a' b' p s := by
  unfold execEXWord
  split
  · next i hi =>
    rw [control_of_decodeWord hi] at ha hb
    cases i <;> simp [Instr.control, Control.reads, Control.writes, Control.load, Control.store, Control.none]
      at ha hb <;> simp [execEX, *]
  · rfl

/-! ## Completing an instruction in flight -/

theorem SameData.finishWb {s t : State} (h : SameData s t) (m : MemWb) : SameData (finishWb m s) (finishWb m t) := by
  unfold Machine.finishWb
  rw [h.stopped]
  split
  · exact h
  · exact (h.wbState m).logMask _

theorem SameData.finishMem {s t : State} (h : SameData s t) (e : ExMem) :
    SameData (finishMem e s) (finishMem e t) := by
  unfold Machine.finishMem
  rw [h.stopped, h.par, memLatch_congr h.dmem h.par]
  split
  · exact h
  · split
    · exact h.faultStop _
    · exact (h.memState e).finishWb _

theorem SameData.finishEx {s t : State} (h : SameData s t) (d : IdEx) :
    SameData (finishEx d s) (finishEx d t) := by
  unfold Machine.finishEx
  rw [h.stopped, h.reg, h.reg]
  split
  · exact h
  · obtain ⟨hr, hf, hs⟩ := execEXWord_congr h d.instr (t.reg (rsOf d.instr)) (t.reg (rtOf d.instr)) d.pcNext
    simp only [hr, hf]
    exact (hs.logMask _).finishMem _

@[simp] theorem finishWb_pc (m : MemWb) (s : State) : (finishWb m s).pc = s.pc := by
  unfold finishWb; split <;> simp

@[simp] theorem finishMem_pc (e : ExMem) (s : State) : (finishMem e s).pc = s.pc := by
  unfold finishMem
  split
  · rfl
  · split <;> simp

@[simp] theorem finishEx_pc (d : IdEx) (s : State) : (finishEx d s).pc = s.pc := by
  unfold finishEx; split <;> simp

@[simp] theorem finishWb_imem (m : MemWb) (s : State) : (finishWb m s).imem = s.imem := by
  unfold finishWb; split <;> simp
@[simp] theorem finishMem_imem (e : ExMem) (s : State) : (finishMem e s).imem = s.imem := by
  unfold finishMem
  split
  · rfl
  · split <;> simp
@[simp] theorem finishEx_imem (d : IdEx) (s : State) : (finishEx d s).imem = s.imem := by
  unfold finishEx
  split
  · rfl
  · simp only [finishMem_imem, State.logMask_imem, execEXWord_imem]

@[simp] theorem finishWb_par (m : MemWb) (s : State) : (finishWb m s).par = s.par := by
  unfold finishWb; split <;> simp
@[simp] theorem finishMem_par (e : ExMem) (s : State) : (finishMem e s).par = s.par := by
  unfold finishMem
  split
  · rfl
  · split <;> simp
@[simp] theorem finishEx_par (d : IdEx) (s : State) : (finishEx d s).par = s.par := by
  unfold finishEx
  split
  · rfl
  · simp only [finishMem_par, State.logMask_par, execEXWord_par]

/-- The stored datum matters for a store only (R213). -/
theorem finishMem_rtData (e : ExMem) (v : Word) (s : State) (h : e.memWrite = true → v = e.rtData) :
    finishMem { e with rtData := v } s = finishMem e s := by
  by_cases hw : e.memWrite = true
  · rw [h hw]
  · simp [finishMem, memMask, memState, memLatch, memData, ExMem.accesses, hw]

theorem finishWb_stopped {s : State} (h : s.stopped = true) (m : MemWb) : finishWb m s = s := by
  simp [finishWb, h]
theorem finishMem_stopped {s : State} (h : s.stopped = true) (e : ExMem) : finishMem e s = s := by
  simp [finishMem, h]
theorem finishEx_stopped {s : State} (h : s.stopped = true) (d : IdEx) : finishEx d s = s := by
  simp [finishEx, h]
theorem finishId_stopped {s : State} (h : s.stopped = true) (f : IfId) : finishId f s = s := by
  simp [finishId, h]

/-- A bubble has nothing to complete (R36). -/
theorem finishEx_zero (s : State) : finishEx IdEx.zero s = s := by
  unfold finishEx
  split
  · rfl
  · simp [IdEx.zero, execEXWord, decodeWord_zero, execEX, exNothing, exPure, exLatch, finishMem, memMask,
      ExMem.accesses, memState, memLatch, memData, finishWb, wbState, wbMask]

theorem finishId_zero (s : State) : finishId IfId.zero s = s := by
  unfold finishId
  split
  · rfl
  · simp only [IfId.zero, decodeWord_zero, resolve]
    exact finishEx_zero _

/-- Completing an instruction from EX reads its operands afresh; the latched ones do not matter. -/
theorem finishEx_latched (d : IdEx) (a b : Word) (s : State) :
    finishEx { d with rsData := a, rtData := b } s = finishEx d s := rfl

end Sys2Proof.Machine
end

