-- ==== Sys2Proof/Laws/Agree.lean ====
section
/-! SUPPORT. The two levels agree on one instruction (spec/00_scope.md R9): executing an instruction sequentially is
completing it from ID. -/

namespace Sys2Proof.Machine

/-- Completing an instruction without a memory access: EX, then the write-back. -/
theorem finishMem_noAccess (e : ExMem) (s : State) (hr : e.memRead = false) (hw : e.memWrite = false) :
    finishMem e s = finishWb (memLatch e s) s := by
  unfold finishMem
  split
  · next h => rw [finishWb_stopped h]
  · simp [memMask, ExMem.accesses, hr, hw, memState]

theorem ex_wb_disjoint (w a b p : Word) (s : State) (m : FaultMask) (hm : m = 0x01#6 ∨ m = 0x00#6) :
    (execEXWord w a b p s).fm &&& m = 0#6 := by
  rcases hm with rfl | rfl <;> rcases execEXWord_fm_cases w a b p s with h | h | h <;> rw [h] <;> rfl

theorem writeBackMask_cases (d : RegIdx) : writeBackMask d = 0x01#6 ∨ writeBackMask d = 0x00#6 := by
  unfold writeBackMask raiseIf
  split
  · exact .inl rfl
  · exact .inr rfl

/-- Retirement into a register and completion of the same result leave the same data. -/
theorem sameData_retireReg (s : State) (d : RegIdx) (v : Word) {fm : FaultMask}
    (hf : fm.isFatal = false) (hd : fm &&& writeBackMask d = 0#6) :
    SameData ((s.setReg d v).advance.endStep (fm ||| writeBackMask d))
      (((s.logMask fm).setReg d v).logMask (writeBackMask d)) := by
  refine (SameData.endStep_nonfatal _ (by simp [FaultMask.isFatal_or, hf])).trans
    ((SameData.logMask_or _ hd).trans (SameData.logMask ?_ _))
  refine ⟨?_, by simp, by simp, by simp, by simp, by simp, by simp, by simp, fun k => ?_⟩
  · unfold State.setReg; split <;> rfl
  · simp [State.logMask_faultLog, State.advance]

/-- Completing from EX an instruction without a memory access. -/
theorem finishEx_noAccess (d : IdEx) (s : State) (hs : s.stopped = false) (hr : d.memRead = false)
    (hw : d.memWrite = false) :
    finishEx d s =
      (let o := execEXWord d.instr (s.reg (rsOf d.instr)) (s.reg (rtOf d.instr)) d.pcNext s
       (wbState { instr := d.instr, rtData := o.result, writeDest := d.writeDest, regWrite := d.regWrite }
          (o.state.logMask o.fm)).logMask
        (wbMask { instr := d.instr, rtData := o.result, writeDest := d.writeDest, regWrite := d.regWrite })) := by
  unfold finishEx
  rw [if_neg (by simp [hs])]
  simp only
  rw [finishMem_noAccess _ _ hr hw]
  simp [finishWb, hs, memLatch, memData, exLatch, hr, hw]

/-- Completing from EX a load or a store. -/
theorem finishEx_access (d : IdEx) (s : State) (hs : s.stopped = false)
    (ha : (d.memRead || d.memWrite) = true) :
    finishEx d s =
      (let o := execEXWord d.instr (s.reg (rsOf d.instr)) (s.reg (rtOf d.instr)) d.pcNext s
       let e := exLatch d o.result (s.reg (rtOf d.instr))
       let bad := checkData s.par o.result (controlOf s.par.opc d.instr).width
       let t := o.state.logMask o.fm
       if bad = FaultMask.clear then (wbState (memLatch e t) (memState e t)).logMask (wbMask (memLatch e t))
       else t.faultStop bad) := by
  unfold finishEx
  rw [if_neg (by simp [hs])]
  simp only [finishMem, State.logMask_stopped, execEXWord_stopped, hs, memMask, ExMem.accesses, exLatch, ha,
    State.logMask_par, execEXWord_par]
  simp only [Bool.false_eq_true, if_false, if_true, finishWb, memState_stopped,
    State.logMask_stopped, execEXWord_stopped, hs]
  simp only [checkData_isFatal, decide_eq_true_eq, ne_eq, ite_not]

/-- A sequential transfer of control and an instruction with no write-back change no data. -/
theorem sameData_endStep_clear (s t : State) (h : SameData s t) : SameData (s.endStep FaultMask.clear) t := by
  refine (SameData.endStep_nonfatal s rfl).trans ?_
  rw [State.logMask_clear]
  exact h

/-- Executing the instruction of a word sequentially is completing that word from ID, with `pc` already behind it
(R9). -/
theorem exec_agrees {w : Word} {i : Instr} (s : State) (hw : decodeWord s.par.opc w = .ok i) (hs : s.stopped = false) :
    ∃ u, exec i s = .next u ∧ SameData u (finishEx (idLatch (fetchedLatch s.pc w) s) s) ∧
      (u.stopped = false → u.pc = (resolve i (nextPc s.pc) s.reg).getD (nextPc s.pc)) := by
  have hr := refill_of_decodeWord hw
  have hc := control_of_decodeWord hw
  have hx : ∀ a b p, execEXWord w a b p s = execEX i a b p s := by intro a b p; simp [execEXWord, hw]
  -- an instruction that writes a register with what EX gives
  have alu : ∀ (d : RegIdx) (o : ExOut), i.control.regWrite = true → i.control.dest = d →
      i.control.memRead = false → i.control.memWrite = false →
      execEX i (s.reg (rsOf w)) (s.reg (rtOf w)) (nextPc s.pc) s = o →
      exec i s = retireReg d o → resolve i (nextPc s.pc) s.reg = none →
      ∃ u, exec i s = .next u ∧ SameData u (finishEx (idLatch (fetchedLatch s.pc w) s) s) ∧
        (u.stopped = false → u.pc = (resolve i (nextPc s.pc) s.reg).getD (nextPc s.pc)) := by
    intro d o h1 h2 h3 h4 ho he hres
    have hxo := hx (s.reg (rsOf w)) (s.reg (rtOf w)) (nextPc s.pc)
    rw [ho] at hxo
    have hfat : o.fm.isFatal = false := by rw [← hxo]; simp
    have hdis : o.fm &&& writeBackMask d = 0#6 := by
      rw [← hxo]; exact ex_wb_disjoint _ _ _ _ _ _ (writeBackMask_cases d)
    have hpc : o.state.pc = s.pc := by rw [← hxo]; simp
    refine ⟨_, he, ?_, fun _ => by simp [hres, hpc]⟩
    rw [finishEx_noAccess _ _ hs (by simp [idLatch, fetchedLatch, hc, h3])
      (by simp [idLatch, fetchedLatch, hc, h4])]
    simp only [idLatch, fetchedLatch, hc, h1, h2, hxo, wbState, wbMask, if_true]
    exact sameData_retireReg o.state d o.result hfat hdis
  -- an instruction that writes no register and does not access memory
  have plain : ∀ (o : ExOut), i.control.regWrite = false →
      i.control.memRead = false → i.control.memWrite = false →
      execEX i (s.reg (rsOf w)) (s.reg (rtOf w)) (nextPc s.pc) s = o →
      exec i s = retirePlain o → resolve i (nextPc s.pc) s.reg = none →
      ∃ u, exec i s = .next u ∧ SameData u (finishEx (idLatch (fetchedLatch s.pc w) s) s) ∧
        (u.stopped = false → u.pc = (resolve i (nextPc s.pc) s.reg).getD (nextPc s.pc)) := by
    intro o h1 h3 h4 ho he hres
    have hxo := hx (s.reg (rsOf w)) (s.reg (rtOf w)) (nextPc s.pc)
    rw [ho] at hxo
    have hfat : o.fm.isFatal = false := by rw [← hxo]; simp
    have hpc : o.state.pc = s.pc := by rw [← hxo]; simp
    refine ⟨_, he, ?_, fun _ => by simp [hres, hpc]⟩
    rw [finishEx_noAccess _ _ hs (by simp [idLatch, fetchedLatch, hc, h3])
      (by simp [idLatch, fetchedLatch, hc, h4])]
    simp only [idLatch, fetchedLatch, hc, h1, hxo, wbState, wbMask, Bool.false_eq_true, if_false,
      State.logMask_clear]
    refine (SameData.endStep_nonfatal _ hfat).trans (SameData.logMask ?_ _)
    exact { SameData.refl o.state with }
  -- a transfer of control that writes no register
  have jump : ∀ (t : Word), i.control.regWrite = false →
      i.control.memRead = false → i.control.memWrite = false →
      execEX i (s.reg (rsOf w)) (s.reg (rtOf w)) (nextPc s.pc) s = exNothing s →
      exec i s = retireTo s t → t = (resolve i (nextPc s.pc) s.reg).getD (nextPc s.pc) →
      ∃ u, exec i s = .next u ∧ SameData u (finishEx (idLatch (fetchedLatch s.pc w) s) s) ∧
        (u.stopped = false → u.pc = (resolve i (nextPc s.pc) s.reg).getD (nextPc s.pc)) := by
    intro t h1 h3 h4 ho he ht
    have hxo := hx (s.reg (rsOf w)) (s.reg (rtOf w)) (nextPc s.pc)
    rw [ho] at hxo
    refine ⟨_, he, ?_, fun _ => by simp [ht]⟩
    rw [finishEx_noAccess _ _ hs (by simp [idLatch, fetchedLatch, hc, h3])
      (by simp [idLatch, fetchedLatch, hc, h4])]
    simp only [idLatch, fetchedLatch, hc, h1, hxo, wbState, wbMask, Bool.false_eq_true, if_false,
      State.logMask_clear, exNothing, exPure]
    exact sameData_endStep_clear _ _ { SameData.refl s with }
  -- a load
  have load : ∀ (n : Width) (e : LoadExt) (imm : Imm16), i.control = Control.load (rtOf w) n e →
      execEX i (s.reg (rsOf w)) (s.reg (rtOf w)) (nextPc s.pc) s = exAddress imm (s.reg (rsOf w)) s →
      exec i s = loadInto n e (rtOf w) (rsOf w) imm s → resolve i (nextPc s.pc) s.reg = none →
      ∃ u, exec i s = .next u ∧ SameData u (finishEx (idLatch (fetchedLatch s.pc w) s) s) ∧
        (u.stopped = false → u.pc = (resolve i (nextPc s.pc) s.reg).getD (nextPc s.pc)) := by
    intro n e imm h1 ho he hres
    have hxo := hx (s.reg (rsOf w)) (s.reg (rtOf w)) (nextPc s.pc)
    rw [ho] at hxo
    have hfat : (exAddress imm (s.reg (rsOf w)) s).fm.isFatal = false := by rw [← hxo]; simp
    have hdis : ∀ m, m = 0x01#6 ∨ m = 0x00#6 → (exAddress imm (s.reg (rsOf w)) s).fm &&& m = 0#6 := by
      intro m hm; rw [← hxo]; exact ex_wb_disjoint _ _ _ _ _ _ hm
    rw [finishEx_access _ _ hs (by
      simp [idLatch, fetchedLatch, hc, h1, Control.load, Control.writes, Control.none])]
    simp only [idLatch, fetchedLatch, hc, h1, hxo, exLatch, Control.load, Control.writes, Control.none]
    have hres' : (exAddress imm (s.reg (rsOf w)) s).result = effectiveAddress (s.reg (rsOf w)) imm := rfl
    rw [hres']
    by_cases hbad : checkData s.par (effectiveAddress (s.reg (rsOf w)) imm) n = FaultMask.clear
    · rw [he, loadInto_ok hbad]
      refine ⟨_, rfl, ?_, fun _ => by simp [hres, exPure]⟩
      have hst : (exAddress imm (s.reg (rsOf w)) s).state = s := rfl
      simp only [hbad, if_true, wbState, wbMask, memLatch, memData, memState, hst,
        State.logMask_par, Bool.false_eq_true, if_false, hc, h1, Control.load, Control.writes, Control.none, State.logMask_dmem]
      exact sameData_retireReg s (rtOf w) _ hfat (hdis _ (writeBackMask_cases _))
    · rw [he, loadInto_bad hbad]
      refine ⟨_, rfl, ?_, fun h => ?_⟩
      · simp only [hbad, if_false]
        refine (SameData.endStep_fatal _ ?_).trans (SameData.faultStop_or s ?_)
        · simpa [FaultMask.isFatal_or, checkData_isFatal] using hbad
        · unfold addressFault checkData raiseIf
          split <;> split <;> split <;> rfl
      · simp [FaultMask.isFatal_or, checkData_isFatal] at h
        exact absurd h.2 hbad
  -- a store
  have store : ∀ (n : Width) (imm : Imm16), i.control = Control.store n →
      execEX i (s.reg (rsOf w)) (s.reg (rtOf w)) (nextPc s.pc) s = exAddress imm (s.reg (rsOf w)) s →
      exec i s = storeFrom n (rtOf w) (rsOf w) imm s → resolve i (nextPc s.pc) s.reg = none →
      ∃ u, exec i s = .next u ∧ SameData u (finishEx (idLatch (fetchedLatch s.pc w) s) s) ∧
        (u.stopped = false → u.pc = (resolve i (nextPc s.pc) s.reg).getD (nextPc s.pc)) := by
    intro n imm h1 ho he hres
    have hxo := hx (s.reg (rsOf w)) (s.reg (rtOf w)) (nextPc s.pc)
    rw [ho] at hxo
    have hfat : (exAddress imm (s.reg (rsOf w)) s).fm.isFatal = false := by rw [← hxo]; simp
    rw [finishEx_access _ _ hs (by
      simp [idLatch, fetchedLatch, hc, h1, Control.store, Control.reads, Control.none])]
    simp only [idLatch, fetchedLatch, hc, h1, hxo, exLatch, Control.store, Control.reads, Control.none]
    have hres' : (exAddress imm (s.reg (rsOf w)) s).result = effectiveAddress (s.reg (rsOf w)) imm := rfl
    rw [hres']
    by_cases hbad : checkData s.par (effectiveAddress (s.reg (rsOf w)) imm) n = FaultMask.clear
    · rw [he, storeFrom_ok hbad]
      refine ⟨_, rfl, ?_, fun _ => by simp [hres]⟩
      have hst : (exAddress imm (s.reg (rsOf w)) s).state = s := rfl
      simp only [hbad, if_true, wbState, wbMask, memLatch, memData, memState, hst,
        State.logMask_par, Bool.false_eq_true, if_false, State.logMask_clear, hc, h1, Control.store, Control.reads, Control.none]
      refine (SameData.endStep_nonfatal _ hfat).trans ?_
      exact ⟨rfl, rfl, rfl, rfl, rfl, rfl, rfl, rfl, fun _ => rfl⟩
    · rw [he, storeFrom_bad hbad]
      refine ⟨_, rfl, ?_, fun h => ?_⟩
      · simp only [hbad, if_false]
        refine (SameData.endStep_fatal _ ?_).trans (SameData.faultStop_or s ?_)
        · simpa [FaultMask.isFatal_or, checkData_isFatal] using hbad
        · unfold addressFault checkData raiseIf
          split <;> split <;> split <;> rfl
      · simp [FaultMask.isFatal_or, checkData_isFatal] at h
        exact absurd h.2 hbad
  have link : ∀ (t : Target26), i = .jal t →
      ∃ u, exec i s = .next u ∧ SameData u (finishEx (idLatch (fetchedLatch s.pc w) s) s) ∧
        (u.stopped = false → u.pc = (resolve i (nextPc s.pc) s.reg).getD (nextPc s.pc)) := by
    intro t ht
    have hxo := hx (s.reg (rsOf w)) (s.reg (rtOf w)) (nextPc s.pc)
    subst ht
    refine ⟨_, rfl, ?_, fun _ => by simp [resolve]⟩
    rw [finishEx_noAccess _ _ hs (by simp [idLatch, fetchedLatch, hc, Instr.control, Control.writes, Control.none])
      (by simp [idLatch, fetchedLatch, hc, Instr.control, Control.writes, Control.none])]
    simp only [idLatch, fetchedLatch, hc, hxo, Instr.control, Control.writes, wbState, wbMask, if_true]
    exact sameData_endStep_clear _ _ ⟨rfl, rfl, rfl, rfl, rfl, rfl, rfl, rfl, fun _ => by
      simp [execEX, exLink, exPure, writeBackMask, raiseIf, linkReg]⟩
  cases i <;> simp only [Instr.refill] at hr
  case nop => exact plain _ rfl rfl rfl rfl rfl rfl
  case halt => exact plain _ rfl rfl rfl rfl rfl rfl
  case mult => cases hr; exact plain _ rfl rfl rfl rfl rfl rfl
  case multu => cases hr; exact plain _ rfl rfl rfl rfl rfl rfl
  case jr => cases hr; exact jump _ rfl rfl rfl rfl rfl rfl
  case j => cases hr; exact jump _ rfl rfl rfl rfl rfl rfl
  case jal => exact link _ rfl
  case beq => cases hr; refine jump _ rfl rfl rfl rfl rfl ?_; simp only [resolve]; split <;> rfl
  case bne => cases hr; refine jump _ rfl rfl rfl rfl rfl ?_; simp only [resolve]; split <;> rfl
  case bgtz => cases hr; refine jump _ rfl rfl rfl rfl rfl ?_; simp only [resolve]; split <;> rfl
  case lw => cases hr; exact load _ _ _ rfl rfl rfl rfl
  case lh => cases hr; exact load _ _ _ rfl rfl rfl rfl
  case lhu => cases hr; exact load _ _ _ rfl rfl rfl rfl
  case lb => cases hr; exact load _ _ _ rfl rfl rfl rfl
  case lbu => cases hr; exact load _ _ _ rfl rfl rfl rfl
  case sw => cases hr; exact store _ _ rfl rfl rfl rfl
  case sh => cases hr; exact store _ _ rfl rfl rfl rfl
  case sb => cases hr; exact store _ _ rfl rfl rfl rfl
  all_goals cases hr; exact alu _ _ rfl rfl rfl rfl rfl rfl rfl

end Sys2Proof.Machine
end

