-- ==== Sys2Proof/Laws/PerInstr.lean ====
section
/-! SUPPORT. What holds of every instruction as syntax, one lemma per constructor: the decoder's control outputs
never ask for two things at once (spec/30_encoding.md R104; spec/46_pipeline_engine.md R213). -/

namespace Sys2Proof.Laws.ControlExclusive

/-- No instruction both loads and stores, a load writes a register, and neither a store nor a register-reading
control instruction writes one. -/
def Statement (i : Instr) : Prop :=
  (i.control.memRead && i.control.memWrite) = false ∧ (i.control.memRead && !i.control.regWrite) = false ∧
    (i.control.memWrite && i.control.regWrite) = false ∧ (i.isCtlReg && i.control.regWrite) = false

theorem nop : Statement .nop := ⟨rfl, rfl, rfl, rfl⟩
theorem add (rd rs rt : RegIdx) : Statement (.add rd rs rt) := ⟨rfl, rfl, rfl, rfl⟩
theorem addu (rd rs rt : RegIdx) : Statement (.addu rd rs rt) := ⟨rfl, rfl, rfl, rfl⟩
theorem sub (rd rs rt : RegIdx) : Statement (.sub rd rs rt) := ⟨rfl, rfl, rfl, rfl⟩
theorem and (rd rs rt : RegIdx) : Statement (.and rd rs rt) := ⟨rfl, rfl, rfl, rfl⟩
theorem or (rd rs rt : RegIdx) : Statement (.or rd rs rt) := ⟨rfl, rfl, rfl, rfl⟩
theorem xor (rd rs rt : RegIdx) : Statement (.xor rd rs rt) := ⟨rfl, rfl, rfl, rfl⟩
theorem nor (rd rs rt : RegIdx) : Statement (.nor rd rs rt) := ⟨rfl, rfl, rfl, rfl⟩
theorem nand (rd rs rt : RegIdx) : Statement (.nand rd rs rt) := ⟨rfl, rfl, rfl, rfl⟩
theorem slt (rd rs rt : RegIdx) : Statement (.slt rd rs rt) := ⟨rfl, rfl, rfl, rfl⟩
theorem sll (rd rt : RegIdx) (shamt : Shamt) : Statement (.sll rd rt shamt) := ⟨rfl, rfl, rfl, rfl⟩
theorem srl (rd rt : RegIdx) (shamt : Shamt) : Statement (.srl rd rt shamt) := ⟨rfl, rfl, rfl, rfl⟩
theorem sra (rd rt : RegIdx) (shamt : Shamt) : Statement (.sra rd rt shamt) := ⟨rfl, rfl, rfl, rfl⟩
theorem mult (rs rt : RegIdx) : Statement (.mult rs rt) := ⟨rfl, rfl, rfl, rfl⟩
theorem multu (rs rt : RegIdx) : Statement (.multu rs rt) := ⟨rfl, rfl, rfl, rfl⟩
theorem mfhi (rd : RegIdx) : Statement (.mfhi rd) := ⟨rfl, rfl, rfl, rfl⟩
theorem mflo (rd : RegIdx) : Statement (.mflo rd) := ⟨rfl, rfl, rfl, rfl⟩
theorem jr (rs : RegIdx) : Statement (.jr rs) := ⟨rfl, rfl, rfl, rfl⟩
theorem addi (rt rs : RegIdx) (imm : Imm16) : Statement (.addi rt rs imm) := ⟨rfl, rfl, rfl, rfl⟩
theorem addiu (rt rs : RegIdx) (imm : Imm16) : Statement (.addiu rt rs imm) := ⟨rfl, rfl, rfl, rfl⟩
theorem lui (rt : RegIdx) (imm : Imm16) : Statement (.lui rt imm) := ⟨rfl, rfl, rfl, rfl⟩
theorem andi (rt rs : RegIdx) (imm : Imm16) : Statement (.andi rt rs imm) := ⟨rfl, rfl, rfl, rfl⟩
theorem ori (rt rs : RegIdx) (imm : Imm16) : Statement (.ori rt rs imm) := ⟨rfl, rfl, rfl, rfl⟩
theorem nori (rt rs : RegIdx) (imm : Imm16) : Statement (.nori rt rs imm) := ⟨rfl, rfl, rfl, rfl⟩
theorem slti (rt rs : RegIdx) (imm : Imm16) : Statement (.slti rt rs imm) := ⟨rfl, rfl, rfl, rfl⟩
theorem lw (rt rs : RegIdx) (imm : Imm16) : Statement (.lw rt rs imm) := ⟨rfl, rfl, rfl, rfl⟩
theorem lh (rt rs : RegIdx) (imm : Imm16) : Statement (.lh rt rs imm) := ⟨rfl, rfl, rfl, rfl⟩
theorem lhu (rt rs : RegIdx) (imm : Imm16) : Statement (.lhu rt rs imm) := ⟨rfl, rfl, rfl, rfl⟩
theorem lb (rt rs : RegIdx) (imm : Imm16) : Statement (.lb rt rs imm) := ⟨rfl, rfl, rfl, rfl⟩
theorem lbu (rt rs : RegIdx) (imm : Imm16) : Statement (.lbu rt rs imm) := ⟨rfl, rfl, rfl, rfl⟩
theorem sw (rt rs : RegIdx) (imm : Imm16) : Statement (.sw rt rs imm) := ⟨rfl, rfl, rfl, rfl⟩
theorem sh (rt rs : RegIdx) (imm : Imm16) : Statement (.sh rt rs imm) := ⟨rfl, rfl, rfl, rfl⟩
theorem sb (rt rs : RegIdx) (imm : Imm16) : Statement (.sb rt rs imm) := ⟨rfl, rfl, rfl, rfl⟩
theorem beq (rs rt : RegIdx) (imm : Imm16) : Statement (.beq rs rt imm) := ⟨rfl, rfl, rfl, rfl⟩
theorem bne (rs rt : RegIdx) (imm : Imm16) : Statement (.bne rs rt imm) := ⟨rfl, rfl, rfl, rfl⟩
theorem bgtz (rs : RegIdx) (imm : Imm16) : Statement (.bgtz rs imm) := ⟨rfl, rfl, rfl, rfl⟩
theorem j (target : Target26) : Statement (.j target) := ⟨rfl, rfl, rfl, rfl⟩
theorem jal (target : Target26) : Statement (.jal target) := ⟨rfl, rfl, rfl, rfl⟩
theorem halt : Statement .halt := ⟨rfl, rfl, rfl, rfl⟩

end Sys2Proof.Laws.ControlExclusive
end

