-- ==== Sys2Proof/Laws/Pipeline.lean ====
section
/-! SUPPORT. What one clock cycle can do, said once (`clock_next`), and what its parts leave alone. -/

namespace Sys2Proof.Machine

/-- A machine that runs has not been stopped (R41). -/
theorem running_stopped {s : State} {b} (h : statusOf b s = .running) : s.stopped = false := by
  unfold statusOf at h
  split at h
  · cases h
  · next h' => simpa using h'

/-- All that one clock cycle can do: a fatal fault in MEM, a fatal fault in ID, or the commit of the whole cycle
(R222, R225). -/
theorem clock_next {s t : State} (h : clock s = .next t) :
    pipeStatus s = .running ∧
    ((((memMask s.pipe.exmem s.par).isFatal = true) ∧ t = stopInMem s) ∨
     ((memMask s.pipe.exmem s.par).isFatal = false ∧ (∃ e, decodeWord s.par.opc s.pipe.ifid.instr = .error e) ∧ t = stopInId s) ∨
     ((memMask s.pipe.exmem s.par).isFatal = false ∧ ∃ i f, decodeWord s.par.opc s.pipe.ifid.instr = .ok i ∧ fetch s s.pc = .word f ∧
        t = commit (idSignal i s.pipe (afterEx s)) f s)) := by
  unfold clock whileRunning at h
  split at h
  · next hr =>
    refine ⟨hr, ?_⟩
    unfold clockCycle at h
    split at h
    · next hm => cases h; exact .inl ⟨hm, rfl⟩
    · next hm =>
      have hm' := Bool.eq_false_iff.2 hm
      split at h
      · next e he => cases h; exact .inr (.inl ⟨hm', ⟨e, he⟩, rfl⟩)
      · next i hi =>
        split at h
        · next f hf => cases h; exact .inr (.inr ⟨hm', i, f, hi, hf, rfl⟩)
        · cases h
        · cases h
  all_goals cases h

/-- All that one step of the sequential model can do: an instruction, or the stop at an illegal word. -/
theorem step_next {s t : State} (h : step s = .next t) :
    seqStatus s = .running ∧ ∃ w, fetch s s.pc = .word w ∧
      ((∃ i, decodeWord s.par.opc w = .ok i ∧ exec i s = .next t) ∨
        ((∃ e, decodeWord s.par.opc w = .error e) ∧ t = illegalStop s)) := by
  unfold step whileRunning at h
  split at h
  · next hr =>
    refine ⟨hr, ?_⟩
    unfold fetchThen at h
    split at h
    · next w hw =>
      refine ⟨w, hw, ?_⟩
      split at h
      · next i hi => exact .inl ⟨i, hi, h⟩
      · next e he => cases h; exact .inr ⟨⟨e, he⟩, rfl⟩
    · cases h
    · cases h
  all_goals cases h

theorem memMask_clear {e : ExMem} {p : Params} (h : (memMask e p).isFatal = false) : memMask e p = FaultMask.clear := by
  unfold memMask at *
  split
  · next ha => simpa [ha, checkData_isFatal] using h
  · rfl

theorem wbMask_cases (m : MemWb) : wbMask m = 0x01#6 ∨ wbMask m = 0x00#6 := by
  unfold wbMask; split
  · exact writeBackMask_cases _
  · exact .inr rfl

@[simp] theorem wbMask_isFatal (m : MemWb) : (wbMask m).isFatal = false := by
  rcases wbMask_cases m with h | h <;> rw [h] <;> rfl

theorem maskAfterEx_isFatal {s : State} (hm : (memMask s.pipe.exmem s.par).isFatal = false) : (maskAfterEx s).isFatal = false := by
  simp [maskAfterEx, maskAfterMem, FaultMask.isFatal_or, hm, exOut, exStage]

@[simp] theorem afterEx_x (s : State) : (afterEx s).x = (wbState s.pipe.memwb s).x := by simp [afterEx, exOut, exStage, afterMem]

theorem reg_afterEx (s : State) (r) : (afterEx s).reg r = (wbState s.pipe.memwb s).reg r := State.reg_congr (by simp) r

@[simp] theorem afterEx_pipe (s : State) : (afterEx s).pipe = s.pipe := by simp [afterEx, exOut, exStage, afterMem]

@[simp] theorem afterEx_pc (s : State) : (afterEx s).pc = s.pc := by simp [afterEx, exOut, exStage, afterMem]

@[simp] theorem afterEx_imem (s : State) : (afterEx s).imem = s.imem := by simp [afterEx, exOut, exStage, afterMem]

@[simp] theorem afterEx_par (s : State) : (afterEx s).par = s.par := by simp [afterEx, exOut, exStage, afterMem]

@[simp] theorem afterEx_stopped (s : State) : (afterEx s).stopped = s.stopped := by simp [afterEx, exOut, exStage, afterMem]

@[simp] theorem afterEx_cycle (s : State) : (afterEx s).cycle = s.cycle := by simp [afterEx, exOut, exStage, afterMem]

@[simp] theorem afterEx_faultLog (s : State) : (afterEx s).faultLog = s.faultLog := by simp [afterEx, exOut, exStage, afterMem]

theorem commit_sameData {s : State} (hm : (memMask s.pipe.exmem s.par).isFatal = false) (sig f) :
    SameData (commit sig f s) ((afterEx s).logMask (maskAfterEx s)) := by
  refine (SameData.endStep_nonfatal _ (maskAfterEx_isFatal hm)).trans ?_
  exact (⟨rfl, rfl, rfl, rfl, rfl, rfl, rfl, rfl, fun _ => rfl⟩)

theorem control_memWrite {o : Opc} {w : Word} (h : (controlOf o w).memWrite = true) : (controlOf o w).regWrite = false ∧ (controlOf o w).memRead = false ∧ (controlOf o w).hasRt = true := by
  unfold controlOf at *
  split at h
  · next i _ => cases i <;> simp_all [Instr.control, Control.none, Control.reads, Control.writes, Control.load, Control.store]
  · simp [Control.none] at h

theorem mem_srcs_rs {o : Opc} {w : Word} (h : (controlOf o w).hasRs = true) (h0 : rsOf w ≠ 0#5) : (srcs o w).contains (rsOf w) = true := by
  simp [srcs, h, h0]

theorem mem_srcs_rt {o : Opc} {w : Word} (h : (controlOf o w).hasRt = true) (h0 : rtOf w ≠ 0#5) : (srcs o w).contains (rtOf w) = true := by
  simp [srcs, h, h0]

theorem legal_ok {o w i} (h : decodeWord o w = .ok i) : legalWord o w = true := by simp [legalWord, h]

theorem latch_exLatch {o : Opc} {p : Pipe} (h : LatchInv o p) (r b : Word) :
   (exLatch p.idex r b).writeDest = (controlOf o p.idex.instr).dest ∧ (exLatch p.idex r b).regWrite = (controlOf o p.idex.instr).regWrite ∧
   (exLatch p.idex r b).memRead = (controlOf o p.idex.instr).memRead ∧ (exLatch p.idex r b).memWrite = (controlOf o p.idex.instr).memWrite :=
  ⟨h.idexDest, h.idexRegWrite, h.idexMemRead, h.idexMemWrite⟩

theorem finishId_ok {f : IfId} {i} {s : State} (hd : decodeWord s.par.opc f.instr = .ok i) (hs : s.stopped = false) :
    finishId f s = finishEx (idLatch f s) { s with pc := (resolve i f.pcNext s.reg).getD s.pc } := by
  simp [finishId, hs, hd]

/-- MEM's register write reaches the file one cycle later than WB's (R212, R213). -/
theorem reg_older (s : State) (r : RegIdx) :
    (wbState (nextMemWb s) (wbState s.pipe.memwb s)).reg r =
      if (s.pipe.exmem.regWrite = true ∧ r = s.pipe.exmem.writeDest ∧ r ≠ 0#5) then (nextMemWb s).rtData else
      if (s.pipe.memwb.regWrite = true ∧ r = s.pipe.memwb.writeDest ∧ r ≠ 0#5) then s.pipe.memwb.rtData else s.reg r := by
  rw [reg_wbState, reg_wbState]; rfl

/-- The two exclusive ways of the pipeline's and the sequential model's memory to change (R213). -/
theorem afterEx_dmem (s : State) : (afterEx s).dmem = (memState s.pipe.exmem s).dmem := by
  simp only [afterEx, exOut, exStage, execEXWord_dmem, afterMem, memState]
  split <;> simp

end Sys2Proof.Machine
end

