-- ==== Sys2Proof/Tests/Slice0.lean ====
section
/-! SUPPORT. The package's own tests: decoding of words the spec prints or lays out, one step of each instruction
with the values of the spec's examples, one clock cycle at a time on pipelines laid out by hand, and for every
statement with hypotheses a state and operands that meet them. Expected values are the spec's (the rule or the
test vector is named) or worked out by hand from the rule. -/

namespace Sys2Proof.Tests

open Sys2Proof.Machine

/-! ## Helpers -/

/-- A machine of 32 instruction words and 64 data bytes with a program, registers and data. -/
def machine (words : List Word) (regs : List (RegIdx × Word)) (bytes : List Byte) : State :=
  regs.foldl (fun s p => s.setReg p.1 p.2)
    (resetWith ⟨32, 64, 100, Opc.default⟩ ⟨0#32, words, 0#32, bytes⟩)

/-- The same with the pc elsewhere and no program. -/
def at_ (pc : Word) (regs : List (RegIdx × Word)) : State := { machine [] regs [] with pc := pc }

/-- The result is a next state that passes the check. -/
def gives (r : Result) (check : State → Bool) : Bool :=
  match r with
  | .next t => check t
  | .fault _ | .refused _ => false

theorem exists_next {r : Result} {check : State → Bool} (h : gives r check = true) :
    ∃ t, r = .next t ∧ check t = true := by
  unfold gives at h
  split at h
  · next t => exact ⟨t, rfl, h⟩
  all_goals cases h

/-- A pipeline laid out by hand: the words in ID (address 12), EX, MEM and WB with the latch fields of a run, and
the values MEM and WB work on. -/
def flight (s : State) (wId wEx wMem wWb aluMem datMem datWb : Word) : State :=
  { s with
    pc := 16#32
    pipe :=
      { ifid := fetchedLatch 12#32 wId
        idex := idLatch (fetchedLatch 8#32 wEx) s
        exmem := exLatch (idLatch (fetchedLatch 4#32 wMem) s) aluMem datMem
        memwb := ⟨wWb, datWb, (controlOf s.par.opc wWb).dest, (controlOf s.par.opc wWb).regWrite⟩ } }

/-- The 16 data bytes of the load examples (R171 to R175): 12 34 56 78 at 8, and 87 65 at 12. -/
def data : List Byte := [0, 0, 0, 0, 0, 0, 0, 0, 0x12, 0x34, 0x56, 0x78, 0x87, 0x65, 0, 0]

/-! ## WellFormed smoke test: the one check there is (R99, R140) -/

theorem test_illFormed_refused : (Instr.sll 0 0 0).wellFormed Opc.default = false := by decide

theorem test_wellFormed_accepts : (Instr.sll 0 0 1).wellFormed Opc.default = true ∧ (Instr.sll 0 1 0).wellFormed Opc.default = true ∧
    (Instr.sll 1 0 0).wellFormed Opc.default = true ∧ Instr.nop.wellFormed Opc.default = true := by decide

/-! ## Decoding: a word written out from the spec's encoding for every constructor -/

theorem test_decode_nop : decodeTableWord 32 0x00000000 = some (.nop) := by decide  -- R201
theorem test_decode_add : decodeTableWord 32 0x00430820 = some (.add 1 2 3) := by decide  -- R131
theorem test_decode_addu : decodeTableWord 32 0x00221821 = some (.addu 3 1 2) := by decide  -- R132
theorem test_decode_sub : decodeTableWord 32 0x00221822 = some (.sub 3 1 2) := by decide  -- R133
theorem test_decode_and : decodeTableWord 32 0x00221824 = some (.and 3 1 2) := by decide  -- R134
theorem test_decode_or : decodeTableWord 32 0x00221825 = some (.or 3 1 2) := by decide  -- R135
theorem test_decode_xor : decodeTableWord 32 0x00221826 = some (.xor 3 1 2) := by decide  -- R136
theorem test_decode_nor : decodeTableWord 32 0x00221827 = some (.nor 3 1 2) := by decide  -- R137
theorem test_decode_nand : decodeTableWord 32 0x00221828 = some (.nand 3 1 2) := by decide  -- R138
theorem test_decode_slt : decodeTableWord 32 0x0022182A = some (.slt 3 1 2) := by decide  -- R139
theorem test_decode_sll : decodeTableWord 32 0x00011100 = some (.sll 2 1 4) := by decide  -- R140
theorem test_decode_srl : decodeTableWord 32 0x00011102 = some (.srl 2 1 4) := by decide  -- R141
theorem test_decode_sra : decodeTableWord 32 0x00011103 = some (.sra 2 1 4) := by decide  -- R142
theorem test_decode_mult : decodeTableWord 32 0x00220018 = some (.mult 1 2) := by decide  -- R150
theorem test_decode_multu : decodeTableWord 32 0x00220019 = some (.multu 1 2) := by decide  -- R151
theorem test_decode_mfhi : decodeTableWord 32 0x00002010 = some (.mfhi 4) := by decide  -- R152
theorem test_decode_mflo : decodeTableWord 32 0x00002812 = some (.mflo 5) := by decide  -- R153
theorem test_decode_jr : decodeTableWord 32 0x03E00008 = some (.jr 31) := by decide  -- R191
theorem test_decode_addi : decodeTableWord 32 0x2001FFFB = some (.addi 1 0 0xFFFB) := by decide  -- R161
theorem test_decode_addiu : decodeTableWord 32 0x24018000 = some (.addiu 1 0 0x8000) := by decide  -- R162
theorem test_decode_lui : decodeTableWord 32 0x3C011234 = some (.lui 1 0x1234) := by decide  -- R163
theorem test_decode_andi : decodeTableWord 32 0x3022FF00 = some (.andi 2 1 0xFF00) := by decide  -- R164
theorem test_decode_ori : decodeTableWord 32 0x34228001 = some (.ori 2 1 0x8001) := by decide  -- R165
theorem test_decode_nori : decodeTableWord 32 0x382200FF = some (.nori 2 1 0x00FF) := by decide  -- R166
theorem test_decode_slti : decodeTableWord 32 0x2822000A = some (.slti 2 1 10) := by decide  -- R167
theorem test_decode_lw : decodeTableWord 32 0x8C220000 = some (.lw 2 1 0) := by decide  -- R171
theorem test_decode_lh : decodeTableWord 32 0x84220000 = some (.lh 2 1 0) := by decide  -- R172
theorem test_decode_lhu : decodeTableWord 32 0x94220000 = some (.lhu 2 1 0) := by decide  -- R173
theorem test_decode_lb : decodeTableWord 32 0x80220000 = some (.lb 2 1 0) := by decide  -- R174
theorem test_decode_lbu : decodeTableWord 32 0x90220000 = some (.lbu 2 1 0) := by decide  -- R175
theorem test_decode_sw : decodeTableWord 32 0xAC220004 = some (.sw 2 1 4) := by decide  -- R176
theorem test_decode_sh : decodeTableWord 32 0xA4220002 = some (.sh 2 1 2) := by decide  -- R177
theorem test_decode_sb : decodeTableWord 32 0xA0220003 = some (.sb 2 1 3) := by decide  -- R178
theorem test_decode_beq : decodeTableWord 32 0x10000004 = some (.beq 0 0 4) := by decide  -- R186
theorem test_decode_bne : decodeTableWord 32 0x1422FFFD = some (.bne 1 2 0xFFFD) := by decide  -- R187
theorem test_decode_bgtz : decodeTableWord 32 0x1C200002 = some (.bgtz 1 2) := by decide  -- R188
theorem test_decode_j : decodeTableWord 32 0x08000010 = some (.j 0x10) := by decide  -- R189
theorem test_decode_jal : decodeTableWord 32 0x0C000020 = some (.jal 0x20) := by decide  -- R190
theorem test_decode_halt : decodeTableWord 32 0xFFFFFFFF = some (.halt) := by decide  -- R200

/-- Illegal opcodes and functs (section 2.1 of spec/95_test_vectors.md). -/
theorem test_decode_illegal : [0x00000001, 0x0000003F, 0x00000004, 0x0000001A, 0x0000002B, 0x04000000, 0x18000000,
    0x2C000000, 0x40000000, 0x7C000000, 0xF8000000, 0x98000000, 0xBC000000].all
      (fun w => (decodeTableWord 32 w).isNone) = true := by decide

/-- Unused fields are not looked at (section 2.1; R101). -/
theorem test_decode_unused : decodeTableWord 32 0x00221FE0 = some (.add 3 1 2) ∧
    decodeTableWord 32 0x03FFFFC8 = some (.jr 31) ∧ decodeTableWord 32 0xFC000001 = some .halt ∧
    decodeTableWord 32 0x00000040 = some (.sll 0 0 1) := by decide

/-- Encoding gives the spec's words (E8 of section 1; R106). -/
theorem test_encode : encode Opc.default (.lui 31 0x8000) = 0x3C1F8000#32 ∧
    encode Opc.default (.jal 0x49) = 0x0C000049#32 ∧ encode Opc.default .halt = 0xFFFFFFFF#32 ∧
    encode Opc.default (.add 3 1 2) = 0x00221820#32 := by decide

/-- Another numbering (D1): the primary opcodes of ADDI and ADDIU, and the functs of ADD and SUB, exchanged. -/
def otherOpc : Opc :=
  { op := { Opc.default.op with addi := 0x09#6, addiu := 0x08#6 }
    fn := { Opc.default.fn with add := 0x22#6, sub := 0x20#6 } }

/-- A machine built with it decodes and runs the word of ADD as SUB: 5 - 7 (R133). -/
theorem test_other_numbering : otherOpc.distinct = true ∧
    gives (step { machine [0x00221820#32] [(1, 5#32), (2, 7#32)] [] with par := ⟨0#32, 32, 64, 100, otherOpc⟩ })
      (fun t => t.reg 3 == 0xFFFFFFFE#32 && t.par.opc == otherOpc) = true := by decide

/-! ## One step of each instruction -/

/-- Register `r` holds `v`, the pc is 4 and the log is `log`. -/
def wrote (r : RegIdx) (v : Word) (log : List (Nat × FaultMask)) (t : State) : Bool :=
  t.reg r == v && t.pc == 4#32 && t.faultLog == log && t.cycle == 1 && !t.stopped

theorem test_add_overflow_writes : gives (exec (.add 1 2 3) (machine [] [(2, 0x7FFFFFFF#32), (3, 0x00000001#32)] [])) (wrote 1 0x80000000#32 [(0, 0x02#6)]) = true := by
  decide  -- R131, E3
theorem test_add_minus_one : gives (exec (.add 1 2 3) (machine [] [(2, 0xFFFFFFFF#32), (3, 0x00000001#32)] [])) (wrote 1 0x00000000#32 []) = true := by
  decide  -- R131
theorem test_addu_wraps : gives (exec (.addu 3 1 2) (machine [] [(1, 0xFFFFFFFF#32), (2, 0x00000002#32)] [])) (wrote 3 0x00000001#32 []) = true := by
  decide  -- R132
theorem test_addu_no_overflow : gives (exec (.addu 3 1 2) (machine [] [(1, 0x7FFFFFFF#32), (2, 0x00000001#32)] [])) (wrote 3 0x80000000#32 []) = true := by
  decide  -- R132
theorem test_sub : gives (exec (.sub 3 1 2) (machine [] [(1, 0x00000005#32), (2, 0x00000007#32)] [])) (wrote 3 0xFFFFFFFE#32 []) = true := by
  decide  -- R133
theorem test_sub_overflow_exact : gives (exec (.sub 3 1 2) (machine [] [(1, 0x00000000#32), (2, 0x80000000#32)] [])) (wrote 3 0x80000000#32 [(0, 0x02#6)]) = true := by
  decide  -- R133, D17
theorem test_and : gives (exec (.and 3 1 2) (machine [] [(1, 0xFF00FF00#32), (2, 0x0FF00FF0#32)] [])) (wrote 3 0x0F000F00#32 []) = true := by
  decide  -- R134
theorem test_or : gives (exec (.or 3 1 2) (machine [] [(1, 0xFF00FF00#32), (2, 0x0FF00FF0#32)] [])) (wrote 3 0xFFF0FFF0#32 []) = true := by
  decide  -- R135
theorem test_xor : gives (exec (.xor 3 1 2) (machine [] [(1, 0xFF00FF00#32), (2, 0x0FF00FF0#32)] [])) (wrote 3 0xF0F0F0F0#32 []) = true := by
  decide  -- R136
theorem test_nor : gives (exec (.nor 3 1 2) (machine [] [(1, 0xFF00FF00#32), (2, 0x0FF00FF0#32)] [])) (wrote 3 0x000F000F#32 []) = true := by
  decide  -- R137
theorem test_nand : gives (exec (.nand 3 1 2) (machine [] [(1, 0xFF00FF00#32), (2, 0x0FF00FF0#32)] [])) (wrote 3 0xF0FFF0FF#32 []) = true := by
  decide  -- R138
theorem test_slt_signed : gives (exec (.slt 3 1 2) (machine [] [(1, 0xFFFFFFFF#32), (2, 0x00000001#32)] [])) (wrote 3 0x00000001#32 []) = true := by
  decide  -- R139
theorem test_slt_reversed : gives (exec (.slt 3 1 2) (machine [] [(1, 0x7FFFFFFF#32), (2, 0x80000000#32)] [])) (wrote 3 0x00000000#32 []) = true := by
  decide  -- R139
theorem test_sll : gives (exec (.sll 2 1 4) (machine [] [(1, 0x12345678#32)] [])) (wrote 2 0x23456780#32 []) = true := by
  decide  -- R140
theorem test_srl : gives (exec (.srl 2 1 4) (machine [] [(1, 0x87654321#32)] [])) (wrote 2 0x08765432#32 []) = true := by
  decide  -- R141
theorem test_sra : gives (exec (.sra 2 1 4) (machine [] [(1, 0x87654321#32)] [])) (wrote 2 0xF8765432#32 []) = true := by
  decide  -- R142
theorem test_sll_zero_is_not_nop : gives (exec (.sll 0 0 1) (machine [] [] [])) (wrote 0 0x00000000#32 [(0, 0x01#6)]) = true := by
  decide  -- R99, R140
theorem test_addi_sign_extends : gives (exec (.addi 1 0 0xFFFB) (machine [] [] [])) (wrote 1 0xFFFFFFFB#32 []) = true := by
  decide  -- R161
theorem test_addi_overflow_writes : gives (exec (.addi 1 2 0xFFFF) (machine [] [(2, 0x80000000#32)] [])) (wrote 1 0x7FFFFFFF#32 [(0, 0x02#6)]) = true := by
  decide  -- R161
theorem test_addiu_sign_extends : gives (exec (.addiu 1 0 0x8000) (machine [] [] [])) (wrote 1 0xFFFF8000#32 []) = true := by
  decide  -- R162
theorem test_addiu_no_overflow : gives (exec (.addiu 1 2 1) (machine [] [(2, 0x7FFFFFFF#32)] [])) (wrote 1 0x80000000#32 []) = true := by
  decide  -- R162
theorem test_lui : gives (exec (.lui 1 0x1234) (machine [] [] [])) (wrote 1 0x12340000#32 []) = true := by
  decide  -- R163
theorem test_andi_zero_extends : gives (exec (.andi 2 1 0xFF00) (machine [] [(1, 0x12345678#32)] [])) (wrote 2 0x00005600#32 []) = true := by
  decide  -- R164
theorem test_ori_zero_extends : gives (exec (.ori 2 1 0x8001) (machine [] [(1, 0x12340000#32)] [])) (wrote 2 0x12348001#32 []) = true := by
  decide  -- R165
theorem test_nori : gives (exec (.nori 2 1 0x00FF) (machine [] [(1, 0x12340000#32)] [])) (wrote 2 0xEDCBFF00#32 []) = true := by
  decide  -- R166
theorem test_slti : gives (exec (.slti 2 1 10) (machine [] [(1, 0x00000009#32)] [])) (wrote 2 0x00000001#32 []) = true := by
  decide  -- R167
theorem test_slti_negative_immediate : gives (exec (.slti 2 1 0xFFFF) (machine [] [(1, 0x00000000#32)] [])) (wrote 2 0x00000000#32 []) = true := by
  decide  -- R167
theorem test_lw : gives (exec (.lw 2 1 0) (machine [] [(1, 0x00000008#32)] data)) (wrote 2 0x12345678#32 []) = true := by
  decide  -- R171
theorem test_lh_sign_extends : gives (exec (.lh 2 1 0) (machine [] [(1, 0x0000000C#32)] data)) (wrote 2 0xFFFF8765#32 []) = true := by
  decide  -- R172
theorem test_lhu_zero_extends : gives (exec (.lhu 2 1 0) (machine [] [(1, 0x0000000C#32)] data)) (wrote 2 0x00008765#32 []) = true := by
  decide  -- R173
theorem test_lb_sign_extends : gives (exec (.lb 2 1 0) (machine [] [(1, 0x0000000C#32)] data)) (wrote 2 0xFFFFFF87#32 []) = true := by
  decide  -- R174
theorem test_lbu_zero_extends : gives (exec (.lbu 2 1 0) (machine [] [(1, 0x0000000C#32)] data)) (wrote 2 0x00000087#32 []) = true := by
  decide  -- R175

/-- The data memory reads these bytes from address 8 up. -/
def stored (bytes : List Byte) (t : State) : Bool :=
  (List.range 8).map (fun k => t.dmem.read (8 + k)) == bytes && t.pc == 4#32 && t.faultLog == []

theorem test_sw : gives (exec (.sw 2 1 4) (machine [] [(1, 8#32), (2, 0xAABBCCDD#32)] data))
    (stored [0x12, 0x34, 0x56, 0x78, 0xAA, 0xBB, 0xCC, 0xDD]) = true := by decide  -- R176
theorem test_sh : gives (exec (.sh 2 1 2) (machine [] [(1, 8#32), (2, 0xAABBCCDD#32)] data))
    (stored [0x12, 0x34, 0xCC, 0xDD, 0x87, 0x65, 0, 0]) = true := by decide  -- R177
theorem test_sb : gives (exec (.sb 2 1 3) (machine [] [(1, 8#32), (2, 0xAABBCCDD#32)] data))
    (stored [0x12, 0x34, 0x56, 0xDD, 0x87, 0x65, 0, 0]) = true := by decide  -- R178

/-- The machine stopped with this mask logged, the counter not advanced and memory as it was. -/
def stoppedWith (fm : FaultMask) (s t : State) : Bool :=
  t.stopped && t.faultLog == s.faultLog ++ [(s.cycle, fm)] && t.cycle == s.cycle && t.dmem == s.dmem && t.x == s.x

/-- `DMEM_BYTES` is 64 here: past the end and misaligned at 66 - 4, both tests made (R67). -/
theorem test_sw_both_faults : let s := machine [] [(2, 0x11223344#32)] data
    gives (exec (.sw 2 0 62) s) (stoppedWith 0x18#6 s) = true := by decide
theorem test_lb_past_the_end : let s := machine [] [] data
    gives (exec (.lb 3 0 64) s) (stoppedWith 0x08#6 s) = true := by decide  -- R67
theorem test_address_overflow_then_fault : let s := machine [] [(1, 0x7FFFFFFC#32)] data
    gives (exec (.lw 3 1 4) s) (stoppedWith 0x0A#6 s) = true := by decide  -- R170: 0x7FFFFFFC + 4 = 0x80000000

theorem test_mult_signed : gives (exec (.mult 1 2) (machine [] [(1, 0xFFFFFFFE#32), (2, 3#32)] []))
    (fun t => t.hi == 0xFFFFFFFF#32 && t.lo == 0xFFFFFFFA#32 && t.lock && t.faultLog == []) = true := by decide  -- R150
theorem test_mult_overwrite : gives (exec (.mult 3 4) { machine [] [(3, 0xFFFFFFFF#32), (4, 7#32)] [] with lock := true })
    (fun t => t.hi == 0xFFFFFFFF#32 && t.lo == 0xFFFFFFF9#32 && t.lock && t.faultLog == [(0, 0x04#6)]) = true := by
  decide  -- E7
theorem test_multu_unsigned : gives (exec (.multu 1 2) (machine [] [(1, 0xFFFFFFFE#32), (2, 3#32)] []))
    (fun t => t.hi == 2#32 && t.lo == 0xFFFFFFFA#32 && t.lock && t.faultLog == []) = true := by decide  -- R151
theorem test_mfhi : gives (exec (.mfhi 4) { machine [] [] [] with hi := 0xFFFFFFFF#32, lock := true })
    (fun t => t.reg 4 == 0xFFFFFFFF#32 && !t.lock) = true := by decide  -- R152
theorem test_mflo : gives (exec (.mflo 5) { machine [] [] [] with lo := 0xFFFFFFFA#32, lock := true })
    (fun t => t.reg 5 == 0xFFFFFFFA#32 && !t.lock) = true := by decide  -- R153

/-- The next state's pc. -/
def goes (target : Word) (t : State) : Bool := t.pc == target && t.faultLog == []

theorem test_beq_taken : gives (exec (.beq 0 0 4) (at_ 0#32 [])) (goes 0x14#32) = true := by decide  -- R186, E5
theorem test_beq_not_taken : gives (exec (.beq 1 0 4) (at_ 0#32 [(1, 1#32)])) (goes 4#32) = true := by decide
theorem test_bne_backward : gives (exec (.bne 1 2 0xFFFD) (at_ 0x20#32 [(1, 1#32)])) (goes 0x18#32) = true := by
  decide  -- R187
theorem test_bgtz_taken : gives (exec (.bgtz 1 2) (at_ 0x10#32 [(1, 1#32)])) (goes 0x1C#32) = true := by decide  -- R188
theorem test_bgtz_negative : gives (exec (.bgtz 1 2) (at_ 0x10#32 [(1, 0x80000000#32)])) (goes 0x14#32) = true := by
  decide  -- R188
theorem test_j : gives (exec (.j 0x10) (at_ 0#32 [])) (goes 0x40#32) = true := by decide  -- R189
theorem test_j_upper_bits_of_next : gives (exec (.j 0x10) (at_ 0x0FFFFFFC#32 [])) (goes 0x10000040#32) = true := by
  decide  -- R189
theorem test_jal : gives (exec (.jal 0x20) (at_ 8#32 [])) (fun t => goes 0x80#32 t && t.reg 31 == 0xC#32) = true := by
  decide  -- R190
theorem test_jr : gives (exec (.jr 31) (at_ 0#32 [(31, 0xC#32)])) (goes 0xC#32) = true := by decide  -- R191
theorem test_halt_advances : gives (exec .halt (at_ 0#32 [])) (goes 4#32) = true := by decide  -- R200
theorem test_nop_advances : gives (exec .nop (at_ 0#32 [])) (goes 4#32) = true := by decide  -- R201

/-! ## The step -/

theorem test_step_runs_the_word : gives (step (machine [0x2001FFFB#32] [] [])) (wrote 1 0xFFFFFFFB#32 []) = true := by
  decide  -- R161
theorem test_step_after_withFetchWord : gives (step (State.reset.withFetchWord 32 0x2001FFFB))
    (wrote 1 0xFFFFFFFB#32 []) = true := by decide
theorem test_step_halted : step (machine (List.replicate 5 0xFFFFFFFF#32) [] []) = .fault .halted := by rfl  -- R202
theorem test_step_beyond : step (at_ 128#32 []) = .refused .fetchBeyond := by rfl  -- R61: 32 words end at 128
theorem test_step_misaligned : step (at_ 2#32 []) = .refused .fetchMisaligned := by rfl  -- R80

/-! ## One clock cycle (the traces of section 1 of spec/95_test_vectors.md) -/

/-- E4, cycle 2: ADD in ID needs the LW in EX, so the pipeline stalls. -/
theorem test_load_use_stalls : gives (clock (flight (machine [] [(4, 5#32)] []) 0x00441820#32 0x8C220000#32 0#32 0#32 0#32 0#32 0#32))
    (fun t => t.pc == 16#32 && t.pipe.ifid.instr == 0x00441820#32 && t.pipe.idex == IdEx.zero &&
      t.pipe.exmem.instr == 0x8C220000#32) = true := by decide

/-- E4, cycle 4: ADD in EX takes the loaded 0x2A from MEM/WB, not the stale register. -/
theorem test_load_use_forwards : gives (clock (flight (machine [] [(4, 5#32)] []) 0xFFFFFFFF#32 0x00441820#32 0#32 0x8C220000#32 0#32 0#32 0x2A#32))
    (fun t => t.pipe.exmem.aluResult == 0x2F#32 && t.reg 2 == 0x2A#32) = true := by decide

/-- E5, cycle 1: the taken BEQ in ID drops the fetched word; its address is 12 here, so the target is 16 + 16. -/
theorem test_taken_branch_flushes : gives (clock (flight (machine [] [] []) 0x10000004#32 0#32 0#32 0#32 0#32 0#32 0#32))
    (fun t => t.pc == 32#32 && t.pipe.ifid == IfId.zero && t.pipe.idex.instr == 0x10000004#32) = true := by decide

/-- R214: the nearer producer wins: both MEM and WB hold a write of $1. -/
theorem test_nearer_producer_wins : gives (clock (flight (machine [] [] []) 0#32 0x00211020#32 0x20010002#32 0x20010001#32 2#32 0#32 1#32))
    (fun t => t.pipe.exmem.aluResult == 4#32 && t.reg 1 == 1#32) = true := by decide

/-- R303: BEQ $1,$2 in ID takes $1 from EX/MEM: equal, so taken. -/
theorem test_branch_forwards_in_id : gives (clock (flight (machine [] [(2, 7#32)] []) 0x10220001#32 0#32 0x20010007#32 0#32 7#32 0#32 0#32))
    (fun t => t.pc == 20#32 && t.pipe.ifid == IfId.zero) = true := by decide

/-- R301: BEQ $1,$0 in ID waits for the ADDI $1 in EX. -/
theorem test_branch_stalls_for_ex : gives (clock (flight (machine [] [] []) 0x10200001#32 0x20010007#32 0#32 0#32 0#32 0#32 0#32))
    (fun t => t.pc == 16#32 && t.pipe.idex == IdEx.zero) = true := by decide

/-- P5, cycle 5: the misaligned LW in MEM stops the machine after WB's write; nothing else moves. -/
theorem test_mem_fault_abandons : let s := flight (machine [] [] []) 0x20050005#32 0x20040004#32 0x8C230000#32 0x20020009#32 2#32 0#32 9#32
    gives (clock s) (fun t => t.stopped && t.reg 2 == 9#32 && t.faultLog == [(0, 0x10#6)] && t.pipe == s.pipe &&
      t.pc == s.pc && t.cycle == 0) = true := by decide

/-- P6, cycle 4: the illegal word in ID: WB writes, MEM and EX fill their latches, ID and IF do nothing. -/
theorem test_id_fault_abandons : let s := flight (machine [] [] []) 0x04000000#32 0x20030003#32 0x20020002#32 0x20010001#32 2#32 0#32 1#32
    gives (clock s) (fun t => t.stopped && t.reg 1 == 1#32 && t.reg 2 == 0#32 && t.pipe.memwb.rtData == 2#32 &&
      t.pipe.exmem.aluResult == 3#32 && t.faultLog == [(0, 0x20#6)] && t.pc == s.pc && t.cycle == 0) = true := by decide

/-- R222: an illegal word in ID stops the machine while the SW before it is in EX, so the store never reaches MEM
(log 10). -/
theorem test_id_fault_abandons_store : gives (clock (flight (machine [] [(2, 9#32)] data) 0x04000000#32 0xAC020000#32 0#32 0#32 0#32 0#32 0#32))
    (fun t => t.stopped && t.dmem.read 3 == 0#8) = true := by decide

/-- P4, cycle 7: two stages raise a fault in one cycle: one entry, both bits. -/
theorem test_two_faults_one_entry : gives (clock { flight (machine [] [] []) 0#32 0x00210019#32 0#32 0x00210020#32 0#32 0#32 5#32 with lock := true })
    (fun t => t.faultLog == [(0, 0x05#6)] && !t.stopped && t.reg 0 == 0#32) = true := by decide

/-- R202: HALT in IF and in all four latches. -/
theorem test_clock_halted : clock { flight (machine (List.replicate 5 0xFFFFFFFF#32) [] []) 0xFFFFFFFF#32 0xFFFFFFFF#32 0xFFFFFFFF#32 0xFFFFFFFF#32 0#32 0#32 0#32 with pc := 16#32 } =
    .fault .halted := by rfl

/-- R224: the trace of the stalling cycle of E4. -/
theorem test_trace_of_stall : let c := cycleTrace (flight (machine [] [] []) 0x00441820#32 0x8C220000#32 0#32 0#32 0#32 0#32 0#32)
    c.stall = true ∧ c.flush = false ∧ c.idStage.mnemonic = some "ADD" ∧ c.exStage.mnemonic = some "LW" ∧
      c.memStage.mnemonic = some "NOP" := by decide

/-! ## Images (R282 to R285) -/

theorem test_instruction_image : parseInstructionImage [0, 0, 1, 0, 0, 0, 0, 1, 0x20, 0x01, 0xFF, 0xFB] =
    some (0x100#32, [0x2001FFFB#32]) := by decide
theorem test_instruction_image_short : parseInstructionImage [0, 0, 1, 0, 0, 0, 0, 2, 0x20, 0x01, 0xFF, 0xFB] = none := by
  decide
theorem test_data_image : parseDataImage .words [0, 0, 4, 0, 0, 0, 0, 1, 1, 2, 3, 4] = some (0x400#32, [1, 2, 3, 4]) := by
  decide
theorem test_boot_misaligned : boot Build.default ⟨2#32, [], 0#32, []⟩ = none := by decide  -- R285

/-! ## Witnesses: states and operands that meet the hypotheses of the statements

One theorem for each statement that has hypotheses, with every clause of it; `gives` says that the step or the
cycle answers a next state and what holds of it (`exists_next`). -/

/-- A running pipeline with an instruction in each stage and no hazard: ADDI $5 in ID, ADD $3,$1,$1 in EX, ADDI $2
in MEM, ADDI $1 in WB. -/
def busy : State :=
  flight (machine (List.replicate 8 0x20010001#32) [] data) 0x20050005#32 0x00211820#32 0x20020002#32 0x20010001#32 2#32 0#32 1#32

/-- LW $3 in MEM at a misaligned address, as in P5. -/
def memFault : State :=
  flight (machine [] [] data) 0x20050005#32 0x20040004#32 0x8C230000#32 0x20020009#32 2#32 0#32 9#32

/-- An illegal word in ID, as in P6. -/
def idFault : State :=
  flight (machine [] [] data) 0x04000000#32 0x20030003#32 0x20020002#32 0x20010001#32 2#32 0#32 1#32

/-- An illegal word in ID with a store in EX (log 10). -/
def idFaultStore : State :=
  flight (machine [] [(2, 9#32)] data) 0x04000000#32 0xAC020000#32 0#32 0#32 0#32 0#32 0#32

/-- LW $2 in EX and a BEQ $2,$0 in ID: it stalls for two cycles (R301, R302). -/
def twoStalls : State := flight (machine [] [] data) 0x10400001#32 0x8C220000#32 0#32 0#32 0#32 0#32 0#32

/-- SW $2 in MEM at the last word of the array. -/
def storing : State :=
  flight (machine [] [(2, 0x11223344#32)] data) 0#32 0#32 0xAC02003C#32 0#32 60#32 0x11223344#32 0#32

/-- LH in MEM. -/
def loading : State := flight (machine [] [] data) 0#32 0#32 0x84020000#32 0#32 12#32 0#32 0#32

/-- HALT in all five stages. -/
def halted : State :=
  flight (machine (List.replicate 5 0xFFFFFFFF#32) [] []) 0xFFFFFFFF#32 0xFFFFFFFF#32 0xFFFFFFFF#32 0xFFFFFFFF#32 0#32 0#32 0#32

/-- The two numberings used here have no repeated number. -/
theorem witness_distinct : Opc.default.distinct = true ∧ otherOpc.distinct = true := by decide


/-- A word of each funct, for the clauses about words of a number. -/
theorem witness_words :
    RWord Opc.default Opc.default.fn.add 0x00430820#32 ∧ RWord Opc.default Opc.default.fn.sub 0x00221822#32 ∧
    RWord Opc.default Opc.default.fn.addu 0x00221821#32 ∧ RWord Opc.default Opc.default.fn.and 0x00221824#32 ∧
    RWord Opc.default Opc.default.fn.or 0x00221825#32 ∧ RWord Opc.default Opc.default.fn.xor 0x00221826#32 ∧
    RWord Opc.default Opc.default.fn.nor 0x00221827#32 ∧ RWord Opc.default Opc.default.fn.nand 0x00221828#32 ∧
    RWord Opc.default Opc.default.fn.slt 0x0022182A#32 ∧ RWord Opc.default Opc.default.fn.sll 0x00011100#32 ∧
    RWord Opc.default Opc.default.fn.srl 0x00011102#32 ∧ RWord Opc.default Opc.default.fn.sra 0x00011103#32 ∧
    RWord Opc.default Opc.default.fn.mult 0x00220018#32 ∧ RWord Opc.default Opc.default.fn.multu 0x00220019#32 ∧
    RWord Opc.default Opc.default.fn.mfhi 0x00002010#32 ∧ RWord Opc.default Opc.default.fn.mflo 0x00002812#32 ∧
    RWord Opc.default Opc.default.fn.jr 0x03E00008#32 := by
  unfold RWord; decide

theorem witness_opcode_words :
    OpWord Opc.default.op.addi 0x2001FFFB#32 ∧ OpWord Opc.default.op.addiu 0x24018000#32 ∧
    OpWord Opc.default.op.andi 0x3022FF00#32 ∧ OpWord Opc.default.op.ori 0x34228001#32 ∧
    OpWord Opc.default.op.nori 0x382200FF#32 ∧ OpWord Opc.default.op.slti 0x2822000A#32 ∧
    OpWord Opc.default.op.lui 0x3C011234#32 ∧ OpWord Opc.default.op.lw 0x8C220000#32 ∧
    OpWord Opc.default.op.lh 0x84220000#32 ∧ OpWord Opc.default.op.lhu 0x94220000#32 ∧
    OpWord Opc.default.op.lb 0x80220000#32 ∧ OpWord Opc.default.op.lbu 0x90220000#32 ∧
    OpWord Opc.default.op.sw 0xAC220004#32 ∧ OpWord Opc.default.op.sh 0xA4220002#32 ∧
    OpWord Opc.default.op.sb 0xA0220003#32 ∧ OpWord Opc.default.op.beq 0x10000004#32 ∧
    OpWord Opc.default.op.bne 0x1422FFFD#32 ∧ OpWord Opc.default.op.bgtz 0x1C200002#32 ∧
    OpWord Opc.default.op.j 0x08000010#32 ∧ OpWord Opc.default.op.jal 0x0C000020#32 ∧
    OpWord Opc.default.op.halt 0xFFFFFFFF#32 := by
  unfold OpWord; decide

/-- The word decodes to the instruction in the reset machine. -/
def reads (x : Word) (i : Instr) : Bool :=
  match decodeWord State.reset.par.opc x with
  | .ok j => j == i
  | .error _ => false

/-- A word for every instruction, for the clauses about the EX stage. -/
theorem witness_ex_words :
    reads 0x00000000#32 (.nop) ∧ reads 0x00430820#32 (.add 1 2 3) ∧ reads 0x00221821#32 (.addu 3 1 2) ∧
    reads 0x00221822#32 (.sub 3 1 2) ∧ reads 0x00221824#32 (.and 3 1 2) ∧ reads 0x00221825#32 (.or 3 1 2) ∧
    reads 0x00221826#32 (.xor 3 1 2) ∧ reads 0x00221827#32 (.nor 3 1 2) ∧ reads 0x00221828#32 (.nand 3 1 2) ∧
    reads 0x0022182A#32 (.slt 3 1 2) ∧ reads 0x00011100#32 (.sll 2 1 4) ∧ reads 0x00011102#32 (.srl 2 1 4) ∧
    reads 0x00011103#32 (.sra 2 1 4) ∧ reads 0x00220018#32 (.mult 1 2) ∧ reads 0x00220019#32 (.multu 1 2) ∧
    reads 0x00002010#32 (.mfhi 4) ∧ reads 0x00002812#32 (.mflo 5) ∧ reads 0x03E00008#32 (.jr 31) ∧
    reads 0x2001FFFB#32 (.addi 1 0 0xFFFB) ∧ reads 0x24018000#32 (.addiu 1 0 0x8000) ∧
    reads 0x3C011234#32 (.lui 1 0x1234) ∧ reads 0x3022FF00#32 (.andi 2 1 0xFF00) ∧
    reads 0x34228001#32 (.ori 2 1 0x8001) ∧ reads 0x382200FF#32 (.nori 2 1 0x00FF) ∧
    reads 0x2822000A#32 (.slti 2 1 10) ∧ reads 0x8C220000#32 (.lw 2 1 0) ∧ reads 0x84220000#32 (.lh 2 1 0) ∧
    reads 0x94220000#32 (.lhu 2 1 0) ∧ reads 0x80220000#32 (.lb 2 1 0) ∧ reads 0x90220000#32 (.lbu 2 1 0) ∧
    reads 0xAC220004#32 (.sw 2 1 4) ∧ reads 0xA4220002#32 (.sh 2 1 2) ∧ reads 0xA0220003#32 (.sb 2 1 3) ∧
    reads 0x10000004#32 (.beq 0 0 4) ∧ reads 0x1422FFFD#32 (.bne 1 2 0xFFFD) ∧ reads 0x1C200002#32 (.bgtz 1 2) ∧
    reads 0x08000010#32 (.j 0x10) ∧ reads 0x0C000020#32 (.jal 0x20) ∧ reads 0xFFFFFFFF#32 (.halt) := by
  decide

/-- The numbers an operand's last bit has, for FieldsAreTheNamedBits and the shift statements. -/
theorem witness_FieldsAreTheNamedBits : 4 < 5 ∧ 5 < 6 ∧ 15 < 16 ∧ 25 < 26 ∧ 31 < 32 := by decide

theorem witness_IllegalExactlyOutsideTheTables : legalWord Opc.default 0x04000000#32 = false ∧
    legalWord Opc.default 0x00000001#32 = false := by
  decide

theorem witness_UnusedFieldsAreIgnored :
    (0x00221FE0#32 ≠ 0#32 ∧ 0x00221820#32 ≠ 0#32 ∧ opcodeOf 0x00221FE0#32 = opcodeOf 0x00221820#32 ∧
      functOf 0x00221FE0#32 = functOf 0x00221820#32) ∧
    Opc.default.distinct = true ∧
    (let R := packR Opc.default.op.rtype;
      R 1 2 3 0 Opc.default.fn.add ≠ 0#32 ∧ R 1 2 3 31 Opc.default.fn.add ≠ 0#32 ∧
      R 0 0 0 1 Opc.default.fn.sll ≠ 0#32 ∧ R 31 0 0 1 Opc.default.fn.sll ≠ 0#32 ∧
      R 31 1 2 3 Opc.default.fn.jr ≠ 0#32 ∧ R 31 0 0 0 Opc.default.fn.jr ≠ 0#32 ∧
      R 1 2 3 4 Opc.default.fn.mult ≠ 0#32 ∧ R 1 2 0 0 Opc.default.fn.mult ≠ 0#32 ∧
      R 1 2 3 4 Opc.default.fn.mfhi ≠ 0#32 ∧ R 0 0 3 0 Opc.default.fn.mfhi ≠ 0#32) ∧
    packI Opc.default.op.lui 0 1 2 ≠ 0#32 ∧ packI Opc.default.op.lui 31 1 2 ≠ 0#32 ∧
    packI Opc.default.op.bgtz 1 0 2 ≠ 0#32 ∧ packI Opc.default.op.bgtz 1 31 2 ≠ 0#32 ∧
    packJ Opc.default.op.halt 0 ≠ 0#32 ∧ packJ Opc.default.op.halt 1 ≠ 0#32 := by decide

theorem witness_DecodeOfEncode : Opc.default.distinct = true ∧ (Instr.sll 0 0 1).wellFormed Opc.default = true ∧
    Instr.nop.wellFormed Opc.default = true ∧ (Instr.addi 31 31 0xFFFF).wellFormed otherOpc = true := by decide

/-- Two multiplies in a row stop nothing; a sequence that a fatal fault stops, with a multiply behind it. -/
theorem witness_HiLoOverwriteCounted : (machine [] [] []).stopped = false ∧
    gives (execAll [.mult 1 2, .multu 1 2] (machine [] [] []))
      (fun t => !t.stopped && t.faultLog == [(1, 0x04#6)]) = true ∧
    gives (execAll [.mult 1 2, .lw 1 0 2, .mult 1 2] (machine [] [] []))
      (fun t => t.stopped && t.faultLog == [(1, 0x10#6)]) = true := by decide

/-- ADDI $1,$0,-5 does not read $2, nor its own destination. -/
theorem witness_ResultsDependOnSourcesOnly : decodeTableWord 32 0x2001FFFB = some (.addi 1 0 0xFFFB) ∧
    2#5 ∉ srcs Opc.default 0x2001FFFB#32 ∧ 1#5 ∉ srcs Opc.default 0x2001FFFB#32 ∧ (Instr.addi 1 0 0xFFFB).control.regWrite = true ∧
    (Instr.addi 1 0 0xFFFB).control.dest = 1#5 ∧
    gives (exec (.addi 1 0 0xFFFB) (machine [] [] [])) (fun t => t.cycle == 1) = true := by decide

/-- The highest accesses of 64 bytes of memory and those just past them, and a misaligned one of each width. -/
theorem witness_LoadsReadBigEndianBytesOrStop : let p : Params := ⟨0#32, 32, 64, 100, Opc.default⟩
    AccessOk p 60 4 ∧ AccessOk p 62 2 ∧ AccessOk p 63 1 ∧ AccessOk p 0 4 ∧ ¬ AccessOk p 64 4 ∧ ¬ AccessOk p 62 4 ∧
      ¬ AccessOk p 63 2 ∧ ¬ AccessOk p 64 1 ∧ ¬ AccessOk p 2 4 ∧ ¬ AccessOk p 1 2 := by unfold AccessOk; decide

theorem witness_StoresWriteTheirBytesOnlyOrStop : (machine [] [] data).dmem.wf = true ∧
    (machine [] [] data).dmem ≠ [] ∧ storing.pipe.exmem.memWrite = true := by decide

theorem witness_AddressAddOverflow : reads 0x8C220000#32 (.lw 2 1 0) = true ∧ reads 0xAC220004#32 (.sw 2 1 4) = true ∧ 64 ≤ 0x7FFF8000 ∧
    overflowFault ((0x7FFFFFFF#32).toInt + ((1#16).signExtend 32).toInt) ≠ 0x00#6 ∧
    overflowFault ((0x80000000#32).toInt + ((0x8000#16).signExtend 32).toInt) ≠ 0x00#6 ∧
    gives (exec (.lw 2 1 0) (machine [] [(1, 8#32)] data)) (fun _ => true) = true ∧
    gives (exec (.sw 1 1 0) (machine [] [(1, 8#32)] data)) (fun _ => true) = true ∧
    (Instr.sw 1 1 0).control.regWrite = false := by decide

theorem witness_HaltAndNopOnlyAdvance : let s := resetWith ⟨32, 64, 100, Opc.default⟩ ⟨16#32, [], 0#32, []⟩
    (12#32).extractLsb' 0 2 = 0#2 ∧ (12#32).toNat < s.par.imemBase.toNat := by decide

theorem witness_PcStaysAligned : let s := at_ 0#32 [(31, 0xC#32)]
    gives (exec (.jr 31) s) (fun _ => true) = true ∧ s.pc.toNat % 4 = 0 ∧ (s.reg 31).toNat % 4 = 0 ∧
      gives (exec (.beq 0 0 4) s) (fun _ => true) = true := by decide

theorem witness_MemoryIsBigEndianBytes : (machine [] [] data).dmem.wf = true ∧ (3 : Nat) < 4 ∧ ((7 : Nat) < 8 ∨ 12 ≤ 7) ∧
    ((12 : Nat) < 8 ∨ 8 + 4 ≤ 12) := by decide

theorem witness_CheckDataRaisesBothTests : gives (clock memFault) (fun _ => true) = true ∧
    (memMask memFault.pipe.exmem memFault.par).isFatal = true := by decide

theorem witness_FetchByAddress : let s := resetWith ⟨32, 64, 100, Opc.default⟩ ⟨16#32, [0x2001FFFB#32], 0#32, []⟩
    (17#32).toNat % 4 ≠ 0 ∧ ((12#32).toNat % 4 = 0 ∧ (12#32).toNat < s.par.imemBase.toNat) ∧
      ((140#32).toNat % 4 = 0 ∧ (140#32).toNat = s.par.imemBase.toNat + 4 * 31 ∧ 31 < s.par.imemWords) ∧
      ((144#32).toNat % 4 = 0 ∧ s.par.imemBase.toNat % 4 = 0 ∧ s.par.imemBase.toNat + 4 * s.par.imemWords ≤ (144#32).toNat) ∧
      (seqStatus { s with pc := 144#32 } = .running ∧ fetch { s with pc := 144#32 } 144#32 = .beyond) ∧
      (seqStatus { s with pc := 17#32 } = .running ∧ fetch { s with pc := 17#32 } 17#32 = .misaligned) ∧
      (pipeStatus { s with pc := 144#32 } = .running ∧ (memMask s.pipe.exmem s.par).isFatal = false ∧
        legalWord s.par.opc s.pipe.ifid.instr = true) ∧
      pipeStatus { s with pc := 17#32 } = .running := by decide

/-- A step and a cycle that write a register and one that writes register 0. -/
theorem witness_RegisterZeroIsHardwired : gives (exec (.addi 0 0 5) (machine [] [] [])) (fun _ => true) = true ∧
    gives (step (machine [0x20000005#32] [] [])) (fun t => t.faultLog == [(0, 0x01#6)]) = true ∧
    gives (clock (flight (machine [] [] []) 0#32 0#32 0#32 0x20000005#32 0#32 0#32 5#32)) (fun t => t.faultLog == [(0, 0x01#6)]) =
      true := by decide

theorem witness_OnlyMultipliesWriteHiLo : gives (exec (.add 1 2 3) (machine [] [] [])) (fun _ => true) = true ∧
    isMultiply (.add 1 2 3) = false ∧ isMoveFrom (.add 1 2 3) = false ∧ gives (clock busy) (fun _ => true) = true ∧
    decodeTableWord 32 busy.pipe.idex.instr.toNat = some (.add 3 1 1) ∧
    gives (clock memFault) (fun _ => true) = true ∧ (memMask memFault.pipe.exmem memFault.par).isFatal = true := by decide

theorem witness_StoresNeverReachInstructions :
    gives (exec (.sw 2 0 0) (machine [] [(2, 0x20010001#32)] [])) (fun t => t.dmem.read 0 == 0x20#8) = true ∧
    gives (step (machine [0xAC020000#32] [(2, 0x20010001#32)] [])) (fun t => t.dmem.read 0 == 0x20#8) = true ∧
    gives (clock storing) (fun t => t.dmem.read 60 == 0x11#8) = true := by decide

theorem witness_OnlyStoresChangeDataMemory : (Instr.lw 1 2 0).control.memWrite = false ∧
    gives (exec (.lw 1 2 0) (machine [] [] data)) (fun _ => true) = true ∧ busy.pipe.exmem.memWrite = false ∧
    gives (clock busy) (fun _ => true) = true ∧ gives (clock storing) (fun _ => true) = true ∧
    gives (exec (.sw 2 0 62) (machine [] [] data)) (fun t => t.cycle == 0) = true ∧
    (let s := flight (machine [] [] data) 0#32 0#32 0xAC02003E#32 0#32 62#32 7#32 0#32;
      s.pipe.exmem.memWrite = true ∧ (memMask s.pipe.exmem s.par).isFatal = true ∧
        gives (clock s) (fun _ => true) = true) ∧
    (59 < storing.pipe.exmem.aluResult.toNat ∧
      storing.pipe.exmem.aluResult.toNat + (controlOf storing.par.opc storing.pipe.exmem.instr).width.bytes ≤ 64) := by decide

theorem witness_StepRunsTheDecodedInstruction : let s := machine [0x2001FFFB#32] [] []
    seqStatus s = .running ∧ fetch s s.pc = .word 0x2001FFFB#32 ∧
      decodeTableWord 32 0x2001FFFB = some (.addi 1 0 0xFFFB) := by decide

theorem witness_StepStopsAtAnIllegalWord : let s := machine [0x04000000#32] [] []
    seqStatus s = .running ∧ fetch s s.pc = .word 0x04000000#32 ∧ legalWord s.par.opc 0x04000000#32 = false ∧
      { s with stopped := true }.stopped = true := by decide

theorem witness_FetchWordIsPlacedAtThePc : let s := { machine [1#32] [] [] with pc := 124#32 }
    s.imem.wf = true ∧ s.pc.toNat % 4 = 0 ∧ s.pc.toNat = s.par.imemBase.toNat + 4 * 31 ∧ 31 < s.par.imemWords ∧
      (0 : Nat) ≠ 31 := by decide

theorem witness_ImageFilesBootTheMachine : [0x2001FFFB#32].length < 2 ^ 32 ∧ 1 < 2 ^ 32 ∧
    [(1 : Byte), 2, 3, 4].length = 4 * 1 ∧ [(1 : Byte), 2, 3].length < 2 ^ 32 := by decide

theorem witness_WritebackIsTheOnlyRegisterWriter : gives (clock busy) (fun t => !t.stopped && t.pipe.idex != IdEx.zero &&
      t.reg 1 == 1#32) = true ∧ ((cycleTrace busy).regWrite.map RegWriteView.value) = some 1#32 := by decide

theorem witness_MemStageOfACompletedCycle :
    (gives (clock storing) (fun _ => true) = true ∧ storing.dmem.wf = true ∧ storing.pipe.exmem.memWrite = true ∧
      (memMask storing.pipe.exmem storing.par).isFatal = false) ∧
    (gives (clock loading) (fun _ => true) = true ∧ loading.dmem.wf = true ∧ loading.pipe.exmem.memWrite = false ∧
      loading.pipe.exmem.memRead = true ∧ (memMask loading.pipe.exmem loading.par).isFatal = false) ∧
    (gives (clock busy) (fun _ => true) = true ∧ busy.dmem.wf = true ∧ busy.pipe.exmem.memWrite = false ∧
      busy.pipe.exmem.memRead = false ∧ (memMask busy.pipe.exmem busy.par).isFatal = false) ∧
    (gives (clock memFault) (fun _ => true) = true ∧ memFault.dmem.wf = true ∧
      (memMask memFault.pipe.exmem memFault.par).isFatal = true) := by decide

theorem witness_FatalFaultAbandonsLaterStages :
    (pipeStatus memFault = .running ∧ pipeStatus idFault = .running ∧ pipeStatus busy = .running ∧
      fetch busy busy.pc = .word 0x20010001#32) ∧
    (gives (clock memFault) (fun _ => true) = true ∧ (memMask memFault.pipe.exmem memFault.par).isFatal = true) ∧
    (gives (clock idFault) (fun _ => true) = true ∧ (memMask idFault.pipe.exmem idFault.par).isFatal = false ∧
      legalWord idFault.par.opc idFault.pipe.ifid.instr = false) ∧
    (gives (clock busy) (fun _ => true) = true ∧ (memMask busy.pipe.exmem busy.par).isFatal = false ∧
      legalWord busy.par.opc busy.pipe.ifid.instr = true) := by decide

theorem witness_StallFlushAndFetch :
    (gives (clock twoStalls) (fun t => !t.stopped) = true ∧
      stallCond twoStalls.par.opc twoStalls.pipe.ifid.instr twoStalls.pipe.idex twoStalls.pipe.exmem = true) ∧
    (gives (clock busy) (fun t => !t.stopped && t.pc == 20#32) = true ∧
      stallCond busy.par.opc busy.pipe.ifid.instr busy.pipe.idex busy.pipe.exmem = false) ∧
    gives (clock (flight (machine [] [] []) 0x10000004#32 0#32 0#32 0#32 0#32 0#32 0#32))
      (fun t => !t.stopped && t.pc == 32#32) = true := by decide

theorem witness_StallInjectionLastsAtMostTwoCycles : gives (clock twoStalls) (fun t => !t.stopped &&
      stallCond twoStalls.par.opc twoStalls.pipe.ifid.instr twoStalls.pipe.idex twoStalls.pipe.exmem &&
      stallCond t.par.opc t.pipe.ifid.instr t.pipe.idex t.pipe.exmem && gives (clock t) (fun u => !u.stopped)) = true := by decide

theorem witness_StallConditionByMnemonic : decodeTableWord 32 0x10400001 = some (.beq 2 0 1) ∧
    stallCond Opc.default 0x10400001#32 twoStalls.pipe.idex twoStalls.pipe.exmem = true ∧
    decodeTableWord 32 0x00000000 = some .nop ∧ decodeTableWord 32 0xFFFFFFFF = some .halt ∧
    decodeTableWord 32 0x08000010 = some (.j 0x10) ∧ decodeTableWord 32 0x0C000020 = some (.jal 0x20) ∧
    decodeTableWord 32 0x3C011234 = some (.lui 1 0x1234) ∧ decodeTableWord 32 0x00002010 = some (.mfhi 4) ∧
    decodeTableWord 32 0x00002812 = some (.mflo 5) ∧ IdEx.zero.writeDest = 0#5 ∧ ExMem.zero.writeDest = 0#5 := by decide

theorem pipeInv_busy : PipeInv busy :=
  ⟨by constructor <;> decide, by decide, by decide, by decide, by decide⟩

theorem pipeInv_memFault : PipeInv memFault :=
  ⟨by constructor <;> decide, by decide, by decide, by decide, by decide⟩

theorem pipeInv_idFault : PipeInv idFault :=
  ⟨by constructor <;> decide, by decide, by decide, by decide, by decide⟩

theorem pipeInv_idFaultStore : PipeInv idFaultStore :=
  ⟨by constructor <;> decide, by decide, by decide, by decide, by decide⟩

theorem pipeInv_halted : PipeInv halted :=
  ⟨by constructor <;> decide, by decide, by decide, by decide, by decide⟩

/-- BEQ $1,$2 in ID with its $1 still in EX/MEM. -/
def branching : State :=
  flight (machine [] [(2, 7#32)] []) 0x10220001#32 0#32 0x20010007#32 0#32 7#32 0#32 0#32

theorem pipeInv_branching : PipeInv branching :=
  ⟨by constructor <;> decide, by decide, by decide, by decide, by decide⟩

/-- ADD $3,$1,$1 in EX reads both operands; its $1 is in WB. -/
theorem witness_ForwardedOperandsAreSequential : PipeInv busy ∧ busy.stopped = false ∧
    (memMask busy.pipe.exmem busy.par).isFatal = false ∧ (controlOf busy.par.opc busy.pipe.idex.instr).hasRs = true ∧
    (controlOf busy.par.opc busy.pipe.idex.instr).hasRt = true := ⟨pipeInv_busy, by decide⟩

theorem witness_BranchOperandsInIdAreSequential : PipeInv branching ∧ branching.stopped = false ∧
    (memMask branching.pipe.exmem branching.par).isFatal = false ∧ stallOf branching.par.opc branching.pipe = false ∧
    decodeTableWord 32 0x10220001 = some (.beq 1 2 1) ∧ (Instr.beq 1 2 1).isCtlReg = true ∧
    1#5 ∈ srcs branching.par.opc branching.pipe.ifid.instr ∧ 2#5 ∈ srcs branching.par.opc branching.pipe.ifid.instr := ⟨pipeInv_branching, by decide⟩

/-- Also in cycles cut short by a fatal fault. -/
theorem witness_LatchInvariantKept : (LatchInv busy.par.opc busy.pipe ∧ gives (clock busy) (fun t => !t.stopped) = true) ∧
    (LatchInv memFault.par.opc memFault.pipe ∧ gives (clock memFault) State.stopped = true) ∧
    (LatchInv idFault.par.opc idFault.pipe ∧ gives (clock idFault) State.stopped = true) :=
  ⟨⟨pipeInv_busy.latches, by decide⟩, ⟨pipeInv_memFault.latches, by decide⟩, ⟨pipeInv_idFault.latches, by decide⟩⟩

theorem witness_PipelineInvariantKept : PipeInv busy ∧ gives (clock busy) (fun t => !t.stopped) = true :=
  ⟨pipeInv_busy, by decide⟩

theorem witness_DataInvariantKept : (DataInv (machine [0xAC02003C#32] [(2, 9#32)] data) ∧
      gives (step (machine [0xAC02003C#32] [(2, 9#32)] data)) (fun t => t.dmem.read 63 == 9#8) = true) ∧
    (DataInv storing ∧ gives (clock storing) (fun t => t.dmem.read 60 == 0x11#8) = true) :=
  ⟨⟨⟨by decide, by decide, by decide⟩, by decide⟩, ⟨⟨by decide, by decide, by decide⟩, by decide⟩⟩

/-- From an empty log, and from one with an earlier entry; a completed cycle and one that stops. -/
theorem witness_FaultLogInvariantKept :
    (LogInv pipelineMasks busy ∧ gives (clock busy) (fun _ => true) = true) ∧
    (LogInv pipelineMasks { memFault with faultLog := [(2, 0x02#6)], cycle := 5 } ∧
      gives (clock { memFault with faultLog := [(2, 0x02#6)], cycle := 5 }) State.stopped = true) ∧
    (LogInv sequentialMasks (machine [0x04000000#32] [] []) ∧
      gives (step (machine [0x04000000#32] [] [])) State.stopped = true) :=
  ⟨⟨⟨by decide, by decide, by decide, fun h => absurd h (by decide)⟩, by decide⟩,
    ⟨⟨by decide, by decide, by decide, fun h => absurd h (by decide)⟩, by decide⟩,
    ⟨⟨by decide, by decide, by decide, fun h => absurd h (by decide)⟩, by decide⟩⟩

theorem witness_InvariantsHoldAtReset : BootInputs.wellFormed Build.default ⟨0x100#32, [0x2001FFFB#32], 0x400#32, [1, 2, 3, 4]⟩ =
    true := by decide

theorem witness_ClockRefinesSequentialExecution : PipeInv busy ∧ gives (clock busy) (fun t => !t.stopped) = true :=
  ⟨pipeInv_busy, by decide⟩

/-- The run of an ADDI and five HALT words ends Halted. -/
theorem witness_HaltedRunIsASequentialRun : Opc.default.distinct = true ∧
    (match runPipeline 10 (resetWith ⟨32, 64, 100, Opc.default⟩ ⟨0#32, 0x2001FFFB#32 :: List.replicate 5 0xFFFFFFFF#32, 0#32, []⟩) with
      | .halted u => u.reg 1 == 0xFFFFFFFB#32
      | _ => false) = true := by decide

/-- The run of an illegal word ends FaultStopped; a cycle stops in MEM and one in ID. -/
theorem witness_FaultStoppedRunIsASequentialStop :
    (match runPipeline 3 (resetWith ⟨32, 64, 100, Opc.default⟩ ⟨0#32, [0x04000000#32], 0#32, []⟩) with
      | .faultStopped u => u.faultLog == [(1, 0x20#6)]
      | _ => false) = true ∧
    (PipeInv memFault ∧ gives (clock memFault) State.stopped = true ∧
      (memMask memFault.pipe.exmem memFault.par).isFatal = true) ∧
    (PipeInv idFault ∧ gives (clock idFault) State.stopped = true) :=
  ⟨by decide, ⟨pipeInv_memFault, by decide⟩, ⟨pipeInv_idFault, by decide⟩⟩

theorem witness_IllegalStopHasSequentialMemory : PipeInv idFaultStore ∧
    gives (clock idFaultStore) State.stopped = true := ⟨pipeInv_idFaultStore, by decide⟩

theorem witness_OnlyCompletedStepsCount : gives (step (machine [0x2001FFFB#32] [] [])) (fun t => t.cycle == 1) = true ∧
    gives (step (machine [0x04000000#32] [] [])) (fun t => t.cycle == 0) = true ∧
    gives (clock busy) (fun t => t.cycle == 1) = true ∧ gives (clock memFault) (fun t => t.cycle == 0) = true ∧
    pipeStatus { busy with cycle := 100 } = .capped ∧ gives (exec .nop busy) (fun _ => true) = true ∧
    gives (exec (.addi 0 0 5) busy) (fun t => t.faultLog == [(0, 0x01#6)]) = true := by decide

theorem witness_EndOfRunTests : pipeStatus { busy with stopped := true } = .faultStopped ∧ pipeStatus halted = .halted ∧
    pipeStatus { busy with cycle := 100 } = .capped ∧ pipeStatus busy = .running ∧
    gives (clock busy) (fun _ => true) = true ∧
    seqStatus (machine (List.replicate 5 0xFFFFFFFF#32) [] []) = .halted ∧ seqStatus { busy with cycle := 100 } = .capped ∧
    seqStatus { busy with stopped := true } = .faultStopped ∧
    (match runPipeline 1 halted with | .halted _ => true | _ => false) = true ∧
    (match runPipeline 1 { busy with stopped := true } with | .faultStopped _ => true | _ => false) = true ∧
    (match runPipeline 1 { busy with cycle := 100 } with | .capped _ => true | _ => false) = true := by decide

theorem witness_HaltedPipelineIsDrained : halted.par.opc.distinct = true ∧ LatchInv halted.par.opc halted.pipe ∧ halted.stopped = false ∧ pipeHalted halted = true :=
  ⟨by decide, pipeInv_halted.latches, by decide⟩

theorem witness_FaultLogOnlyGrows : gives (clock memFault) (fun t => t.faultLog == [(0, 0x10#6)]) = true ∧
    gives (clock busy) (fun t => t.faultLog == []) = true ∧
    gives (step (machine [0x20000005#32] [] [])) (fun t => t.faultLog == [(0, 0x01#6)]) = true := by decide

/-- A stalling, a flushing and a plain cycle; EX operands from EX/MEM, from MEM/WB and latched. -/
theorem witness_TraceShowsTheCycle :
    (gives (clock twoStalls) (fun t => !t.stopped) = true ∧ (cycleTrace twoStalls).stall = true) ∧
    (gives (clock branching) (fun t => !t.stopped) = true ∧ (cycleTrace branching).flush = true ∧
      (cycleTrace branching).regWrite = none) ∧
    (gives (clock busy) (fun t => !t.stopped) = true ∧ (cycleTrace busy).flush = false ∧
      (cycleTrace busy).stall = false ∧ (cycleTrace busy).exRt.2 = .memwb) ∧
    (cycleTrace (flight (machine [] [] []) 0#32 0x00211020#32 0x20010002#32 0#32 2#32 0#32 0#32)).exRt.2 = .exmem ∧
    (cycleTrace branching).exRt.2 = .latched ∧ (cycleTrace branching).idRsForwarded = true ∧
    (cycleTrace branching).idRtForwarded = false ∧ (cycleTrace busy).idRsForwarded = false ∧
    (cycleTrace (flight (machine [] [] []) 0x10410001#32 0#32 0x20010007#32 0#32 7#32 0#32 0#32)).idRtForwarded = true ∧
    legalWord Opc.default (cycleTrace idFault).idStage.word = false := by decide

end Sys2Proof.Tests
end

section
/-! The sequential step, taken apart once: the run-loop tests (R223), the fetch (R61), the decoder (R96). -/

namespace Sys2Proof.Machine

/-- The run-loop tests are transparent while the machine runs. -/
@[simp] theorem whileRunning_running (r : Result) : whileRunning .running r = r := rfl

/-- The fetch stage hands a legal word to `run`, whatever meaning of the instructions `run` is. -/
theorem fetchThen_of_decodeWord {s : State} {w : Word} {i : Instr} (run : Instr → State → Result)
    (hf : fetch s s.pc = .word w) (hd : decodeWord s.par.opc w = .ok i) : fetchThen run s = run i s := by
  simp only [fetchThen, hf, hd]

theorem step_of_running {s : State} (hr : seqStatus s = .running) : step s = fetchThen exec s := by
  rw [step, hr, whileRunning_running]

/-- Settles O29: the run-loop tests let a running machine through, and its fetch decodes to the instruction. -/
theorem stepRunsTheDecodedInstruction : Obligations.StepRunsTheDecodedInstruction := by
  intro s w i hr hf hd
  calc step s = fetchThen exec s := step_of_running hr
    _ = exec i s := fetchThen_of_decodeWord exec hf hd

end Sys2Proof.Machine
end

section
/-! The default numbering (R97, R98; D1). -/

namespace Sys2Proof.Machine

/-- The machine resets with the numbering of R97 and R98 (R6, D1). -/
@[simp] theorem reset_par_opc : State.reset.par.opc = Opc.default := rfl

/-- Settles O57: both tables agree number by number; no number repeats by `default_distinct`. -/
theorem defaultNumbering : Obligations.DefaultNumbering :=
  ⟨rfl, rfl, default_distinct, reset_par_opc⟩

end Sys2Proof.Machine
end

section
/-! The latches after a clock cycle (R211, R225): EX/MEM and MEM/WB take over the control fields of the latch behind
them, ID/EX and IF/ID are filled afresh or are bubbles. -/

namespace Sys2Proof.Machine

/-- The index fields of IF/ID are those of its own word (R32). -/
def IfId.Indexed (f : IfId) : Prop := f.rsIdx = rsOf f.instr ∧ f.rtIdx = rtOf f.instr

/-- ID/EX holds a legal word with the decoder's control fields for it (R33, R37). -/
structure IdEx.Decoded (o : Opc) (d : IdEx) : Prop where
  dest : d.writeDest = (controlOf o d.instr).dest
  regWrite : d.regWrite = (controlOf o d.instr).regWrite
  memRead : d.memRead = (controlOf o d.instr).memRead
  memWrite : d.memWrite = (controlOf o d.instr).memWrite
  legal : legalWord o d.instr = true

theorem LatchInv.ifid {o : Opc} {p : Pipe} (h : LatchInv o p) : p.ifid.Indexed := ⟨h.ifidRs, h.ifidRt⟩

theorem LatchInv.idex {o : Opc} {p : Pipe} (h : LatchInv o p) : p.idex.Decoded o :=
  ⟨h.idexDest, h.idexRegWrite, h.idexMemRead, h.idexMemWrite, h.idexLegal⟩

/-- EX and MEM hand their latches' words and control fields on (R213, R215). -/
theorem LatchInv.shift {o : Opc} {s : State} (h : LatchInv o s.pipe) {f : IfId} {d : IdEx} (hf : f.Indexed)
    (hd : d.Decoded o) : LatchInv o { ifid := f, idex := d, exmem := nextExMem s, memwb := nextMemWb s } where
  ifidRs := hf.1
  ifidRt := hf.2
  idexDest := hd.dest
  idexRegWrite := hd.regWrite
  idexMemRead := hd.memRead
  idexMemWrite := hd.memWrite
  idexLegal := hd.legal
  exmemDest := h.idexDest
  exmemRegWrite := h.idexRegWrite
  exmemMemRead := h.idexMemRead
  exmemMemWrite := h.idexMemWrite
  exmemLegal := h.idexLegal
  memwbDest := h.exmemDest
  memwbRegWrite := h.exmemRegWrite
  memwbLegal := h.exmemLegal

/-- A bubble carries the control fields of the zero word, which is NOP (R36, R99). -/
theorem idExZero_decoded (o : Opc) : IdEx.zero.Decoded o := ⟨rfl, rfl, rfl, rfl, rfl⟩

theorem ifIdZero_indexed : IfId.zero.Indexed := ⟨rfl, rfl⟩

/-- ID fills ID/EX with the decoder's outputs for the word it decoded, or with a bubble (R217, R220). -/
theorem idStage_decoded {s : State} {f : IfId} {i : Instr} (hi : decodeWord s.par.opc f.instr = .ok i)
    (sig : IdSignal) : (idStage sig f s).Decoded s.par.opc := by
  cases sig with
  | stall => exact idExZero_decoded _
  | flush _ | proceed => exact ⟨rfl, rfl, rfl, rfl, legal_ok hi⟩

/-- IF keeps the latch, zeroes it, or fills it with a fetched word and its index fields (R219 to R221). -/
theorem ifLatch_indexed {s : State} (h : s.pipe.ifid.Indexed) (sig : IdSignal) (f : Word) :
    (ifLatch sig f s).Indexed := by
  cases sig with
  | stall => exact h
  | flush _ => exact ifIdZero_indexed
  | proceed => exact ⟨rfl, rfl⟩

theorem stopInMem_pipe (s : State) : (stopInMem s).pipe = s.pipe := by simp [stopInMem]

theorem stopInId_pipe (s : State) :
    (stopInId s).pipe = { s.pipe with exmem := nextExMem s, memwb := nextMemWb s } := by simp [stopInId]

theorem commit_pipe (sig : IdSignal) (f : Word) (s : State) : (commit sig f s).pipe = nextPipe sig f s := by
  simp [commit]

@[simp] theorem stopInMem_par (s : State) : (stopInMem s).par = s.par := by simp [stopInMem]

@[simp] theorem stopInId_par (s : State) : (stopInId s).par = s.par := by simp [stopInId]

@[simp] theorem commit_par (sig : IdSignal) (f : Word) (s : State) : (commit sig f s).par = s.par := by
  simp [commit]

/-- Settles O43, along the three ends of a cycle. -/
theorem latchInvariantKept : Obligations.LatchInvariantKept := by
  intro s t h hc
  rcases (clock_next hc).2 with ⟨-, rfl⟩ | ⟨-, -, rfl⟩ | ⟨-, i, f, hi, -, rfl⟩
  · rw [stopInMem_par, stopInMem_pipe]
    exact h
  · rw [stopInId_par, stopInId_pipe]
    exact h.shift h.ifid h.idex
  · have hd : decodeWord (afterEx s).par.opc s.pipe.ifid.instr = .ok i := by rw [afterEx_par, hi]
    rw [commit_par, commit_pipe]
    exact h.shift (ifLatch_indexed h.ifid _ f) (afterEx_par s ▸ idStage_decoded hd _)

end Sys2Proof.Machine
end

section
/-! One shape for every instruction of the sequential model (R9): EX on the operands the register file holds, the
access check, and then either the fatal end or the instruction's effects and the end of a completed step. -/

namespace Sys2Proof.Machine

/-- The register an instruction reads as its first operand, `rs`; register 0, which reads as 0, where it reads none
(R103, R107). -/
def rsOperand : Instr → RegIdx
  | .add _ rs _ | .addu _ rs _ | .sub _ rs _ | .and _ rs _ | .or _ rs _ | .xor _ rs _ | .nor _ rs _
  | .nand _ rs _ | .slt _ rs _ | .mult rs _ | .multu rs _ | .jr rs | .addi _ rs _ | .addiu _ rs _
  | .andi _ rs _ | .ori _ rs _ | .nori _ rs _ | .slti _ rs _ | .lw _ rs _ | .lh _ rs _ | .lhu _ rs _
  | .lb _ rs _ | .lbu _ rs _ | .sw _ rs _ | .sh _ rs _ | .sb _ rs _ | .beq rs _ _ | .bne rs _ _
  | .bgtz rs _ => rs
  | .nop | .sll _ _ _ | .srl _ _ _ | .sra _ _ _ | .mfhi _ | .mflo _ | .lui _ _ | .j _ | .jal _ | .halt => 0#5

/-- The register an instruction reads as its second operand, `rt`; register 0 where it reads none (R103, R107). -/
def rtOperand : Instr → RegIdx
  | .add _ _ rt | .addu _ _ rt | .sub _ _ rt | .and _ _ rt | .or _ _ rt | .xor _ _ rt | .nor _ _ rt
  | .nand _ _ rt | .slt _ _ rt | .sll _ rt _ | .srl _ rt _ | .sra _ rt _ | .mult _ rt | .multu _ rt
  | .sw rt _ _ | .sh rt _ _ | .sb rt _ _ | .beq _ rt _ | .bne _ rt _ => rt
  | .nop | .mfhi _ | .mflo _ | .jr _ | .addi _ _ _ | .addiu _ _ _ | .lui _ _ | .andi _ _ _ | .ori _ _ _
  | .nori _ _ _ | .slti _ _ _ | .lw _ _ _ | .lh _ _ _ | .lhu _ _ _ | .lb _ _ _ | .lbu _ _ _ | .bgtz _ _
  | .j _ | .jal _ | .halt => 0#5

/-- EX of the instruction at `pc`, on the register file's values. -/
def seqEx (i : Instr) (s : State) : ExOut :=
  execEX i (s.reg (rsOperand i)) (s.reg (rtOperand i)) (nextPc s.pc) s

/-- What the check of its access raises; nothing for an instruction that makes none (R67). -/
def accessMask (i : Instr) (s : State) : FaultMask :=
  if i.control.memRead || i.control.memWrite then checkData s.par (seqEx i s).result i.control.width
  else FaultMask.clear

/-- Its write-back as the latch WB would retire it from (R35); WB does not look at the latch's word. -/
def seqWb (i : Instr) (s : State) : MemWb where
  instr := 0#32
  rtData := if i.control.memRead then
      loadValue s.dmem (seqEx i s).result.toNat i.control.width i.control.ext
    else (seqEx i s).result
  writeDest := i.control.dest
  regWrite := i.control.regWrite

/-- The address of the next instruction (R185). -/
def seqPc (i : Instr) (s : State) : Word := (resolve i (nextPc s.pc) s.reg).getD (nextPc s.pc)

/-- The data memory after the instruction, its access in bounds and aligned. -/
def seqDmem (i : Instr) (s : State) : Memory 8 :=
  if i.control.memWrite then
    storeValue s.dmem (seqEx i s).result.toNat i.control.width (s.reg (rtOperand i))
  else s.dmem

/-- All effects of an instruction that completes, before the step is ended. -/
def seqEffects (i : Instr) (s : State) : State :=
  { wbState (seqWb i s) { (seqEx i s).state with dmem := seqDmem i s } with pc := seqPc i s }

/-- The faults of an instruction that completes. -/
def seqMask (i : Instr) (s : State) : FaultMask := (seqEx i s).fm ||| wbMask (seqWb i s)

/-- The state after an instruction. -/
def seqResult (i : Instr) (s : State) : State :=
  if accessMask i s = FaultMask.clear then (seqEffects i s).endStep (seqMask i s)
  else s.endStep ((seqEx i s).fm ||| accessMask i s)

theorem seqResult_completes {i : Instr} {s : State} (h : accessMask i s = FaultMask.clear) :
    seqResult i s = (seqEffects i s).endStep (seqMask i s) := if_pos h

theorem seqResult_faults {i : Instr} {s : State} (h : accessMask i s ≠ FaultMask.clear) :
    seqResult i s = s.endStep ((seqEx i s).fm ||| accessMask i s) := if_neg h

/-! ## What EX leaves alone (R155, R215) -/

theorem seqEx_state_cases (i : Instr) (s : State) :
    (seqEx i s).state = s ∨ (∃ hi lo, (seqEx i s).state = s.writeHiLo hi lo) ∨ (seqEx i s).state = s.unlock :=
  execEX_state_cases ..

@[simp] theorem seqEx_x (i : Instr) (s : State) : (seqEx i s).state.x = s.x := by
  rcases seqEx_state_cases i s with h | ⟨_, _, h⟩ | h <;> simp [h]

@[simp] theorem seqEx_pc (i : Instr) (s : State) : (seqEx i s).state.pc = s.pc := by
  rcases seqEx_state_cases i s with h | ⟨_, _, h⟩ | h <;> simp [h]

@[simp] theorem seqEx_imem (i : Instr) (s : State) : (seqEx i s).state.imem = s.imem := by
  rcases seqEx_state_cases i s with h | ⟨_, _, h⟩ | h <;> simp [h]

@[simp] theorem seqEx_dmem (i : Instr) (s : State) : (seqEx i s).state.dmem = s.dmem := by
  rcases seqEx_state_cases i s with h | ⟨_, _, h⟩ | h <;> simp [h]

@[simp] theorem seqEx_faultLog (i : Instr) (s : State) : (seqEx i s).state.faultLog = s.faultLog := by
  rcases seqEx_state_cases i s with h | ⟨_, _, h⟩ | h <;> simp [h]

@[simp] theorem seqEx_cycle (i : Instr) (s : State) : (seqEx i s).state.cycle = s.cycle := by
  rcases seqEx_state_cases i s with h | ⟨_, _, h⟩ | h <;> simp [h]

@[simp] theorem seqEx_stopped (i : Instr) (s : State) : (seqEx i s).state.stopped = s.stopped := by
  rcases seqEx_state_cases i s with h | ⟨_, _, h⟩ | h <;> simp [h]

@[simp] theorem seqEx_par (i : Instr) (s : State) : (seqEx i s).state.par = s.par := by
  rcases seqEx_state_cases i s with h | ⟨_, _, h⟩ | h <;> simp [h]

/-! ## Each way of retiring an instruction has the shape -/

section
variable {i : Instr} {s : State}

theorem accessMask_noAccess (hr : i.control.memRead = false) (hw : i.control.memWrite = false) :
    accessMask i s = FaultMask.clear := by simp [accessMask, hr, hw]

theorem seqEffects_noStore (hw : i.control.memWrite = false) :
    seqEffects i s = { wbState (seqWb i s) (seqEx i s).state with pc := seqPc i s } := by
  have hd : seqDmem i s = (seqEx i s).state.dmem := by simp [seqDmem, hw]
  rw [seqEffects, hd]

/-- An ALU instruction or a move from HI or LO (R130, R152, R160). -/
theorem seqResult_reg (hd : i.control.regWrite = true) (hr : i.control.memRead = false)
    (hw : i.control.memWrite = false) (hj : resolve i (nextPc s.pc) s.reg = none) :
    Host.Outcome.next (seqResult i s) = retireReg i.control.dest (seqEx i s) := by
  rw [seqResult_completes (accessMask_noAccess hr hw), seqEffects_noStore hw]
  simp [retireReg, seqMask, wbState, wbMask, seqWb, hd, hr, seqPc, hj, State.advance]

/-- A multiply, NOP or HALT (R150, R200, R201). -/
theorem seqResult_plain (hd : i.control.regWrite = false) (hr : i.control.memRead = false)
    (hw : i.control.memWrite = false) (hj : resolve i (nextPc s.pc) s.reg = none) :
    Host.Outcome.next (seqResult i s) = retirePlain (seqEx i s) := by
  rw [seqResult_completes (accessMask_noAccess hr hw), seqEffects_noStore hw]
  simp [retirePlain, seqMask, wbState, wbMask, seqWb, hd, seqPc, hj, State.advance]

/-- A transfer of control, JAL's write of the link register included (R185, R190). -/
theorem seqResult_transfer (hr : i.control.memRead = false) (hw : i.control.memWrite = false)
    (hx : (seqEx i s).state = s) (hm : (seqEx i s).fm = FaultMask.clear)
    (hb : wbMask (seqWb i s) = FaultMask.clear) :
    Host.Outcome.next (seqResult i s) = retireTo (wbState (seqWb i s) s) (seqPc i s) := by
  rw [seqResult_completes (accessMask_noAccess hr hw), seqEffects_noStore hw]
  simp [retireTo, seqMask, hx, hm, hb]

/-- A load (R171 to R175). -/
theorem seqResult_load {n : Width} {e : LoadExt} {rt : RegIdx} {c : Imm16} (hc : i.control = Control.load rt n e)
    (hx : seqEx i s = exAddress c (s.reg (rsOperand i)) s) (hj : resolve i (nextPc s.pc) s.reg = none) :
    Host.Outcome.next (seqResult i s) = loadInto n e rt (rsOperand i) c s := by
  by_cases hb : checkData s.par (effectiveAddress (s.reg (rsOperand i)) c) n = FaultMask.clear
  · rw [loadInto_ok hb, seqResult_completes (by
      simp [accessMask, hc, hx, exAddress, exPure, hb, Control.load])]
    simp [retireReg, seqEffects, seqMask, seqDmem, wbState, wbMask, seqWb, hc, hx, seqPc, hj, State.advance, exAddress,
      exPure, addressFault, Control.load, Control.writes, Control.none]
  · rw [loadInto_bad hb, seqResult_faults (by simpa [accessMask, hc, hx, exAddress, exPure, Control.load] using hb)]
    simp [accessMask, hc, hx, exAddress, exPure, addressFault, Control.load]

/-- A store (R176 to R178). -/
theorem seqResult_store {n : Width} {c : Imm16} (hc : i.control = Control.store n)
    (hx : seqEx i s = exAddress c (s.reg (rsOperand i)) s) (hj : resolve i (nextPc s.pc) s.reg = none) :
    Host.Outcome.next (seqResult i s) = storeFrom n (rtOperand i) (rsOperand i) c s := by
  by_cases hb : checkData s.par (effectiveAddress (s.reg (rsOperand i)) c) n = FaultMask.clear
  · rw [storeFrom_ok hb, seqResult_completes (by
      simp [accessMask, hc, hx, exAddress, exPure, hb, Control.store])]
    simp [seqEffects, seqMask, seqDmem, wbState, wbMask, seqWb, hc, hx, seqPc, hj, exAddress,
      exPure, addressFault, Control.store, Control.reads, Control.none]
  · rw [storeFrom_bad hb, seqResult_faults (by simpa [accessMask, hc, hx, exAddress, exPure, Control.store] using hb)]
    simp [accessMask, hc, hx, exAddress, exPure, addressFault, Control.store]

end

/-- Every instruction has the shape: each meaning is one of the ways of retiring. -/
theorem exec_eq_seqResult (i : Instr) (s : State) : exec i s = .next (seqResult i s) := by
  symm
  cases i with
  | lw | lh | lhu | lb | lbu => exact seqResult_load rfl rfl rfl
  | sw | sh | sb => exact seqResult_store rfl rfl rfl
  | j | jr | jal => exact seqResult_transfer rfl rfl rfl rfl rfl
  | beq | bne | bgtz =>
    refine (seqResult_transfer rfl rfl rfl rfl rfl).trans (congrArg (retireTo s) ?_)
    simp only [seqPc, resolve]
    split <;> rfl
  | nop | halt | mult | multu => exact seqResult_plain rfl rfl rfl rfl
  | _ => exact seqResult_reg rfl rfl rfl rfl

end Sys2Proof.Machine
end

section
/-! The canonical data of both memories (R30, R31): only a store changes a memory, and only inside the array. -/

namespace Sys2Proof.Machine

/-- The invariant speaks of the memories and the parameters only. -/
theorem DataInv.congr {s t : State} (h : DataInv s) (hi : t.imem = s.imem) (hd : t.dmem = s.dmem)
    (hp : t.par = s.par) : DataInv t where
  imemWf := hi ▸ h.imemWf
  dmemWf := hd ▸ h.dmemWf
  dmemInside := by rw [hd, hp]; exact h.dmemInside

/-- A store that passed `CheckData` stays inside the array (R67). -/
theorem DataInv.store {s t : State} (h : DataInv s) {a : Word} {n : Width} {v : Word}
    (hc : checkData s.par a n = FaultMask.clear) (hi : t.imem = s.imem)
    (hd : t.dmem = storeValue s.dmem a.toNat n v) (hp : t.par = s.par) : DataInv t where
  imemWf := hi ▸ h.imemWf
  dmemWf := hd ▸ wf_storeValue _ h.dmemWf _ _ _
  dmemInside := by
    intro c hmem
    rw [hd] at hmem
    rw [hp]
    obtain ⟨hfits, -⟩ := (checkData_clear_iff _ _ _).1 hc
    rcases mem_storeValue _ _ _ _ hmem with hold | ⟨-, hnew⟩
    · exact h.dmemInside c hold
    · omega

theorem DataInv.endStep {s : State} (h : DataInv s) (fm : FaultMask) : DataInv (s.endStep fm) :=
  h.congr (by simp) (by simp) (by simp)

@[simp] theorem seqEffects_imem (i : Instr) (s : State) : (seqEffects i s).imem = s.imem := by simp [seqEffects]

@[simp] theorem seqEffects_dmem (i : Instr) (s : State) : (seqEffects i s).dmem = seqDmem i s := by simp [seqEffects]

@[simp] theorem seqEffects_par (i : Instr) (s : State) : (seqEffects i s).par = s.par := by simp [seqEffects]

theorem DataInv.seqEffects {s : State} (h : DataInv s) {i : Instr} (ha : accessMask i s = FaultMask.clear) :
    DataInv (seqEffects i s) := by
  cases hw : i.control.memWrite with
  | true =>
    have hc : checkData s.par (seqEx i s).result i.control.width = FaultMask.clear := by
      simpa [accessMask, hw] using ha
    exact h.store hc (by simp) ((seqEffects_dmem i s).trans (if_pos hw)) (by simp)
  | false => exact h.congr (by simp) (by simp [seqDmem, hw]) (by simp)

theorem DataInv.exec {s t : State} (h : DataInv s) {i : Instr} (he : exec i s = .next t) : DataInv t := by
  rw [exec_eq_seqResult] at he
  cases he
  by_cases ha : accessMask i s = FaultMask.clear
  · rw [seqResult_completes ha]
    exact (h.seqEffects ha).endStep _
  · rw [seqResult_faults ha]
    exact h.endStep _

/-- MEM stores only where its own check raised nothing (R213). -/
theorem DataInv.memState {s : State} (h : DataInv s) {e : ExMem} (hm : (memMask e s.par).isFatal = false) :
    DataInv (memState e s) := by
  cases hw : e.memWrite with
  | true =>
    have hc := memMask_clear hm
    simp only [memMask, ExMem.accesses, hw, Bool.or_true, if_true] at hc
    exact h.store hc (by simp) (congrArg State.dmem (if_pos hw)) (by simp)
  | false => simpa [Machine.memState, hw] using h

theorem DataInv.afterEx {s : State} (h : DataInv s) (hm : (memMask s.pipe.exmem s.par).isFatal = false) :
    DataInv (afterEx s) :=
  (h.memState hm).congr (by simp) (afterEx_dmem s) (by simp)

theorem DataInv.step {s t : State} (h : DataInv s) (hs : step s = .next t) : DataInv t := by
  obtain ⟨-, w, -, ⟨i, -, he⟩ | ⟨-, rfl⟩⟩ := step_next hs
  · exact h.exec he
  · exact h.endStep _

theorem DataInv.clock {s t : State} (h : DataInv s) (hs : clock s = .next t) : DataInv t := by
  rcases (clock_next hs).2 with ⟨-, rfl⟩ | ⟨hm, -, rfl⟩ | ⟨hm, i, f, -, -, rfl⟩
  · exact h.congr (by simp [stopInMem]) (by simp [stopInMem]) (by simp [stopInMem])
  · exact (h.afterEx hm).congr (by simp [stopInId]) (by simp [stopInId]) (by simp [stopInId])
  · exact (h.afterEx hm).congr (by simp [commit]) (by simp [commit]) (by simp [commit])

/-- Settles O45: a store is made only where `CheckData` raised nothing. -/
theorem dataInvariantKept : Obligations.DataInvariantKept :=
  ⟨fun _ _ => DataInv.step, fun _ _ => DataInv.clock⟩

end Sys2Proof.Machine
end

section
/-! The end of a step (R222, R256): at either level a step is a body that touches neither the log, the counter, the
status nor the cell of register 0, and then `State.endStep`. -/

namespace Sys2Proof.Machine

/-- The cell of register 0 is out of the write port's reach (R21). -/
@[simp] theorem State.setReg_x_zero (s : State) (i : RegIdx) (v : Word) : (s.setReg i v).x[0] = s.x[0] := by
  unfold State.setReg
  split
  · rfl
  · next hi => exact Vector.getElem_set_ne i.isLt _ fun h => hi (BitVec.eq_of_toNat_eq h)

@[simp] theorem wbState_x_zero (m : MemWb) (s : State) : (wbState m s).x[0] = s.x[0] := by
  unfold wbState; split <;> simp

/-- The body of a step leads from `s` to `u`: what only the end of a step may change is as before, and so is the cell
of register 0. -/
structure StepBody (s u : State) : Prop where
  x0 : u.x[0] = s.x[0]
  faultLog : u.faultLog = s.faultLog
  cycle : u.cycle = s.cycle
  stopped : u.stopped = s.stopped

theorem StepBody.refl (s : State) : StepBody s s := ⟨rfl, rfl, rfl, rfl⟩

theorem seqEffects_stepBody (i : Instr) (s : State) : StepBody s (seqEffects i s) := by
  constructor <;> simp [seqEffects]

theorem exec_ends {i : Instr} {s t : State} (h : exec i s = .next t) :
    ∃ u fm, StepBody s u ∧ t = u.endStep fm := by
  rw [exec_eq_seqResult] at h
  cases h
  by_cases ha : accessMask i s = FaultMask.clear
  · exact ⟨_, _, seqEffects_stepBody i s, seqResult_completes ha⟩
  · exact ⟨_, _, StepBody.refl s, seqResult_faults ha⟩

theorem step_ends {s t : State} (h : step s = .next t) :
    s.stopped = false ∧ ∃ u fm, StepBody s u ∧ t = u.endStep fm := by
  obtain ⟨hr, w, -, ⟨i, -, he⟩ | ⟨-, rfl⟩⟩ := step_next h
  · exact ⟨running_stopped hr, exec_ends he⟩
  · exact ⟨running_stopped hr, _, _, StepBody.refl s, rfl⟩

/-- A cycle is ended with the mask its outputs name, wherever it is cut short (R222, R224). -/
theorem clock_ends {s t : State} (h : clock s = .next t) :
    s.stopped = false ∧ ∃ u, StepBody s u ∧ t = u.endStep (cycleTrace s).fm := by
  obtain ⟨hr, hcases⟩ := clock_next h
  refine ⟨running_stopped hr, ?_⟩
  rcases hcases with ⟨hm, rfl⟩ | ⟨hm, ⟨e, hd⟩, rfl⟩ | ⟨hm, i, f, hd, -, rfl⟩
  · have hfm : (cycleTrace s).fm = maskAfterMem s := by simp [cycleTrace, cycleMask, hm]
    rw [hfm]
    exact ⟨_, by constructor <;> simp, rfl⟩
  · have hfm : (cycleTrace s).fm = maskAfterEx s ||| FaultMask.illegalInstruction := by
      simp [cycleTrace, cycleMask, hm, hd]
    rw [hfm]
    exact ⟨_, by constructor <;> simp, rfl⟩
  · have hfm : (cycleTrace s).fm = maskAfterEx s := by simp [cycleTrace, cycleMask, hm, hd]
    rw [hfm]
    exact ⟨_, by constructor <;> simp, rfl⟩

end Sys2Proof.Machine
end

section
/-! What follows from the end of a step alone: register 0, the counter, the log (R21, R39, R40). -/

namespace Sys2Proof.Machine

theorem StepBody.endStep_x0 {s u : State} (h : StepBody s u) (fm : FaultMask) : (u.endStep fm).x[0] = s.x[0] := by
  simpa using h.x0

/-- The counter moves exactly with a completed step (R40, R256). -/
theorem StepBody.endStep_counts {s u : State} (h : StepBody s u) (hs : s.stopped = false) (fm : FaultMask) :
    (u.endStep fm).cycle = if (u.endStep fm).stopped then s.cycle else s.cycle + 1 := by
  simp [h.cycle, h.stopped, hs]

theorem StepBody.endStep_logs {s u : State} (h : StepBody s u) (fm : FaultMask) :
    (u.endStep fm).faultLog = s.faultLog ++ logEntry s.cycle fm := by
  simp [h.faultLog, h.cycle]

/-- Settles O25: the bodies of a step leave the cell alone, and the read port answers 0 whatever it holds. -/
theorem registerZeroIsHardwired : Obligations.RegisterZeroIsHardwired := by
  refine ⟨State.reg_zero, fun i s t h => ?_, fun s t h => ?_, fun s t h => ?_, fun s vs => State.reg_zero _⟩
  · obtain ⟨u, fm, hb, rfl⟩ := exec_ends h
    exact ⟨hb.endStep_x0 fm, State.reg_zero _⟩
  · obtain ⟨-, u, fm, hb, rfl⟩ := step_ends h
    exact ⟨hb.endStep_x0 fm, State.reg_zero _⟩
  · obtain ⟨-, u, hb, rfl⟩ := clock_ends h
    exact ⟨hb.endStep_x0 _, State.reg_zero _⟩

/-- A longer log has seen the bits of what was appended as well (R39). -/
theorem faultsSeen_append {s t : State} {c : Nat} {fm : FaultMask} (h : t.faultLog = s.faultLog ++ logEntry c fm) :
    t.faultsSeen = s.faultsSeen ||| fm := by
  rw [State.faultsSeen, h, List.foldl_append, ← State.faultsSeen]
  by_cases hfm : fm = FaultMask.clear
  · simp [hfm]
  · simp [logEntry, hfm]

/-- Settles O55: every end of a step appends its mask's entry, and nothing else touches the log. -/
theorem faultLogOnlyGrows : Obligations.FaultLogOnlyGrows := by
  refine ⟨fun s t h => ?_, fun s t h => ?_, fun s t h => ?_⟩
  · obtain ⟨-, u, hb, rfl⟩ := clock_ends h
    exact hb.endStep_logs _
  · obtain ⟨-, u, fm, hb, rfl⟩ := step_ends h
    by_cases hfm : fm = FaultMask.clear
    · left
      simpa [hfm] using hb.endStep_logs fm
    · right
      exact ⟨fm, hfm, by simpa [logEntry, hfm] using hb.endStep_logs fm⟩
  · obtain ⟨-, u, hb, rfl⟩ := clock_ends h
    exact faultsSeen_append (hb.endStep_logs _)

/-! ## The counter is read by no instruction -/

theorem seqEx_withCycle (i : Instr) (s : State) (n : Nat) :
    seqEx i { s with cycle := n } = { seqEx i s with state := { (seqEx i s).state with cycle := n } } := by
  cases i <;> rfl

theorem accessMask_withCycle (i : Instr) (s : State) (n : Nat) : accessMask i { s with cycle := n } = accessMask i s := by
  simp [accessMask, seqEx_withCycle]

theorem seqWb_withCycle (i : Instr) (s : State) (n : Nat) : seqWb i { s with cycle := n } = seqWb i s := by
  simp [seqWb, seqEx_withCycle]

theorem wbState_withCycle (m : MemWb) (s : State) (n : Nat) :
    wbState m { s with cycle := n } = { wbState m s with cycle := n } := by
  unfold wbState State.setReg
  split
  · split <;> rfl
  · rfl

theorem seqMask_withCycle (i : Instr) (s : State) (n : Nat) : seqMask i { s with cycle := n } = seqMask i s := by
  simp [seqMask, seqWb_withCycle, seqEx_withCycle]

theorem seqDmem_withCycle (i : Instr) (s : State) (n : Nat) : seqDmem i { s with cycle := n } = seqDmem i s := by
  simp only [seqDmem, seqEx_withCycle]
  rfl

theorem seqEffects_withCycle (i : Instr) (s : State) (n : Nat) :
    seqEffects i { s with cycle := n } = { seqEffects i s with cycle := n } := by
  have hb := wbState_withCycle (seqWb i s) { (seqEx i s).state with dmem := seqDmem i s } n
  simp only [seqEffects, seqWb_withCycle, seqDmem_withCycle, seqEx_withCycle, hb]
  rfl

/-- `t` and `u` are the outcomes of one body under the counts `c` and `n`: the same masks are logged behind `old`, each
under its own count, both counts move alike, and the rest is the same (R39, R40). -/
structure EndsAlike (old : List (Nat × FaultMask)) (c n : Nat) (fms : List FaultMask) (t u : State) : Prop where
  logged : t.faultLog = old ++ fms.map (fun fm => (c, fm))
  loggedOther : u.faultLog = old ++ fms.map (fun fm => (n, fm))
  counts : u.cycle + c = t.cycle + n
  same : { u with cycle := t.cycle, faultLog := t.faultLog } = t

/-- The masks of a log entry (R39). -/
theorem logEntry_eq_map (fm : FaultMask) :
    ∃ fms : List FaultMask, ∀ c, logEntry c fm = fms.map (fun m => (c, m)) := by
  by_cases h : fm = FaultMask.clear
  · exact ⟨[], fun c => by simp [logEntry, h]⟩
  · exact ⟨[fm], fun c => by simp [logEntry, h]⟩

theorem endStep_withCycle (s : State) (fm : FaultMask) (n : Nat) :
    ∃ fms, EndsAlike s.faultLog s.cycle n fms (s.endStep fm) (State.endStep { s with cycle := n } fm) := by
  obtain ⟨fms, hfms⟩ := logEntry_eq_map fm
  refine ⟨fms, ⟨by simp [hfms], by simp [hfms], ?_, ?_⟩⟩
  · simp only [State.endStep_cycle]
    split <;> omega
  · unfold State.endStep
    split <;> rfl

theorem seqResult_withCycle (i : Instr) (s : State) (n : Nat) :
    ∃ fms, EndsAlike s.faultLog s.cycle n fms (seqResult i s) (seqResult i { s with cycle := n }) := by
  by_cases ha : accessMask i s = FaultMask.clear
  · have ha' : accessMask i { s with cycle := n } = FaultMask.clear := by rwa [accessMask_withCycle]
    have hb := seqEffects_stepBody i s
    rw [seqResult_completes ha, seqResult_completes ha', seqEffects_withCycle i s n, seqMask_withCycle i s n]
    exact hb.faultLog ▸ hb.cycle ▸ endStep_withCycle (seqEffects i s) (seqMask i s) n
  · have ha' : accessMask i { s with cycle := n } ≠ FaultMask.clear := by rwa [accessMask_withCycle]
    rw [seqResult_faults ha, seqResult_faults ha', accessMask_withCycle i s n, seqEx_withCycle i s n]
    exact endStep_withCycle s _ n

/-- The watchdog is what stands between a machine that may run on and its next cycle (R223). -/
theorem pipeStatus_capped_iff {s : State} (hs : s.stopped = false) :
    pipeStatus s = .capped ↔ pipeHalted s = false ∧ s.cycle = s.par.maxCycles := by
  unfold pipeStatus statusOf
  cases pipeHalted s <;> simp [hs]

/-- Settles O52: a step's counter is its ending's, and the body of an instruction commutes with another count. -/
theorem onlyCompletedStepsCount : Obligations.OnlyCompletedStepsCount := by
  refine ⟨rfl, fun s t h => ?_, fun s t h => ?_, fun s hs => pipeStatus_capped_iff hs, fun i s t n h => ?_⟩
  · obtain ⟨hs, u, fm, hb, rfl⟩ := step_ends h
    exact hb.endStep_counts hs fm
  · obtain ⟨hs, u, hb, rfl⟩ := clock_ends h
    exact hb.endStep_counts hs _
  · rw [exec_eq_seqResult] at h
    cases h
    obtain ⟨fms, halike⟩ := seqResult_withCycle i s n
    exact ⟨_, fms, exec_eq_seqResult _ _, halike.logged, halike.loggedOther, halike.counts, halike.same⟩

end Sys2Proof.Machine
end

section
/-! Registers outside `Srcs` (R22, R103, R300): both operands of a decoded instruction read the same after such a
register has been changed, and EX, MEM and WB see the register file through the operands only. -/

namespace Sys2Proof.Machine

/-- An operand is the word's field exactly where the decoder says the field is read (R103). -/
theorem operands_of_decodeWord {o : Opc} {w : Word} {i : Instr} (h : decodeWord o w = .ok i) :
    rsOperand i = (if (controlOf o w).hasRs then rsOf w else 0#5) ∧
      rtOperand i = (if (controlOf o w).hasRt then rtOf w else 0#5) := by
  rw [control_of_decodeWord h, ← refill_of_decodeWord h]
  cases i <;> exact ⟨rfl, rfl⟩

/-- A register outside `Srcs` is no operand, unless it is register 0, where a write has no effect (R300). -/
theorem operand_notMem_srcs {o : Opc} {w : Word} {i : Instr} {r : RegIdx} (hd : decodeWord o w = .ok i)
    (hr : r ∉ srcs o w) : (rsOperand i = r → r = 0#5) ∧ (rtOperand i = r → r = 0#5) := by
  obtain ⟨hrs, hrt⟩ := operands_of_decodeWord hd
  constructor
  · rintro rfl
    split at hrs
    · next h => exact by_contra fun h0 => hr (by simpa [hrs] using mem_srcs_rs h (hrs ▸ h0))
    · exact hrs
  · rintro rfl
    split at hrt
    · next h => exact by_contra fun h0 => hr (by simpa [hrt] using mem_srcs_rt h (hrt ▸ h0))
    · exact hrt

theorem reg_setReg_of_ne_or_zero {s : State} {r q : RegIdx} (h : q = r → r = 0#5) (v : Word) :
    (s.setReg r v).reg q = s.reg q := by
  rw [State.reg_setReg, if_neg fun ⟨hq, h0⟩ => h0 (h hq)]

/-- The transfer target depends on the operands only (R218). -/
theorem resolve_congr (i : Instr) (p : Word) {f g : RegIdx → Word} (ha : f (rsOperand i) = g (rsOperand i))
    (hb : f (rtOperand i) = g (rtOperand i)) : resolve i p f = resolve i p g := by
  cases i with
  | jr | bgtz => simp only [rsOperand] at ha; simp only [resolve, ha]
  | beq | bne => simp only [rsOperand, rtOperand] at ha hb; simp only [resolve, ha, hb]
  | _ => rfl

theorem State.writeHiLo_setReg (s : State) (r : RegIdx) (v hi lo : Word) :
    (s.setReg r v).writeHiLo hi lo = (s.writeHiLo hi lo).setReg r v := by
  unfold State.setReg; split <;> rfl

theorem State.unlock_setReg (s : State) (r : RegIdx) (v : Word) : (s.setReg r v).unlock = s.unlock.setReg r v := by
  unfold State.setReg; split <;> rfl

/-- EX with given operands does not look at the register file (R215). -/
theorem execEX_setReg (i : Instr) (a b p : Word) (s : State) (r : RegIdx) (v : Word) :
    execEX i a b p (s.setReg r v) =
      { execEX i a b p s with state := (execEX i a b p s).state.setReg r v } := by
  cases i with
  | mult => simp [execEX, exMult, writeProduct, State.writeHiLo_setReg]
  | multu => simp [execEX, exMultu, writeProduct, State.writeHiLo_setReg]
  | mfhi => simp [execEX, exMfhi, exPure, State.unlock_setReg]
  | mflo => simp [execEX, exMflo, exPure, State.unlock_setReg]
  | _ => rfl

/-! ## What an instruction makes of each part of the state -/

@[simp] theorem seqEffects_hi (i : Instr) (s : State) : (seqEffects i s).hi = (seqEx i s).state.hi := by
  simp [seqEffects]

@[simp] theorem seqEffects_lo (i : Instr) (s : State) : (seqEffects i s).lo = (seqEx i s).state.lo := by
  simp [seqEffects]

@[simp] theorem seqEffects_lock (i : Instr) (s : State) : (seqEffects i s).lock = (seqEx i s).state.lock := by
  simp [seqEffects]

@[simp] theorem seqEffects_pc (i : Instr) (s : State) : (seqEffects i s).pc = seqPc i s := rfl

/-- The one register an instruction writes (R23, R104). -/
theorem reg_seqEffects (i : Instr) (s : State) (q : RegIdx) :
    (seqEffects i s).reg q =
      if i.control.regWrite = true ∧ q = i.control.dest ∧ q ≠ 0#5 then (seqWb i s).rtData else s.reg q := by
  have hreg : (seqEffects i s).reg q = (wbState (seqWb i s) { (seqEx i s).state with dmem := seqDmem i s }).reg q :=
    State.reg_congr rfl q
  have hex : State.reg { (seqEx i s).state with dmem := seqDmem i s } q = s.reg q := State.reg_congr (seqEx_x i s) q
  rw [hreg, reg_wbState, hex]
  rfl

section
variable {i : Instr} {s : State} {r : RegIdx} (v : Word) (ha : (s.setReg r v).reg (rsOperand i) = s.reg (rsOperand i))
  (hb : (s.setReg r v).reg (rtOperand i) = s.reg (rtOperand i))
include ha hb

theorem seqEx_setReg :
    seqEx i (s.setReg r v) = { seqEx i s with state := (seqEx i s).state.setReg r v } := by
  simp only [seqEx, ha, hb, State.setReg_pc, execEX_setReg]

theorem accessMask_setReg : accessMask i (s.setReg r v) = accessMask i s := by
  simp [accessMask, seqEx_setReg v ha hb]

theorem seqWb_setReg : seqWb i (s.setReg r v) = seqWb i s := by
  simp [seqWb, seqEx_setReg v ha hb]

theorem seqMask_setReg : seqMask i (s.setReg r v) = seqMask i s := by
  simp [seqMask, seqEx_setReg v ha hb, seqWb_setReg v ha hb]

theorem seqDmem_setReg : seqDmem i (s.setReg r v) = seqDmem i s := by
  simp [seqDmem, seqEx_setReg v ha hb, hb]

theorem seqPc_setReg : seqPc i (s.setReg r v) = seqPc i s := by
  simp [seqPc, resolve_congr i _ ha hb]

/-- Between instructions that complete only register `r` can differ, and only where it is not written over. -/
theorem reg_seqEffects_setReg {q : RegIdx} (hq : q ≠ r ∨ i.control.regWrite = true ∧ i.control.dest = q) :
    (seqEffects i (s.setReg r v)).reg q = (seqEffects i s).reg q := by
  simp only [reg_seqEffects, seqWb_setReg v ha hb]
  split
  · rfl
  · next hnot =>
    rcases hq with hqr | ⟨hw, hdest⟩
    · exact State.reg_setReg_other s hqr v
    · have h0 : q = 0#5 := by_contra fun h0 => hnot ⟨hw, hdest.symm, h0⟩
      simp [h0]

end

theorem accessMask_isFatal (i : Instr) (s : State) :
    (accessMask i s).isFatal = decide (accessMask i s ≠ FaultMask.clear) := by
  unfold accessMask
  split
  · exact checkData_isFatal _ _ _
  · rfl

/-- Settles O7: both operands read the same, and all that an instruction does comes from them and from parts of the
state that a register write leaves alone. -/
theorem resultsDependOnSourcesOnly : Obligations.ResultsDependOnSourcesOnly := by
  intro w i s t r v hd hr ht
  rw [exec_eq_seqResult] at ht
  cases ht
  obtain ⟨hrs, hrt⟩ := operand_notMem_srcs hd hr
  have ha := reg_setReg_of_ne_or_zero (s := s) hrs v
  have hb := reg_setReg_of_ne_or_zero (s := s) hrt v
  refine ⟨_, exec_eq_seqResult _ _, ?_⟩
  by_cases hc : accessMask i s = FaultMask.clear
  · have hbody := seqEffects_stepBody i s
    have hbody' := seqEffects_stepBody i (s.setReg r v)
    rw [seqResult_completes hc, seqResult_completes (by rwa [accessMask_setReg v ha hb]), seqMask_setReg v ha hb]
    refine ⟨fun q hq => ?_, fun hw hdest _ => ?_, ?_⟩
    · simpa using reg_seqEffects_setReg v ha hb (.inl hq)
    · simpa using reg_seqEffects_setReg v ha hb (.inr ⟨hw, hdest⟩)
    · simp [hbody.faultLog, hbody.cycle, hbody.stopped, hbody'.faultLog, hbody'.cycle, hbody'.stopped,
        seqEx_setReg v ha hb, seqPc_setReg v ha hb, seqDmem_setReg v ha hb]
  · rw [seqResult_faults hc, seqResult_faults (by rwa [accessMask_setReg v ha hb]), accessMask_setReg v ha hb,
      seqEx_setReg v ha hb]
    refine ⟨fun q hq => ?_, fun _ _ hcount => ?_, by simp⟩
    · simpa using State.reg_setReg_other s hq v
    · simp [FaultMask.isFatal_or, accessMask_isFatal, hc] at hcount

end Sys2Proof.Machine
end

section
/-! The reset state (R45, R281) and the four invariants in it. -/

namespace Sys2Proof.Machine

/-- Settles O33, by evaluation: both sides place empty images and the same parameters. -/
theorem resetStateIsAnEmptyBoot : Obligations.ResetStateIsAnEmptyBoot := ⟨rfl, rfl, rfl, rfl, rfl⟩

/-- Image loading lists no address outside the image's own cells (R281). -/
theorem Memory.mem_writeAll {n : Nat} (vs : List (BitVec n)) (m : Memory n) (a : Nat) {c : Nat × BitVec n}
    (h : c ∈ m.writeAll a vs) : c ∈ m ∨ c.1 < a + vs.length := by
  induction vs generalizing m a with
  | nil => exact .inl h
  | cons v vs ih =>
    rw [List.length_cons]
    rcases ih _ _ h with hmem | hlt
    · rcases Memory.mem_write m a v hmem with hold | rfl
      · exact .inl hold
      · right
        show a < a + (vs.length + 1)
        omega
    · right
      omega

/-- Four bubbles meet the latch invariant under every numbering: their word is NOP (R36, R99). -/
theorem latchInv_empty (o : Opc) : LatchInv o Pipe.empty := by
  constructor <;> rfl

/-- An empty log of a running machine meets the log invariant, whatever masks are possible. -/
theorem logInv_of_empty (possible : List FaultMask) {s : State} (hl : s.faultLog = []) (hs : s.stopped = false) :
    LogInv possible s := by
  constructor <;> simp [hl, hs]

section
variable (c : Build) (b : BootInputs)

theorem dataInv_resetWith (h : b.wellFormed c = true) : DataInv (resetWith c b) where
  imemWf := Memory.wf_writeAll _ _ rfl _
  dmemWf := Memory.wf_writeAll _ _ rfl _
  dmemInside := by
    have hfits : b.bytes.length ≤ c.dmemBytes := by
      simp only [BootInputs.wellFormed, Bool.and_eq_true, decide_eq_true_eq] at h
      obtain ⟨⟨-, hdata⟩, -⟩ := h
      exact hdata
    intro cell hcell
    rcases Memory.mem_writeAll b.bytes [] 0 hcell with hnil | hlt
    · cases hnil
    · show cell.1 < c.dmemBytes
      omega

@[simp] theorem resetWith_pipe : (resetWith c b).pipe = Pipe.empty := rfl

theorem latchInv_resetWith : LatchInv (resetWith c b).par.opc (resetWith c b).pipe := latchInv_empty c.opc

/-- The bubble in ID/EX has latched register 0, twice, and no load is in MEM. -/
theorem pipeInv_resetWith : PipeInv (resetWith c b) where
  latches := latchInv_resetWith c b
  rsLatched := by simp [Pipe.empty, IdEx.zero]
  rtLatched := by simp [Pipe.empty, IdEx.zero]
  loadGap := nofun
  frontPc := .inl rfl

theorem logInv_resetWith (possible : List FaultMask) : LogInv possible (resetWith c b) := logInv_of_empty possible rfl rfl

end

theorem invariants_resetWith (c : Build) (b : BootInputs) (h : b.wellFormed c = true) :
    DataInv (resetWith c b) ∧ LatchInv (resetWith c b).par.opc (resetWith c b).pipe ∧ PipeInv (resetWith c b) ∧
      LogInv pipelineMasks (resetWith c b) ∧ LogInv sequentialMasks (resetWith c b) :=
  ⟨dataInv_resetWith c b h, latchInv_resetWith c b, pipeInv_resetWith c b, logInv_resetWith c b _,
    logInv_resetWith c b _⟩

/-- Settles O47: the reset state is one of the well-formed boots. -/
theorem invariantsHoldAtReset : Obligations.InvariantsHoldAtReset := by
  refine ⟨?_, invariants_resetWith⟩
  rw [resetStateIsAnEmptyBoot.1]
  exact invariants_resetWith _ _ (by decide)

end Sys2Proof.Machine
end

section
/-! Accesses of different widths (R63, R64, R66): an access is a concatenation of the bytes it covers, the most
significant at the lowest address. -/

namespace Sys2Proof.Machine

/-- The laws of `storeValue` are those of a halfword write: it is the store of a register that holds the halfword. -/
theorem storeValue_half_setWidth (m : Memory 8) (a : Nat) (v : BitVec 16) :
    storeValue m a .half (v.setWidth 32) = memWrite2 m a v := by
  rw [storeValue, BitVec.extractLsb'_setWidth_of_le (by decide), BitVec.extractLsb'_eq_self]

/-! ## Wide reads -/

/-- Two neighbouring bytes of a value are read as its halfword. -/
theorem memRead2_of_bytes {m : Memory 8} {a w p : Nat} {v : BitVec w} (hhi : m.read a = v.extractLsb' (p + 8) 8)
    (hlo : m.read (a + 1) = v.extractLsb' p 8) : memRead2 m a = v.extractLsb' p 16 := by
  rw [memRead2, hhi, hlo]
  exact BitVec.extractLsb'_append_extractLsb'_eq_extractLsb' rfl

/-- A word is its two halfwords, upper first (R63). -/
theorem memRead4_eq_append (m : Memory 8) (a : Nat) : memRead4 m a = memRead2 m a ++ memRead2 m (a + 2) :=
  BitVec.append_assoc

theorem memRead2_congr {m n : Memory 8} {a : Nat} (h0 : m.read a = n.read a) (h1 : m.read (a + 1) = n.read (a + 1)) :
    memRead2 m a = memRead2 n a := by
  rw [memRead2, memRead2, h0, h1]

section
variable {m : Memory 8} (hm : m.wf = true) (a : Nat)
include hm

/-! ## A word written -/

theorem read_memWrite4 (v : Word) {k : Nat} (hk : k < 4) :
    (memWrite4 m a v).read (a + k) = v.extractLsb' (8 * (3 - k)) 8 := by
  obtain ⟨h0, h1, h2, h3⟩ := read_storeValue_word m hm a v
  match k, hk with
  | 0, _ => exact h0
  | 1, _ => exact h1
  | 2, _ => exact h2
  | 3, _ => exact h3

theorem memRead2_memWrite4_upper (v : Word) : memRead2 (memWrite4 m a v) a = v.extractLsb' 16 16 :=
  memRead2_of_bytes (read_memWrite4 hm a v (k := 0) (by decide)) (read_memWrite4 hm a v (k := 1) (by decide))

theorem memRead2_memWrite4_lower (v : Word) : memRead2 (memWrite4 m a v) (a + 2) = v.extractLsb' 0 16 :=
  memRead2_of_bytes (read_memWrite4 hm a v (k := 2) (by decide)) (read_memWrite4 hm a v (k := 3) (by decide))

theorem memRead4_memWrite4 (v : Word) : memRead4 (memWrite4 m a v) a = v := by
  calc memRead4 (memWrite4 m a v) a
      = v.extractLsb' 16 16 ++ v.extractLsb' 0 16 := by
        rw [memRead4_eq_append, memRead2_memWrite4_upper hm, memRead2_memWrite4_lower hm]
    _ = v.extractLsb' 0 32 := BitVec.extractLsb'_append_extractLsb'_eq_extractLsb' rfl
    _ = v := BitVec.extractLsb'_eq_self

/-! ## A halfword written -/

theorem read_memWrite2 (v : BitVec 16) :
    (memWrite2 m a v).read a = v.extractLsb' 8 8 ∧ (memWrite2 m a v).read (a + 1) = v.extractLsb' 0 8 := by
  have hbytes := read_storeValue_half m hm a (v.setWidth 32)
  rwa [storeValue_half_setWidth, BitVec.extractLsb'_setWidth_of_le (by decide),
    BitVec.extractLsb'_setWidth_of_le (by decide)] at hbytes

theorem memRead2_memWrite2 (v : BitVec 16) : memRead2 (memWrite2 m a v) a = v := by
  obtain ⟨hhi, hlo⟩ := read_memWrite2 hm a v
  exact (memRead2_of_bytes hhi hlo).trans BitVec.extractLsb'_eq_self

end

theorem read_memWrite2_other (m : Memory 8) (a : Nat) (v : BitVec 16) {b : Nat} (h : b < a ∨ a + 2 ≤ b) :
    (memWrite2 m a v).read b = m.read b :=
  storeValue_half_setWidth m a v ▸ read_storeValue_other m a .half _ b h

theorem wf_memWrite2 (m : Memory 8) (hm : m.wf = true) (a : Nat) (v : BitVec 16) : (memWrite2 m a v).wf = true :=
  storeValue_half_setWidth m a v ▸ wf_storeValue m hm a .half _

/-- A halfword written inside a word leaves the word's other half (R66). -/
theorem memRead4_memWrite2 {m : Memory 8} (hm : m.wf = true) (a : Nat) (v : BitVec 16) :
    memRead4 (memWrite2 m a v) a = v ++ memRead2 m (a + 2) := by
  have hlower : memRead2 (memWrite2 m a v) (a + 2) = memRead2 m (a + 2) :=
    memRead2_congr (read_memWrite2_other m a v (.inr (by omega))) (read_memWrite2_other m a v (.inr (by omega)))
  rw [memRead4_eq_append, memRead2_memWrite2 hm, hlower]

/-- Settles O22, width by width: each write is a store, whose bytes and frame are known, and a wide read is the
concatenation of its bytes. -/
theorem memoryIsBigEndianBytes : Obligations.MemoryIsBigEndianBytes := by
  intro m a hm
  refine ⟨fun v => ?word, fun v => ?half, fun v => ?byte⟩
  case word =>
    exact ⟨memRead4_memWrite4 hm a v, memRead2_memWrite4_upper hm a v, memRead2_memWrite4_lower hm a v,
      fun _ => read_memWrite4 hm a v, read_storeValue_other m a .word v, wf_storeValue m hm a .word v⟩
  case half =>
    obtain ⟨hhi, hlo⟩ := read_memWrite2 hm a v
    exact ⟨memRead2_memWrite2 hm a v, hhi, hlo, memRead4_memWrite2 hm a v, fun _ => read_memWrite2_other m a v,
      wf_memWrite2 m hm a v⟩
  case byte =>
    exact ⟨m.read_write_same hm a v, fun _ => m.read_write_other v, m.wf_write hm a v⟩

end Sys2Proof.Machine
end

section
/-! What one instruction, step and clock cycle leave of the memories and the parameters (R31, R60, R74). -/

namespace Sys2Proof.Machine

/-- All that one instruction can do: its effects, or the fatal end at a failed check of its access (R68, R256). -/
theorem exec_next {i : Instr} {s t : State} (h : exec i s = .next t) :
    (accessMask i s = FaultMask.clear ∧ t = (seqEffects i s).endStep (seqMask i s)) ∨
      (accessMask i s ≠ FaultMask.clear ∧ t = s.endStep ((seqEx i s).fm ||| accessMask i s)) := by
  rw [exec_eq_seqResult] at h
  cases h
  by_cases ha : accessMask i s = FaultMask.clear
  · exact .inl ⟨ha, seqResult_completes ha⟩
  · exact .inr ⟨ha, seqResult_faults ha⟩

theorem exec_keeps_imem_par {i : Instr} {s t : State} (h : exec i s = .next t) : t.imem = s.imem ∧ t.par = s.par := by
  rcases exec_next h with ⟨-, rfl⟩ | ⟨-, rfl⟩ <;> simp

theorem step_keeps_imem_par {s t : State} (h : step s = .next t) : t.imem = s.imem ∧ t.par = s.par := by
  obtain ⟨-, w, -, ⟨i, -, he⟩ | ⟨-, rfl⟩⟩ := step_next h
  · exact exec_keeps_imem_par he
  · simp [illegalStop]

theorem clock_keeps_imem_par {s t : State} (h : clock s = .next t) : t.imem = s.imem ∧ t.par = s.par := by
  rcases (clock_next h).2 with ⟨-, rfl⟩ | ⟨-, -, rfl⟩ | ⟨-, i, f, -, -, rfl⟩
  · simp [stopInMem]
  · simp [stopInId]
  · simp [commit]

/-- The data memory after an instruction is the one its store leaves, if its access passes the check. -/
theorem exec_dmem {i : Instr} {s t : State} (h : exec i s = .next t) :
    t.dmem = if accessMask i s = FaultMask.clear then seqDmem i s else s.dmem := by
  rcases exec_next h with ⟨ha, rfl⟩ | ⟨ha, rfl⟩ <;> simp [ha]

/-- The data memory after a clock cycle is the one MEM leaves, if its access passes the check (R213, R222). -/
theorem clock_dmem {s t : State} (h : clock s = .next t) :
    t.dmem = if (memMask s.pipe.exmem s.par).isFatal then s.dmem else (memState s.pipe.exmem s).dmem := by
  rcases (clock_next h).2 with ⟨hm, rfl⟩ | ⟨hm, -, rfl⟩ | ⟨hm, i, f, -, -, rfl⟩
  · simp [hm, stopInMem]
  · simp [hm, stopInId, afterEx_dmem]
  · simp [hm, commit, afterEx_dmem]

/-- MEM writes only the bytes of its store (R64, R213). -/
theorem read_memState_other (e : ExMem) (s : State) {b : Nat}
    (h : b < e.aluResult.toNat ∨ e.aluResult.toNat + (controlOf s.par.opc e.instr).width.bytes ≤ b) :
    (memState e s).dmem.read b = s.dmem.read b := by
  unfold memState
  split
  · exact read_storeValue_other _ _ _ _ _ h
  · rfl

/-- EX raises no fatal fault (R215, R251). -/
@[simp] theorem seqEx_fm_isFatal (i : Instr) (s : State) : (seqEx i s).fm.isFatal = false := by
  cases i with
  | add | sub | addi | lw | lh | lhu | lb | lbu | sw | sh | sb => exact isFatal_raiseIf_numberOverflow _
  | mult | multu => exact isFatal_raiseIf_hiLoOverwrite _
  | _ => exact FaultMask.isFatal_clear

/-- An instruction that completes is counted (R40). -/
@[simp] theorem seqMask_isFatal (i : Instr) (s : State) : (seqMask i s).isFatal = false := by
  simp [seqMask, FaultMask.isFatal_or]

/-- A counter that stands still tells of a failed check of the access (R256). -/
theorem accessMask_of_cycle {i : Instr} {s t : State} (h : exec i s = .next t) (hc : t.cycle = s.cycle) :
    accessMask i s ≠ FaultMask.clear := by
  rcases exec_next h with ⟨-, rfl⟩ | ⟨ha, -⟩
  · simp [(seqEffects_stepBody i s).cycle] at hc
  · exact ha

/-- Settles O28: at either level the data memory is the old one or the one a checked store leaves. -/
theorem onlyStoresChangeDataMemory : Obligations.OnlyStoresChangeDataMemory := by
  refine ⟨fun i s t h hw => ?_, fun i s t h hc => ?_, fun s t h hw => ?_, fun s t h hm => ?_, fun s t h b hb => ?_,
    fun i s t h => (exec_keeps_imem_par h).2, fun s t h => (clock_keeps_imem_par h).2⟩
  · rw [exec_dmem h, seqDmem, hw]
    exact ite_self _
  · rw [exec_dmem h, if_neg (accessMask_of_cycle h hc)]
  · rw [clock_dmem h, memState, hw]
    exact ite_self _
  · rw [clock_dmem h, if_pos hm]
  · rw [clock_dmem h]
    split
    · rfl
    · exact read_memState_other _ s hb

end Sys2Proof.Machine
end

section
/-! The check of a data access (R67). -/

namespace Sys2Proof.Machine

theorem checkData_eq_accessFaults (p : Params) (a : Word) (n : Width) :
    checkData p a n = accessFaults p a.toNat n.bytes := by
  simp only [checkData, accessFaults, raiseIf, decide_eq_true_eq]
  rfl

theorem checkData_isFatal_iff (p : Params) (a : Word) (n : Width) :
    (checkData p a n).isFatal = true ↔ ¬ AccessOk p a.toNat n.bytes := by
  rw [checkData_isFatal, decide_eq_true_iff, ne_eq, checkData_clear_iff, AccessOk]

theorem checkData_byte_not_misaligned (p : Params) (a : Word) : (checkData p a .byte).getLsbD 4 = false := by
  have haligned : a.toNat % Width.byte.bytes = 0 := Nat.mod_one _
  rw [checkData_eq_accessFaults, accessFaults, if_neg (not_not_intro haligned)]
  split <;> rfl

theorem memMask_eq (e : ExMem) (p : Params) : memMask e p =
    if e.memRead = true ∨ e.memWrite = true then checkData p e.aluResult (controlOf p.opc e.instr).width
    else 0x00#6 := by
  simp only [memMask, ExMem.accesses, Bool.or_eq_true]
  rfl

/-- A fatal fault in MEM stops the machine (R222, R256). -/
theorem clock_stopped_of_memMask {s t : State} (h : clock s = .next t)
    (hm : (memMask s.pipe.exmem s.par).isFatal = true) : t.stopped = true := by
  rcases (clock_next h).2 with ⟨-, rfl⟩ | ⟨hm', -⟩ | ⟨hm', -⟩
  · simp [stopInMem, maskAfterMem, FaultMask.isFatal_or, hm]
  all_goals simp [hm] at hm'

/-- Settles O23: `checkData` is the two tests, and MEM is where a cycle makes them. -/
theorem checkDataRaisesBothTests : Obligations.CheckDataRaisesBothTests :=
  ⟨fun p a n => ⟨checkData_eq_accessFaults p a n, checkData_isFatal_iff p a n⟩, checkData_byte_not_misaligned,
    memMask_eq, fun _ _ h hm => ⟨(clock_dmem h).trans (if_pos hm), clock_stopped_of_memMask h hm⟩⟩

end Sys2Proof.Machine
end

section
/-! Alignment of the pc (R80, R192): every target but JR's register is a multiple of 4. -/

namespace Sys2Proof.Machine

theorem nextPc_aligned {a : Word} (h : a.toNat % 4 = 0) : (nextPc a).toNat % 4 = 0 := by
  have hlt := a.isLt
  simp only [nextPc, BitVec.toNat_add, BitVec.toNat_ofNat]
  omega

theorem branchTarget_aligned {p : Word} (h : p.toNat % 4 = 0) (c : Imm16) : (branchTarget p c).toNat % 4 = 0 := by
  have hshift : (signExt16 c <<< 2).toNat % 4 = 0 := by
    simp only [BitVec.toNat_shiftLeft, Nat.shiftLeft_eq]
    omega
  rw [branchTarget, BitVec.toNat_add]
  omega

theorem jumpTarget_aligned (p : Word) (c : Target26) : (jumpTarget p c).toNat % 4 = 0 := by
  rw [jumpTarget, BitVec.toNat_append, Nat.shiftLeft_eq]
  simp

/-- The target of a transfer that is taken (R186 to R191). -/
theorem resolve_aligned {i : Instr} {p t : Word} {v : RegIdx → Word} (hp : p.toNat % 4 = 0)
    (hjr : ∀ rs, i = .jr rs → (v rs).toNat % 4 = 0) (h : resolve i p v = some t) : t.toNat % 4 = 0 := by
  cases i with
  | jr rs =>
    cases h
    exact hjr rs rfl
  | j | jal =>
    cases h
    exact jumpTarget_aligned _ _
  | beq | bne | bgtz =>
    obtain ⟨-, ⟨⟩⟩ := Option.ite_none_right_eq_some.1 h
    exact branchTarget_aligned hp _
  | _ => cases h

theorem seqPc_aligned {i : Instr} {s : State} (hs : s.pc.toNat % 4 = 0)
    (hjr : ∀ rs, i = .jr rs → (s.reg rs).toNat % 4 = 0) : (seqPc i s).toNat % 4 = 0 := by
  rw [seqPc]
  cases h : resolve i (nextPc s.pc) s.reg with
  | none => exact nextPc_aligned hs
  | some t => exact resolve_aligned (nextPc_aligned hs) hjr h

/-- Settles O21: an instruction ends at its next address or, stopped by its access, where it began. -/
theorem pcStaysAligned : Obligations.PcStaysAligned := by
  intro i s t h hs hjr
  rcases exec_next h with ⟨-, rfl⟩ | ⟨-, rfl⟩
  · rw [State.endStep_pc, seqEffects_pc]
    exact seqPc_aligned hs hjr
  · rw [State.endStep_pc]
    exact hs

end Sys2Proof.Machine
end

section
/-! Instruction fetch (R61, R80): what it answers for each address, and that nothing the machine does changes it
(R77). -/

namespace Sys2Proof.Machine

/-- The two low bits `fetch` tests are the remainder modulo 4. -/
theorem lowBits_eq_zero_iff (a : Word) : a.extractLsb' 0 2 = 0#2 ↔ a.toNat % 4 = 0 := by
  rw [← BitVec.toNat_inj, BitVec.extractLsb'_toNat]
  rfl

theorem fetch_misaligned (s : State) {a : Word} (h : a.toNat % 4 ≠ 0) : fetch s a = .misaligned :=
  if_pos (mt (lowBits_eq_zero_iff a).1 h)

theorem imemIndex_eq {s : State} {a : Word} {i : Nat} (h : a.toNat = s.par.imemBase.toNat + 4 * i) :
    imemIndex s a = i := by
  rw [imemIndex, h]
  omega

section
variable {s : State} {a : Word} (ha : a.toNat % 4 = 0)
include ha

theorem fetch_aligned : fetch s a = if a.toNat < s.par.imemBase.toNat then .word 0#32
    else if imemIndex s a < s.par.imemWords then .word (s.imem.read (imemIndex s a)) else .beyond :=
  if_neg (not_not_intro ((lowBits_eq_zero_iff a).2 ha))

theorem fetch_below (h : a.toNat < s.par.imemBase.toNat) : fetch s a = .word 0#32 := by
  rw [fetch_aligned ha, if_pos h]

theorem fetch_inside {i : Nat} (h : a.toNat = s.par.imemBase.toNat + 4 * i) (hi : i < s.par.imemWords) :
    fetch s a = .word (s.imem.read i) := by
  rw [fetch_aligned ha, if_neg (by omega), imemIndex_eq h, if_pos hi]

theorem fetch_beyond (h : s.par.imemBase.toNat + 4 * s.par.imemWords ≤ a.toNat) : fetch s a = .beyond := by
  have hindex : s.par.imemWords ≤ imemIndex s a := by rw [imemIndex]; omega
  rw [fetch_aligned ha, if_neg (by omega), if_neg (by omega)]

end

/-- A fetch depends on the instruction array and the parameters only. -/
theorem fetch_congr {s t : State} (h : t.imem = s.imem ∧ t.par = s.par) (a : Word) : fetch t a = fetch s a := by
  unfold fetch
  rw [h.1, h.2]

/-- Settles O27: neither the array nor the parameters change at any level. -/
theorem storesNeverReachInstructions : Obligations.StoresNeverReachInstructions :=
  ⟨fun _ _ _ h => fetch_congr (exec_keeps_imem_par h), fun _ _ h => fetch_congr (step_keeps_imem_par h),
    fun _ _ h => fetch_congr (clock_keeps_imem_par h)⟩

/-! ## A fetch without a word (U1, U2) -/

theorem clock_of_running {s : State} (hr : pipeStatus s = .running) : clock s = clockCycle s := by
  rw [clock, hr, whileRunning_running]

theorem legalWord_iff (o : Opc) (w : Word) : legalWord o w = true ↔ ∃ i, decodeWord o w = .ok i := by
  unfold legalWord
  cases decodeWord o w <;> simp

/-- A cycle that reaches IF answers what its fetch answers (R219, R222). -/
theorem clockCycle_of_reachesIf {s : State} {i : Instr} (hm : (memMask s.pipe.exmem s.par).isFatal = false)
    (hd : decodeWord s.par.opc s.pipe.ifid.instr = .ok i) :
    (fetch s s.pc = .beyond → clockCycle s = .refused .fetchBeyond) ∧
      (fetch s s.pc = .misaligned → clockCycle s = .refused .fetchMisaligned) := by
  constructor <;> intro hf <;> simp [clockCycle, hm, hd, hf]

/-- Settles O24: the answer for each address, and both levels' refusals where it is no word. -/
theorem fetchByAddress : Obligations.FetchByAddress := by
  refine ⟨fun s a => fetch_misaligned s, fun s a => fetch_below, fun s a i ha => fetch_inside ha,
    fun s a ha _ => fetch_beyond ha, fun s hr hf => ?_, fun s hr hf => ?_, fun s hr hm hl => ?_⟩
  · rw [step_of_running hr, fetchThen, hf]
  · rw [step_of_running hr, fetchThen, hf]
  · obtain ⟨i, hd⟩ := (legalWord_iff _ _).1 hl
    rw [clock_of_running hr]
    exact clockCycle_of_reachesIf hm hd

/-! ## A word placed at the pc -/

theorem withFetchWord_eq (s : State) (w : Nat) :
    s.withFetchWord 32 w = { s with imem := s.imem.write (imemIndex s s.pc) (BitVec.ofNat 32 w) } := by
  rw [State.withFetchWord, BitVec.setWidth_eq, placeWord]

/-- Settles O31: the write is at the index the fetch reads. -/
theorem fetchWordIsPlacedAtThePc : Obligations.FetchWordIsPlacedAtThePc := by
  intro s w i hwf ha hpc hi
  rw [withFetchWord_eq, imemIndex_eq hpc]
  refine ⟨?_, fun j hj => s.imem.read_write_other _ hj, s.imem.wf_write hwf _ _, rfl⟩
  calc fetch { s with imem := s.imem.write i (BitVec.ofNat 32 w) } s.pc
      = .word ((s.imem.write i (BitVec.ofNat 32 w)).read i) := fetch_inside ha hpc hi
    _ = .word (BitVec.ofNat 32 w) := congrArg FetchResult.word (s.imem.read_write_same hwf i _)

end Sys2Proof.Machine
end

section
/-! The fields of a word (R95) and the layouts that pack them (R91 to R94). -/

namespace Sys2Proof.Machine

/-- A field is a run of bits. -/
theorem getLsbD_field {n len k : Nat} (w : BitVec n) (start : Nat) (hk : k < len) :
    (w.extractLsb' start len).getLsbD k = w.getLsbD (start + k) := by
  rw [BitVec.getLsbD_extractLsb', decide_eq_true hk, Bool.true_and]

/-- A field that starts at bit 0. -/
theorem getLsbD_lowField {n len k : Nat} (w : BitVec n) (hk : k < len) :
    (w.extractLsb' 0 len).getLsbD k = w.getLsbD k := by
  rw [getLsbD_field w 0 hk, Nat.zero_add]

/-- Settles O3: every field is an extracted run of bits, and IF applies the two register fields to any word. -/
theorem fieldsAreTheNamedBits : Obligations.FieldsAreTheNamedBits := fun w =>
  ⟨fun _ => getLsbD_field w 26, fun _ => getLsbD_field w 21, fun _ => getLsbD_field w 16, fun _ => getLsbD_field w 11,
    fun _ => getLsbD_field w 6, fun _ => getLsbD_lowField w, fun _ => getLsbD_lowField w, fun _ => getLsbD_lowField w,
    fun _ => ⟨rfl, rfl⟩⟩

/-! Fields of a concatenation: runs below are skipped from the low end, then the run is met. -/

theorem extract_append_high {v w start len : Nat} (x : BitVec v) (y : BitVec w) :
    (x ++ y).extractLsb' (start + w) len = x.extractLsb' start len := by
  rw [BitVec.extractLsb'_append_eq_of_le (Nat.le_add_left ..), Nat.add_sub_cancel]

theorem extract_append_mid {a b c : Nat} (x : BitVec a) (y : BitVec b) (z : BitVec c) :
    (x ++ y ++ z).extractLsb' c b = y := by
  rw [BitVec.extractLsb'_append_eq_of_le le_rfl, Nat.sub_self, BitVec.extractLsb'_append_eq_right]

section
variable (op : Opcode) (rs rt rd : RegIdx) (shamt : Shamt) (funct : Opcode) (c : Imm16) (c26 : Target26)

@[simp] theorem opcodeOf_packR : opcodeOf (packR op rs rt rd shamt funct) = op := by
  unfold opcodeOf packR
  iterate 4 refine (extract_append_high ..).trans ?_
  exact BitVec.extractLsb'_append_eq_left

@[simp] theorem rsOf_packR : rsOf (packR op rs rt rd shamt funct) = rs := by
  unfold rsOf packR
  iterate 3 refine (extract_append_high ..).trans ?_
  exact extract_append_mid ..

@[simp] theorem rtOf_packR : rtOf (packR op rs rt rd shamt funct) = rt := by
  unfold rtOf packR
  iterate 2 refine (extract_append_high ..).trans ?_
  exact extract_append_mid ..

@[simp] theorem rdOf_packR : rdOf (packR op rs rt rd shamt funct) = rd :=
  (extract_append_high ..).trans (extract_append_mid ..)

@[simp] theorem shamtOf_packR : shamtOf (packR op rs rt rd shamt funct) = shamt := extract_append_mid ..

@[simp] theorem functOf_packR : functOf (packR op rs rt rd shamt funct) = funct := BitVec.extractLsb'_append_eq_right

@[simp] theorem opcodeOf_packI : opcodeOf (packI op rs rt c) = op := by
  unfold opcodeOf packI
  iterate 2 refine (extract_append_high ..).trans ?_
  exact BitVec.extractLsb'_append_eq_left

@[simp] theorem rsOf_packI : rsOf (packI op rs rt c) = rs :=
  (extract_append_high ..).trans (extract_append_mid ..)

@[simp] theorem rtOf_packI : rtOf (packI op rs rt c) = rt := extract_append_mid ..

@[simp] theorem c16Of_packI : c16Of (packI op rs rt c) = c := BitVec.extractLsb'_append_eq_right

@[simp] theorem opcodeOf_packJ : opcodeOf (packJ op c26) = op := BitVec.extractLsb'_append_eq_left

@[simp] theorem c26Of_packJ : c26Of (packJ op c26) = c26 := BitVec.extractLsb'_append_eq_right

end

end Sys2Proof.Machine
end

section
/-! Decoding an encoded instruction (R65, R99, R106): the word of an instruction carries the numbers of one row, and
that row reads the instruction's operands back. -/

namespace Sys2Proof.Machine

/-- The bytes of a word in image order make up the word (R65). -/
theorem wordOfBytes_extract (w : Word) :
    wordOfBytes (w.extractLsb' 24 8) (w.extractLsb' 16 8) (w.extractLsb' 8 8) (w.extractLsb' 0 8) = w := by
  unfold wordOfBytes
  iterate 3 rw [BitVec.extractLsb'_append_extractLsb'_eq_extractLsb' (by rfl)]
  exact BitVec.extractLsb'_eq_self

theorem decode_wordBytes {o : Opc} {w : Word} {i : Instr} (h : decodeWord o w = .ok i) (rest : List Byte) :
    decode o (wordBytes w ++ rest) = .ok (i, rest) := by
  simp only [wordBytes, List.cons_append, List.nil_append, decode, wordOfBytes_extract, h]

/-- The word of an instruction other than NOP has the numbers of a row that gives the instruction back. -/
theorem encode_row (o : Opc) {i : Instr} (h : i ≠ .nop) :
    (opcodeOf (encode o i) = o.op.rtype ∧
      ∃ r ∈ functRows o.fn, functOf (encode o i) = r.1 ∧ r.2 (encode o i) = i) ∨
    ∃ r ∈ opcodeRows o.op, opcodeOf (encode o i) = r.1 ∧ r.2 (encode o i) = i := by
  cases i with
  | nop => exact absurd rfl h
  | add | addu | sub | and | or | xor | nor | nand | slt | sll | srl | sra | mult | multu | mfhi | mflo | jr =>
    left
    refine ⟨opcodeOf_packR .., ?_⟩
    simp only [encode, functRows, functOf_packR, rsOf_packR, rtOf_packR, rdOf_packR, shamtOf_packR, List.mem_cons,
      exists_eq_or_imp, reduceCtorEq, and_false, false_or, and_self, true_or]
  | _ =>
    right
    simp only [encode, opcodeRows, opcodeOf_packI, opcodeOf_packJ, rsOf_packI, rtOf_packI, c16Of_packI, c26Of_packJ,
      List.mem_cons, exists_eq_or_imp, reduceCtorEq, and_false, false_or, and_self, true_or]

theorem decodeWord_encode {o : Opc} (hd : o.distinct = true) {i : Instr} (hw : encode o i ≠ 0#32) :
    decodeWord o (encode o i) = .ok i := by
  have hnop : i ≠ .nop := by rintro rfl; exact hw rfl
  rcases encode_row o hnop with ⟨ho, r, hr, hf, hb⟩ | ⟨r, hr, hc, hb⟩
  · exact (decodeWord_of_funct hd hw ho (hf ▸ hr)).trans (congrArg Except.ok hb)
  · exact (decodeWord_of_opcode hd hw (hc ▸ hr)).trans (congrArg Except.ok hb)

theorem wellFormed_iff (o : Opc) (i : Instr) : i.wellFormed o = true ↔ i = .nop ∨ encode o i ≠ 0#32 := by
  simp [Instr.wellFormed]

theorem decodeWord_encode_of_wellFormed {o : Opc} (hd : o.distinct = true) {i : Instr} (h : i.wellFormed o = true) :
    decodeWord o (encode o i) = .ok i := by
  rcases (wellFormed_iff o i).1 h with rfl | hw
  · exact decodeWord_zero o
  · exact decodeWord_encode hd hw

/-- Of the default rows only SLL's funct has the all-zero word's numbers (R97, R98). -/
theorem default_row_zero :
    (∀ r ∈ functRows Opc.default.fn, functOf 0#32 = r.1 → r.2 0#32 = .sll 0#5 0#5 0#5) ∧
      ∀ r ∈ opcodeRows Opc.default.op, opcodeOf 0#32 ≠ r.1 := by decide

theorem encode_default_eq_zero {i : Instr} (hi : i ≠ .nop) (hw : encode Opc.default i = 0#32) :
    i = .sll 0#5 0#5 0#5 := by
  obtain ⟨hsll, hnone⟩ := default_row_zero
  have hrow := encode_row Opc.default hi
  rw [hw] at hrow
  rcases hrow with ⟨-, r, hr, hf, hb⟩ | ⟨r, hr, hc, -⟩
  · rw [← hb, hsll r hr hf]
  · exact absurd hc (hnone r hr)

theorem wellFormed_default_iff (i : Instr) : i.wellFormed Opc.default = true ↔ i ≠ .sll 0#5 0#5 0#5 := by
  constructor
  · rintro h rfl
    exact absurd h (by decide)
  · intro h
    rw [wellFormed_iff]
    by_contra! hnot
    obtain ⟨hi, hw⟩ := hnot
    exact h (encode_default_eq_zero hi hw)

/-- Settles O2: a well-formed term's word is NOP's, or a row of the numbering gives the term back. -/
theorem decodeOfEncode : Obligations.DecodeOfEncode :=
  ⟨fun _ _ rest hd h => decode_wordBytes (decodeWord_encode_of_wellFormed hd h) rest, wellFormed_default_iff,
    fun _ _ _ _ _ _ => ⟨opcodeOf_packR .., rsOf_packR .., rtOf_packR .., rdOf_packR .., shamtOf_packR ..,
      functOf_packR ..⟩,
    fun _ _ _ _ => ⟨opcodeOf_packI .., rsOf_packI .., rtOf_packI .., c16Of_packI ..⟩,
    fun _ _ => ⟨opcodeOf_packJ .., c26Of_packJ ..⟩⟩

end Sys2Proof.Machine
end

section
/-! Classification (R96 to R101): a word that is not all-zero is what the row of its numbers makes of it. -/

namespace Sys2Proof.Machine

/-- The row `Classify` asks for a word that is not all-zero: by funct for `OPC.RTYPE`, else by opcode (R96). -/
def rowOf (o : Opc) (w : Word) : Option (Word → Instr) :=
  if opcodeOf w = o.op.rtype then lookupRow (functOf w) (functRows o.fn)
  else lookupRow (opcodeOf w) (opcodeRows o.op)

theorem rowOf_congr {o : Opc} {v w : Word} (hop : opcodeOf v = opcodeOf w)
    (hfn : opcodeOf w = o.op.rtype → functOf v = functOf w) : rowOf o v = rowOf o w := by
  unfold rowOf
  rw [hop]
  split
  · next hr => rw [hfn hr]
  · rfl

theorem mem_of_rowOf {o : Opc} {w : Word} {build : Word → Instr} (h : rowOf o w = some build) :
    ∃ c, (c, build) ∈ functRows o.fn ++ opcodeRows o.op := by
  unfold rowOf at h
  split at h
  · exact ⟨_, List.mem_append_left _ (mem_of_lookupRow h)⟩
  · exact ⟨_, List.mem_append_right _ (mem_of_lookupRow h)⟩

/-- The format of a row does not depend on the word it is applied to. -/
theorem format_of_row {o : Opc} {c : Opcode} {build : Word → Instr}
    (h : (c, build) ∈ functRows o.fn ++ opcodeRows o.op) (v w : Word) : (build v).format = (build w).format := by
  have hrows : ∀ r ∈ functRows o.fn ++ opcodeRows o.op, (r.2 v).format = (r.2 w).format := by
    simp only [functRows, opcodeRows, List.cons_append, List.nil_append, List.forall_mem_cons]
    simp [Instr.format]
  exact hrows _ h

/-- No row of either table is NOP's (R99). -/
theorem row_ne_nop {o : Opc} {c : Opcode} {build : Word → Instr}
    (h : (c, build) ∈ functRows o.fn ++ opcodeRows o.op) (w : Word) : build w ≠ .nop := by
  have hrows : ∀ r ∈ functRows o.fn ++ opcodeRows o.op, r.2 w ≠ .nop := by
    simp only [functRows, opcodeRows, List.cons_append, List.nil_append, List.forall_mem_cons]
    simp
  exact hrows _ h

section
variable {o : Opc} {w : Word} (hw : w ≠ 0#32)
include hw

theorem decodeWord_of_rowOf {build : Word → Instr} (h : rowOf o w = some build) : decodeWord o w = .ok (build w) := by
  unfold rowOf at h
  split at h
  · next ho => simp [decodeWord, hw, ho, h]
  · next ho => simp [decodeWord, hw, ho, h]

theorem decodeWord_of_rowOf_none (h : rowOf o w = none) : ∃ e, decodeWord o w = .error e := by
  unfold rowOf at h
  split at h
  · next ho => exact ⟨.illegalFunct (functOf w), by simp [decodeWord, hw, ho, h]⟩
  · next ho => exact ⟨.illegalOpcode (opcodeOf w), by simp [decodeWord, hw, ho, h]⟩

theorem legalWord_eq_isSome : legalWord o w = (rowOf o w).isSome := by
  cases h : rowOf o w with
  | none =>
    obtain ⟨e, he⟩ := decodeWord_of_rowOf_none hw h
    simp [legalWord, he]
  | some build => simp [legalWord, decodeWord_of_rowOf hw h]

theorem formatOf_eq_elim : formatOf o w = (rowOf o w).elim .illegal fun build => (build w).format := by
  cases h : rowOf o w with
  | none =>
    obtain ⟨e, he⟩ := decodeWord_of_rowOf_none hw h
    simp [formatOf, he]
  | some build => simp [formatOf, decodeWord_of_rowOf hw h]

end

/-! ## Illegal words -/

theorem lookupRow_eq_none_iff (c : Opcode) (rows : List OpcodeRow) :
    lookupRow c rows = none ↔ c ∉ rows.map Prod.fst := by
  induction rows with
  | nil => simp [lookupRow]
  | cons r t ih =>
    rw [lookupRow, List.map_cons, List.mem_cons, not_or, ← ih]
    by_cases hc : c = r.1 <;> simp [hc]

theorem functRows_numbers (f : Functs) : (functRows f).map Prod.fst = f.toList := rfl

theorem opcodeRows_numbers (p : PrimaryOpcodes) : p.toList = p.rtype :: (opcodeRows p).map Prod.fst := rfl

/-- No row answers for numbers outside the two tables (R97, R98). -/
theorem rowOf_eq_none_iff (o : Opc) (w : Word) : rowOf o w = none ↔
    opcodeOf w ∉ o.op.toList ∨ opcodeOf w = o.op.rtype ∧ functOf w ∉ o.fn.toList := by
  rw [rowOf, opcodeRows_numbers, List.mem_cons, ← functRows_numbers]
  by_cases hr : opcodeOf w = o.op.rtype
  · simp [hr, lookupRow_eq_none_iff]
  · simp [hr, lookupRow_eq_none_iff]

theorem legalWord_eq_false_iff (o : Opc) (w : Word) : legalWord o w = false ↔ w ≠ 0#32 ∧
    (opcodeOf w ∉ o.op.toList ∨ opcodeOf w = o.op.rtype ∧ functOf w ∉ o.fn.toList) := by
  rw [← rowOf_eq_none_iff]
  by_cases hw : w = 0#32
  · subst hw
    exact iff_of_false Bool.noConfusion fun h => h.1 rfl
  · rw [legalWord_eq_isSome hw, Option.isSome_eq_false_iff, Option.isNone_iff_eq_none, and_iff_right hw]

theorem format_ne_illegal (i : Instr) : i.format ≠ .illegal := by cases i <;> exact Format.noConfusion

theorem formatOf_eq_illegal_iff (o : Opc) (w : Word) : formatOf o w = .illegal ↔ legalWord o w = false := by
  unfold formatOf legalWord
  cases decodeWord o w with
  | ok i => simpa using format_ne_illegal i
  | error e => simp

theorem controlOf_of_illegal {o : Opc} {w : Word} (h : legalWord o w = false) : controlOf o w = Control.none := by
  unfold legalWord at h
  unfold controlOf
  cases hd : decodeWord o w with
  | ok i => simp [hd] at h
  | error e => rfl

/-- The primary table of R97, in the order of the numbers. -/
theorem default_opcodes_perm : List.Perm Opc.default.op.toList
    [0x00#6, 0x02#6, 0x03#6, 0x04#6, 0x05#6, 0x07#6, 0x08#6, 0x09#6, 0x0A#6, 0x0C#6, 0x0D#6, 0x0E#6, 0x0F#6, 0x20#6,
      0x21#6, 0x23#6, 0x24#6, 0x25#6, 0x28#6, 0x29#6, 0x2B#6, 0x3F#6] := by decide

/-- The funct table of R98, in the order of the numbers. -/
theorem default_functs_perm : List.Perm Opc.default.fn.toList
    [0x00#6, 0x02#6, 0x03#6, 0x08#6, 0x10#6, 0x12#6, 0x18#6, 0x19#6, 0x20#6, 0x21#6, 0x22#6, 0x24#6, 0x25#6, 0x26#6,
      0x27#6, 0x28#6, 0x2A#6] := by decide

/-- Settles O4: a word is illegal where no row answers for its numbers; the default tables are listed in another
order. -/
theorem illegalExactlyOutsideTheTables : Obligations.IllegalExactlyOutsideTheTables := by
  intro o w
  refine ⟨legalWord_eq_false_iff o w, ?_, formatOf_eq_illegal_iff o w, fun h => ?_⟩
  · rw [legalWord_eq_false_iff, default_opcodes_perm.mem_iff, default_functs_perm.mem_iff]
    rfl
  · rw [controlOf_of_illegal h]
    exact ⟨rfl, rfl, rfl, rfl, rfl⟩

/-! ## NOP -/

theorem decodeWord_eq_nop_iff (o : Opc) (w : Word) : decodeWord o w = .ok .nop ↔ w = 0#32 := by
  constructor
  · intro h
    rcases decodeWord_cases h with ⟨hw, -⟩ | ⟨-, -, r, hr, -, hb⟩ | ⟨-, -, r, hr, -, hb⟩
    · exact hw
    · exact absurd hb.symm (row_ne_nop (o := o) (List.mem_append_left _ hr) w)
    · exact absurd hb.symm (row_ne_nop (o := o) (List.mem_append_right _ hr) w)
  · rintro rfl
    exact decodeWord_zero o

/-- NOP ends its step with no mask (R201). -/
theorem exec_nop_logs (s : State) : ∃ t, exec .nop s = .next t ∧ SameRegs s t ∧ LogsFaults s t 0x00#6 := by
  obtain ⟨t, he, -, ⟨-, -, hlog⟩, hregs, -⟩ := onlyMovesPc_of_retirePlain (i := .nop) (s := s) rfl
  exact ⟨t, he, hregs, hlog⟩

/-- A shift into register 0 ends its step with `WriteRegZero` (R23, R140). -/
theorem exec_sllZero_logs (rt : RegIdx) (shamt : Shamt) (s : State) :
    ∃ t, exec (.sll 0#5 rt shamt) s = .next t ∧ SameRegs s t ∧ LogsFaults s t 0x01#6 := by
  obtain ⟨t, he, hregs, -, ⟨-, -, hlog⟩, -⟩ :=
    writesReg_of_retireReg (i := .sll 0#5 rt shamt) (s := s) (fm := FaultMask.clear) rfl rfl
  exact ⟨t, he, fun r => by simpa using hregs r, hlog⟩

/-- Settles O6: no row is NOP's, so only the word asked for first is. -/
theorem onlyTheAllZeroWordIsNop : Obligations.OnlyTheAllZeroWordIsNop :=
  ⟨decodeWord_eq_nop_iff, fun _ => ⟨rfl, rfl, rfl, rfl, rfl⟩, rfl, exec_nop_logs, by decide,
    exec_sllZero_logs 0#5 1#5⟩

/-! ## Unused fields (R101) -/

/-- Neither word being NOP's, both are one legal instruction. -/
def DecodeAlike (o : Opc) (v w : Word) : Prop :=
  v ≠ 0#32 → w ≠ 0#32 → decodeWord o v = decodeWord o w ∧ legalWord o w = true

theorem decodeAlike_of_decodeWord {o : Opc} {v w : Word} {i : Instr} (hv : v ≠ 0#32 → decodeWord o v = .ok i)
    (hw : w ≠ 0#32 → decodeWord o w = .ok i) : DecodeAlike o v w :=
  fun hv0 hw0 => ⟨(hv hv0).trans (hw hw0).symm, legal_ok (hw hw0)⟩

/-- R-format words of one funct whose row sees no difference between them. -/
theorem decodeAlike_packR {o : Opc} (hd : o.distinct = true) {f : Opcode} {build : Word → Instr}
    (h : (f, build) ∈ functRows o.fn) {rs rt rd rs' rt' rd' : RegIdx} {a a' : Shamt}
    (hb : build (packR o.op.rtype rs rt rd a f) = build (packR o.op.rtype rs' rt' rd' a' f)) :
    DecodeAlike o (packR o.op.rtype rs rt rd a f) (packR o.op.rtype rs' rt' rd' a' f) :=
  decodeAlike_of_decodeWord
    (fun hv => (decodeWord_of_funct hd hv (opcodeOf_packR ..) ((functOf_packR ..).symm ▸ h)).trans (congrArg _ hb))
    (fun hw => decodeWord_of_funct hd hw (opcodeOf_packR ..) ((functOf_packR ..).symm ▸ h))

/-- Words of one opcode whose row sees no difference between them. -/
theorem decodeAlike_of_opcode {o : Opc} (hd : o.distinct = true) {c : Opcode} {build : Word → Instr}
    (h : (c, build) ∈ opcodeRows o.op) {v w : Word} (hv : opcodeOf v = c) (hw : opcodeOf w = c)
    (hb : build v = build w) : DecodeAlike o v w :=
  decodeAlike_of_decodeWord (fun hv0 => (decodeWord_of_opcode hd hv0 (hv ▸ h)).trans (congrArg _ hb))
    (fun hw0 => decodeWord_of_opcode hd hw0 (hw ▸ h))

theorem threeRegister_rows (f : Functs) :
    ∀ n ∈ [f.add, f.addu, f.sub, f.and, f.or, f.xor, f.nor, f.nand, f.slt],
      ∃ make : RegIdx → RegIdx → RegIdx → Instr, (n, fun w => make (rdOf w) (rsOf w) (rtOf w)) ∈ functRows f := by
  simp only [List.forall_mem_cons]
  refine ⟨⟨.add, ?_⟩, ⟨.addu, ?_⟩, ⟨.sub, ?_⟩, ⟨.and, ?_⟩, ⟨.or, ?_⟩, ⟨.xor, ?_⟩, ⟨.nor, ?_⟩, ⟨.nand, ?_⟩,
    ⟨.slt, ?_⟩, nofun⟩ <;> simp [functRows]

theorem shift_rows (f : Functs) : ∀ n ∈ [f.sll, f.srl, f.sra],
    ∃ make : RegIdx → RegIdx → Shamt → Instr, (n, fun w => make (rdOf w) (rtOf w) (shamtOf w)) ∈ functRows f := by
  simp only [List.forall_mem_cons]
  refine ⟨⟨.sll, ?_⟩, ⟨.srl, ?_⟩, ⟨.sra, ?_⟩, nofun⟩ <;> simp [functRows]

theorem multiply_rows (f : Functs) : ∀ n ∈ [f.mult, f.multu],
    ∃ make : RegIdx → RegIdx → Instr, (n, fun w => make (rsOf w) (rtOf w)) ∈ functRows f := by
  simp only [List.forall_mem_cons]
  refine ⟨⟨.mult, ?_⟩, ⟨.multu, ?_⟩, nofun⟩ <;> simp [functRows]

theorem moveFrom_rows (f : Functs) : ∀ n ∈ [f.mfhi, f.mflo],
    ∃ make : RegIdx → Instr, (n, fun w => make (rdOf w)) ∈ functRows f := by
  simp only [List.forall_mem_cons]
  refine ⟨⟨.mfhi, ?_⟩, ⟨.mflo, ?_⟩, nofun⟩ <;> simp [functRows]

theorem formatOf_legalWord_congr {o : Opc} {v w : Word} (hv : v ≠ 0#32) (hw : w ≠ 0#32) (h : rowOf o v = rowOf o w) :
    formatOf o v = formatOf o w ∧ legalWord o v = legalWord o w := by
  rw [legalWord_eq_isSome hv, legalWord_eq_isSome hw, formatOf_eq_elim hv, formatOf_eq_elim hw, h]
  refine ⟨?_, rfl⟩
  cases hrow : rowOf o w with
  | none => rfl
  | some build =>
    obtain ⟨c, hc⟩ := mem_of_rowOf hrow
    exact format_of_row hc v w

/-- Settles O5: a row has one format, and it reads only the fields its instruction uses. -/
theorem unusedFieldsAreIgnored : Obligations.UnusedFieldsAreIgnored := by
  refine ⟨fun o v w hv hw hop hfn => formatOf_legalWord_congr hv hw (rowOf_congr hop hfn), fun o hd =>
    ⟨fun _ _ _ _ _ f hf => ?threeRegister, fun _ _ _ _ _ f hf => ?shift, fun _ _ _ _ _ _ _ => ?jr,
      fun _ _ _ _ _ _ f hf => ?multiply, fun _ _ _ _ _ _ _ f hf => ?moveFrom, fun _ _ _ _ => ?lui,
      fun _ _ _ _ => ?bgtz, fun _ _ => ?halt⟩⟩
  case threeRegister =>
    obtain ⟨make, hrow⟩ := threeRegister_rows o.fn f hf
    exact decodeAlike_packR hd hrow (by simp)
  case shift =>
    obtain ⟨make, hrow⟩ := shift_rows o.fn f hf
    exact decodeAlike_packR hd hrow (by simp)
  case jr => exact decodeAlike_packR hd (build := fun w => .jr (rsOf w)) (by simp [functRows]) (by simp)
  case multiply =>
    obtain ⟨make, hrow⟩ := multiply_rows o.fn f hf
    exact decodeAlike_packR hd hrow (by simp)
  case moveFrom =>
    obtain ⟨make, hrow⟩ := moveFrom_rows o.fn f hf
    exact decodeAlike_packR hd hrow (by simp)
  case lui =>
    exact decodeAlike_of_opcode hd (build := fun w => .lui (rtOf w) (c16Of w)) (by simp [opcodeRows])
      (opcodeOf_packI ..) (opcodeOf_packI ..) (by simp)
  case bgtz =>
    exact decodeAlike_of_opcode hd (build := fun w => .bgtz (rsOf w) (c16Of w)) (by simp [opcodeRows])
      (opcodeOf_packI ..) (opcodeOf_packI ..) (by simp)
  case halt =>
    exact decodeAlike_of_opcode hd (build := fun _ => .halt) (by simp [opcodeRows])
      (opcodeOf_packJ ..) (opcodeOf_packJ ..) rfl

end Sys2Proof.Machine
end

section
/-! Words by their numbers (R96 to R98): a word that carries a row's number decodes to that row's instruction. -/

namespace Sys2Proof.Machine

theorem decodeWord_of_rWord {o : Opc} (hd : o.distinct = true) {f : Opcode} {build : Word → Instr}
    {w : Word} (h : RWord o f w) (hrow : (f, build) ∈ functRows o.fn) : decodeWord o w = .ok (build w) := by
  obtain ⟨hop, rfl, hw⟩ := h
  exact decodeWord_of_funct hd hw hop hrow

theorem decodeWord_of_opWord {o : Opc} (hd : o.distinct = true) {c : Opcode} {build : Word → Instr}
    {w : Word} (h : OpWord c w) (hrow : (c, build) ∈ opcodeRows o.op) : decodeWord o w = .ok (build w) := by
  obtain ⟨rfl, hw⟩ := h
  exact decodeWord_of_opcode hd hw hrow

/-- Settles O1, by evaluation of the decoder on the seven words. -/
theorem specWordsDecode : Obligations.SpecWordsDecode := by
  unfold Obligations.SpecWordsDecode
  decide

end Sys2Proof.Machine
end

section
/-! The R-format ALU and ADDI (R130 to R143, R161): both levels run the same EX part, a result and a mask with no side
effect. -/

namespace Sys2Proof.Machine

/-- EX on a word is the EX part of the instruction it decodes to (R215). -/
theorem exGives_of_decodeWord {w a b pcn v : Word} {s : State} {i : Instr} {fm : FaultMask}
    (hd : decodeWord s.par.opc w = .ok i) (he : execEX i a b pcn s = exPure s v fm) : ExGives w a b pcn s v fm := by
  have hw : execEXWord w a b pcn s = exPure s v fm := by simpa only [execEXWord, hd] using he
  rw [ExGives, hw]
  exact ⟨rfl, rfl, rfl⟩

/-! ## Signed overflow (R143, R253) -/

theorem raiseIf_outsideSigned32 (n : Int) :
    raiseIf (outsideSigned32 n) FaultMask.numberOverflow = overflowFault n := by
  simp only [raiseIf, outsideSigned32, Bool.or_eq_true, decide_eq_true_eq]
  rfl

theorem writesReg_of_overflowTest {i : Instr} {s : State} {d : RegIdx} {v : Word} {n : Int}
    (he : exec i s = retireReg d (exPure s v (raiseIf (outsideSigned32 n) FaultMask.numberOverflow))) :
    WritesReg i s d v (overflowFault n) := by
  rw [← raiseIf_outsideSigned32]
  exact writesReg_of_retireReg he (isFatal_raiseIf_numberOverflow _)

theorem exGives_of_overflowTest {w a b pcn v : Word} {s : State} {i : Instr} {n : Int}
    (hd : decodeWord s.par.opc w = .ok i)
    (he : execEX i a b pcn s = exPure s v (raiseIf (outsideSigned32 n) FaultMask.numberOverflow)) :
    ExGives w a b pcn s v (overflowFault n) := by
  rw [← raiseIf_outsideSigned32]
  exact exGives_of_decodeWord hd he

/-- Settles O8: the rows of the three numbers, and the overflow test in EX at both levels. -/
theorem addSubAddiResultAndOverflow : Obligations.AddSubAddiResultAndOverflow := by
  refine ⟨fun o hd w => ⟨fun h => ?add, fun h => ?sub, fun h => ?addi⟩, ⟨rfl, rfl, rfl, rfl⟩,
    fun _ _ _ _ => writesReg_of_overflowTest rfl, fun _ _ _ _ => writesReg_of_overflowTest rfl,
    fun _ _ _ _ => writesReg_of_overflowTest rfl, fun _ _ _ _ _ _ _ _ h => exGives_of_overflowTest h rfl,
    fun _ _ _ _ _ _ _ _ h => exGives_of_overflowTest h rfl, fun _ _ _ _ _ _ _ _ h => exGives_of_overflowTest h rfl⟩
  case add | sub =>
    apply decodeWord_of_rWord hd h
    simp [functRows]
  case addi =>
    apply decodeWord_of_opWord hd h
    simp [opcodeRows]

/-- Settles O9: each funct's row, and an EX part that raises nothing at both levels. -/
theorem registerAluResults : Obligations.RegisterAluResults := by
  refine ⟨fun o hd w => ⟨fun h => ?addu, fun h => ?and, fun h => ?or, fun h => ?xor, fun h => ?nor,
      fun h => ?nand, fun h => ?slt⟩, ⟨rfl, rfl, rfl, rfl, rfl, rfl, rfl, rfl⟩,
    ?_, ?_, ?_, ?_, ?_, ?_, ?_, ?_, ?_, ?_, ?_, ?_, ?_, ?_⟩
  case addu | and | or | xor | nor | nand | slt =>
    apply decodeWord_of_rWord hd h
    simp [functRows]
  iterate 7 exact fun _ _ _ _ => writesReg_of_retireReg rfl rfl
  iterate 7 exact fun _ _ _ _ _ _ _ _ h => exGives_of_decodeWord h rfl

/-! ## Shifts, bit by bit (R140 to R142): the library's bits of a shift, for a position inside the word -/

section
variable (b : Word) (n : Nat)

theorem getLsbD_shiftLeft_word {k : Nat} (hk : k < 32) :
    (b <<< n).getLsbD k = (decide (n ≤ k) && b.getLsbD (k - n)) := by
  simp only [BitVec.getLsbD_shiftLeft, hk, decide_true, Bool.true_and, ← decide_not, Nat.not_lt]

theorem getLsbD_ushiftRight_word (k : Nat) : (b >>> n).getLsbD k = b.getLsbD (k + n) := by
  rw [BitVec.getLsbD_ushiftRight, Nat.add_comm]

theorem getLsbD_sshiftRight_word {k : Nat} (hk : k < 32) :
    (b.sshiftRight n).getLsbD k = if k + n < 32 then b.getLsbD (k + n) else b.getLsbD 31 := by
  rw [BitVec.getLsbD_sshiftRight, BitVec.msb_eq_getLsbD_last, Nat.add_comm]
  simp [hk]

end

/-- Settles O10: the value of each shift is the model's own, read bit by bit, at both levels. -/
theorem shiftResultsBitByBit : Obligations.ShiftResultsBitByBit := by
  refine ⟨fun o hd w => ⟨fun h => ?sll, fun h => ?srl, fun h => ?sra⟩, ⟨rfl, rfl, rfl, rfl⟩,
    fun _ _ _ _ => ⟨_, fun _ => getLsbD_shiftLeft_word _ _, writesReg_of_retireReg rfl rfl⟩,
    fun _ _ _ _ => ⟨_, fun k _ => getLsbD_ushiftRight_word _ _ k, writesReg_of_retireReg rfl rfl⟩,
    fun _ _ _ _ => ⟨_, fun _ => getLsbD_sshiftRight_word _ _, writesReg_of_retireReg rfl rfl⟩,
    fun _ _ _ _ _ _ _ _ h => ⟨_, fun _ => getLsbD_shiftLeft_word _ _, exGives_of_decodeWord h rfl⟩,
    fun _ _ _ _ _ _ _ _ h => ⟨_, fun k _ => getLsbD_ushiftRight_word _ _ k, exGives_of_decodeWord h rfl⟩,
    fun _ _ _ _ _ _ _ _ h => ⟨_, fun _ => getLsbD_sshiftRight_word _ _, exGives_of_decodeWord h rfl⟩⟩
  case sll | srl | sra =>
    apply decodeWord_of_rWord hd h
    simp [functRows]

end Sys2Proof.Machine
end

section
/-! HI, LO and the lock (R26, R155): only EX touches them, and what it does is told by the kind of the instruction. -/

namespace Sys2Proof.Machine

/-- All but the multiplies keep the product (R155). -/
theorem execEX_keeps_hi_lo {i : Instr} (h : isMultiply i = false) (a b p : Word) (s : State) :
    (execEX i a b p s).state.hi = s.hi ∧ (execEX i a b p s).state.lo = s.lo := by
  cases i with
  | mult | multu => cases h
  | _ => exact ⟨rfl, rfl⟩

/-- A multiply sets the lock, a move-from clears it (R27, R28, R155). -/
theorem execEX_lock (i : Instr) (a b p : Word) (s : State) :
    (execEX i a b p s).state.lock = (isMultiply i || (s.lock && !isMoveFrom i)) := by
  cases i with
  | mult | multu => rfl
  | mfhi | mflo => exact (Bool.and_false _).symm
  | _ => exact (Bool.and_true _).symm

/-! ## One instruction -/

@[simp] theorem seqEx_lock (i : Instr) (s : State) :
    (seqEx i s).state.lock = (isMultiply i || (s.lock && !isMoveFrom i)) := execEX_lock ..

theorem exec_keeps_hi_lo {i : Instr} {s t : State} (h : exec i s = .next t) (hi : isMultiply i = false) :
    t.hi = s.hi ∧ t.lo = s.lo := by
  rcases exec_next h with ⟨-, rfl⟩ | ⟨-, rfl⟩
  · simpa [seqEx] using execEX_keeps_hi_lo hi _ _ _ s
  · simp

theorem exec_keeps_lock {i : Instr} {s t : State} (h : exec i s = .next t) (hmul : isMultiply i = false)
    (hmove : isMoveFrom i = false) : t.lock = s.lock := by
  rcases exec_next h with ⟨-, rfl⟩ | ⟨-, rfl⟩
  · simp [hmul, hmove]
  · simp

/-! ## One clock cycle -/

/-- EX on a word is the EX part of the instruction it decodes to (R215). -/
theorem execEXWord_of_decodeWord {w : Word} {s : State} {i : Instr} (h : decodeWord s.par.opc w = .ok i)
    (a b p : Word) : execEXWord w a b p s = execEX i a b p s := by
  simp only [execEXWord, h]

theorem execEXWord_of_illegal {w : Word} {s : State} {e : DecodeReject} (h : decodeWord s.par.opc w = .error e)
    (a b p : Word) : execEXWord w a b p s = exNothing s := by
  simp only [execEXWord, h]

theorem execEXWord_keeps_hi_lo {w : Word} {s : State}
    (h : ∀ i, decodeWord s.par.opc w = .ok i → isMultiply i = false) (a b p : Word) :
    (execEXWord w a b p s).state.hi = s.hi ∧ (execEXWord w a b p s).state.lo = s.lo := by
  cases hd : decodeWord s.par.opc w with
  | ok i =>
    rw [execEXWord_of_decodeWord hd]
    exact execEX_keeps_hi_lo (h i hd) a b p s
  | error e =>
    rw [execEXWord_of_illegal hd]
    exact ⟨rfl, rfl⟩

theorem execEXWord_keeps_lock {w : Word} {s : State}
    (h : ∀ i, decodeWord s.par.opc w = .ok i → isMultiply i = false ∧ isMoveFrom i = false) (a b p : Word) :
    (execEXWord w a b p s).state.lock = s.lock := by
  cases hd : decodeWord s.par.opc w with
  | ok i =>
    obtain ⟨hmul, hmove⟩ := h i hd
    rw [execEXWord_of_decodeWord hd, execEX_lock, hmul, hmove]
    simp
  | error e =>
    rw [execEXWord_of_illegal hd]
    rfl

@[simp] theorem afterMem_par (s : State) : (afterMem s).par = s.par := by simp [afterMem]

theorem afterEx_keeps_hi_lo {s : State}
    (h : ∀ i, decodeWord s.par.opc s.pipe.idex.instr = .ok i → isMultiply i = false) :
    (afterEx s).hi = s.hi ∧ (afterEx s).lo = s.lo := by
  rw [← afterMem_par] at h
  have hex : (afterEx s).hi = (afterMem s).hi ∧ (afterEx s).lo = (afterMem s).lo := execEXWord_keeps_hi_lo h _ _ _
  simpa [afterMem] using hex

theorem afterEx_keeps_lock {s : State}
    (h : ∀ i, decodeWord s.par.opc s.pipe.idex.instr = .ok i → isMultiply i = false ∧ isMoveFrom i = false) :
    (afterEx s).lock = s.lock := by
  rw [← afterMem_par] at h
  have hex : (afterEx s).lock = (afterMem s).lock := execEXWord_keeps_lock h _ _ _
  simpa [afterMem] using hex

/-- A cycle leaves HI, LO and the lock as EX does; a fatal fault in MEM comes before EX (R222). -/
theorem clock_hi_lo_lock {s t : State} (h : clock s = .next t) :
    ((memMask s.pipe.exmem s.par).isFatal = true ∧ t.hi = s.hi ∧ t.lo = s.lo ∧ t.lock = s.lock) ∨
      ((memMask s.pipe.exmem s.par).isFatal = false ∧ t.hi = (afterEx s).hi ∧ t.lo = (afterEx s).lo ∧
        t.lock = (afterEx s).lock) := by
  rcases (clock_next h).2 with ⟨hm, rfl⟩ | ⟨hm, -, rfl⟩ | ⟨hm, i, f, -, -, rfl⟩
  · exact .inl ⟨hm, by simp [stopInMem]⟩
  · exact .inr ⟨hm, by simp [stopInId]⟩
  · exact .inr ⟨hm, by simp [commit]⟩

/-- Settles O26: EX is the one writer at both levels. -/
theorem onlyMultipliesWriteHiLo : Obligations.OnlyMultipliesWriteHiLo := by
  refine ⟨fun _ _ _ => exec_keeps_hi_lo, fun _ _ _ => exec_keeps_lock, fun s t h hi => ?hilo, fun s t h hi => ?lock,
    fun s t h hm => ?memFault⟩
  case hilo =>
    rcases clock_hi_lo_lock h with ⟨-, hhi, hlo, -⟩ | ⟨-, hhi, hlo, -⟩
    · exact ⟨hhi, hlo⟩
    · rw [hhi, hlo]
      exact afterEx_keeps_hi_lo hi
  case lock =>
    rcases clock_hi_lo_lock h with ⟨-, -, -, hlock⟩ | ⟨-, -, -, hlock⟩
    · exact hlock
    · exact hlock.trans (afterEx_keeps_lock hi)
  case memFault =>
    rcases clock_hi_lo_lock h with ⟨-, hkept⟩ | ⟨hm', -⟩
    · exact hkept
    · simp [hm] at hm'

end Sys2Proof.Machine
end

section
/-! `HiLoOverwrite` over a sequence (R154, R254): the lock is the memory of an unread product. -/

namespace Sys2Proof.Machine

theorem raiseIf_getLsbD (c : Bool) (bit : FaultMask) (k : Nat) : (raiseIf c bit).getLsbD k = (c && bit.getLsbD k) := by
  cases c
  · exact BitVec.getLsbD_zero
  · rfl

/-- EX raises `HiLoOverwrite` exactly for a multiply that finds the lock set (R254). -/
theorem execEX_fm_hiLoOverwrite (i : Instr) (a b p : Word) (s : State) :
    (execEX i a b p s).fm.getLsbD 2 = (isMultiply i && s.lock) := by
  cases i with
  | mult | multu => exact (raiseIf_getLsbD _ _ 2).trans (Bool.and_true _)
  | add | sub | addi | lw | lh | lhu | lb | lbu | sw | sh | sb =>
    exact (raiseIf_getLsbD _ _ 2).trans (Bool.and_false _)
  | _ => exact BitVec.getLsbD_zero

theorem wbMask_hiLoOverwrite (m : MemWb) : (wbMask m).getLsbD 2 = false := by
  rcases wbMask_cases m with h | h <;> rw [h] <;> rfl

theorem seqMask_hiLoOverwrite (i : Instr) (s : State) : (seqMask i s).getLsbD 2 = (isMultiply i && s.lock) := by
  rw [seqMask, BitVec.getLsbD_or, wbMask_hiLoOverwrite, Bool.or_false]
  exact execEX_fm_hiLoOverwrite ..

/-- An instruction that does not stop the machine completes (R256). -/
theorem exec_completes {i : Instr} {s t : State} (h : exec i s = .next t) (ht : t.stopped = false) :
    t = (seqEffects i s).endStep (seqMask i s) := by
  rcases exec_next h with ⟨-, hcompletes⟩ | ⟨ha, rfl⟩
  · exact hcompletes
  · simp [FaultMask.isFatal_or, accessMask_isFatal, ha] at ht

theorem exec_hiLoOverwrite {i : Instr} {s t : State} (h : exec i s = .next t) (ht : t.stopped = false) :
    faultCount 2 t.faultLog = faultCount 2 s.faultLog + (isMultiply i && s.lock).toNat ∧
      t.lock = (isMultiply i || (s.lock && !isMoveFrom i)) := by
  rw [exec_completes h ht, State.endStep_faultLog, faultCount_append, faultCount_logEntry, seqMask_hiLoOverwrite,
    (seqEffects_stepBody i s).faultLog]
  simp

/-- The count of a sequence by its first instruction, in the terms of `exec_hiLoOverwrite`. -/
theorem unreadMultiplies_cons (locked : Bool) (i : Instr) (rest : List Instr) :
    unreadMultiplies locked (i :: rest) =
      (isMultiply i && locked).toNat + unreadMultiplies (isMultiply i || (locked && !isMoveFrom i)) rest := by
  rw [unreadMultiplies]
  cases isMultiply i <;> simp

theorem execAll_cons {i : Instr} {s t : State} (h : exec i s = .next t) (rest : List Instr) :
    execAll (i :: rest) s = if t.stopped then .next t else execAll rest t := by
  rw [execAll, h]

/-- Settles O14, by induction on the sequence from every state. -/
theorem hiLoOverwriteCounted : Obligations.HiLoOverwriteCounted := by
  intro is
  induction is with
  | nil => exact fun s _ => ⟨s, rfl, fun _ => rfl⟩
  | cons i rest ih =>
    intro s _
    have he := exec_eq_seqResult i s
    rw [execAll_cons he]
    cases hu : (seqResult i s).stopped with
    | true => exact ⟨_, rfl, fun ht => absurd hu (by simp [ht])⟩
    | false =>
      obtain ⟨hcount, hlock⟩ := exec_hiLoOverwrite he hu
      obtain ⟨t, hrun, htail⟩ := ih _ hu
      refine ⟨t, hrun, fun ht => ?_⟩
      rw [htail ht, hcount, hlock, unreadMultiplies_cons, Nat.add_assoc]

end Sys2Proof.Machine
end

section
/-! The multiplies and the moves from HI and LO (R150 to R153): the product is written and read in EX. -/

namespace Sys2Proof.Machine

/-! ## The product (R150, R151) -/

theorem productHi_append_productLo (p : BitVec 64) : (productHi p ++ productLo p : BitVec 64) = p :=
  BitVec.extractLsb'_append_extractLsb'

/-- 64 bits hold every signed product of two words. -/
theorem signedProduct_toInt (a b : Word) : (signedProduct a b).toInt = a.toInt * b.toInt := by
  have hlow : -2 ^ (32 * 2 - 2) ≤ a.toInt * b.toInt := BitVec.le_toInt_mul_toInt
  have hhigh : a.toInt * b.toInt ≤ 2 ^ (32 * 2 - 2) := BitVec.toInt_mul_toInt_le
  exact BitVec.toInt_ofInt_eq_self (by decide) (by omega) (by omega)

/-- 64 bits hold every unsigned product of two words. -/
theorem unsignedProduct_toNat (a b : Word) : (unsignedProduct a b).toNat = a.toNat * b.toNat :=
  Nat.mod_eq_of_lt (BitVec.toNat_mul_toNat_lt (x := a) (y := b))

/-- Retirement of a multiply (R150, R151): the product is kept whether or not the last one was read (R27, R254). -/
theorem retirePlain_writeProduct (p : BitVec 64) (s : State) :
    ∃ t, retirePlain (writeProduct p s) = .next t ∧ (t.hi ++ t.lo : BitVec 64) = p ∧ t.lock = true ∧
      Completed s t (if s.lock then 0x04#6 else 0x00#6) ∧ t.pc = s.pc + 4#32 ∧ SameRegs s t ∧ SameBytes s t ∧
      Untouched s t := by
  refine ⟨_, rfl, ?product, ?lock, ⟨?cycle, ?stopped, ?faults⟩, ?pc, fun r => ?regs, fun a => ?bytes, ?untouched⟩
  case product => simpa [writeProduct] using productHi_append_productLo p
  case faults => exact logsFaults_of_append (State.endStep_faultLog ..)
  case pc => simp [writeProduct, nextPc]
  case untouched => simp [writeProduct, Untouched]
  case lock | cycle | stopped | regs | bytes => simp [writeProduct]

/-- Settles O12: both levels write the one product, and 64 bits hold it. -/
theorem multiplyResult : Obligations.MultiplyResult := by
  refine ⟨fun o hd w => ⟨fun h => ?mult, fun h => ?multu⟩, ⟨rfl, rfl, rfl⟩, fun rs rt s => ?execMult,
    fun rs rt s => ?execMultu, fun rs rt w a b pcn s h => ?exMult, fun rs rt w a b pcn s h => ?exMultu⟩
  case mult | multu =>
    apply decodeWord_of_rWord hd h
    simp [functRows]
  case execMult =>
    obtain ⟨t, he, hp, hrest⟩ := retirePlain_writeProduct (signedProduct (s.reg rs) (s.reg rt)) s
    exact ⟨t, he, hp ▸ signedProduct_toInt _ _, hrest⟩
  case execMultu =>
    obtain ⟨t, he, hp, hrest⟩ := retirePlain_writeProduct (unsignedProduct (s.reg rs) (s.reg rt)) s
    exact ⟨t, he, hp ▸ unsignedProduct_toNat _ _, hrest⟩
  case exMult =>
    rw [execEXWord_of_decodeWord h]
    exact ⟨(productHi_append_productLo _).symm ▸ signedProduct_toInt a b, rfl, rfl, rfl⟩
  case exMultu =>
    rw [execEXWord_of_decodeWord h]
    exact ⟨(productHi_append_productLo _).symm ▸ unsignedProduct_toNat a b, rfl, rfl, rfl⟩

/-! ## The moves (R152, R153) -/

/-- Retirement of a move-from: the shape of a register write from the unlocked state (R28). -/
theorem retireReg_unlock (d : RegIdx) (v : Word) (s : State) :
    ∃ t, retireReg d (exPure s.unlock v FaultMask.clear) = .next t ∧
      (∀ r, t.reg r = if r = d ∧ d ≠ 0#5 then v else s.reg r) ∧ t.lock = false ∧ t.hi = s.hi ∧ t.lo = s.lo ∧
      t.pc = s.pc + 4#32 ∧ Completed s t (regZeroFault d) ∧ SameBytes s t ∧ Untouched s t := by
  obtain ⟨t, he, hregs, hpc, hcompleted, ⟨hhi, hlo, hlock⟩, hbytes, huntouched⟩ :=
    retireReg_shape d s.unlock v FaultMask.clear FaultMask.isFatal_clear
  rw [FaultMask.clear_or] at hcompleted
  exact ⟨t, he, hregs, hlock, hhi, hlo, hpc, hcompleted, hbytes, huntouched⟩

/-- Settles O13: a move-from reads and unlocks in EX, and retires as a register write. -/
theorem moveFromHiLo : Obligations.MoveFromHiLo := by
  refine ⟨fun o hd w => ⟨fun h => ?mfhi, fun h => ?mflo⟩, ⟨rfl, rfl, rfl⟩, fun rd s => retireReg_unlock rd s.hi s,
    fun rd s => retireReg_unlock rd s.lo s, fun rd w a b pcn s h => ?exMfhi, fun rd w a b pcn s h => ?exMflo⟩
  case mfhi | mflo =>
    apply decodeWord_of_rWord hd h
    simp [functRows]
  case exMfhi | exMflo =>
    rw [execEXWord_of_decodeWord h]
    exact ⟨rfl, rfl, rfl⟩

end Sys2Proof.Machine
end

section
/-! The I-format ALU without an overflow test (R162 to R167): the EX part of each, and the extension it reads its
immediate by. -/

namespace Sys2Proof.Machine

/-- The immediate in the upper half is the zero-extended immediate, shifted (R163). -/
theorem upperImm_eq_shiftLeft (c : Imm16) : upperImm c = c.setWidth 32 <<< 16 := by
  rw [upperImm, BitVec.append_def, BitVec.shiftLeftZeroExtend_eq]
  simp

/-- Settles O11: each opcode's row, and an EX part that raises nothing at both levels; LUI's is read as a shift. -/
theorem immediateAluResults : Obligations.ImmediateAluResults := by
  refine ⟨fun o hd w => ⟨fun h => ?addiu, fun h => ?andi, fun h => ?ori, fun h => ?nori, fun h => ?slti,
      fun h => ?lui⟩, ⟨rfl, rfl, rfl, rfl, rfl, rfl⟩, ?_, ?_, ?_, ?_, ?_, fun rt c s => ?execLui,
    ?_, ?_, ?_, ?_, ?_, fun rt c w a b pcn s h => ?exLui⟩
  case addiu | andi | ori | nori | slti | lui =>
    apply decodeWord_of_opWord hd h
    simp [opcodeRows]
  case execLui => exact upperImm_eq_shiftLeft c ▸ writesReg_of_retireReg rfl rfl
  case exLui => exact upperImm_eq_shiftLeft c ▸ exGives_of_decodeWord h rfl
  iterate 5 exact fun _ _ _ _ => writesReg_of_retireReg rfl rfl
  iterate 5 exact fun _ _ _ _ _ _ _ _ h => exGives_of_decodeWord h rfl

end Sys2Proof.Machine
end

section
/-! Loads and stores (R170 to R178): the address add, the check of the access, and then the access or the stop. -/

namespace Sys2Proof.Machine

theorem addressFault_eq_overflowFault (s : State) (rs : RegIdx) (c : Imm16) :
    addressFault s rs c = overflowFault ((s.reg rs).toInt + (signExt16 c).toInt) :=
  raiseIf_outsideSigned32 _

section
variable {i : Instr} {n : Width} {rt rs : RegIdx} {c : Imm16} {s : State}

/-- An access that fails its check stops the machine with the faults of the check, besides the address add's
(R68, R256). -/
theorem stopsWith_of_failedCheck
    (he : exec i s =
      .next (s.endStep (addressFault s rs c ||| checkData s.par (effectiveAddress (s.reg rs) c) n)))
    (hbad : checkData s.par (effectiveAddress (s.reg rs) c) n ≠ FaultMask.clear) :
    StopsWith i s (overflowFault ((s.reg rs).toInt + (signExt16 c).toInt) |||
      accessFaults s.par (effectiveAddress (s.reg rs) c).toNat n.bytes) := by
  rw [← addressFault_eq_overflowFault, ← checkData_eq_accessFaults]
  apply stopsWith_of_endStep he
  simp [FaultMask.isFatal_or, checkData_isFatal, hbad]

/-! ## Loads (R171 to R175) -/

theorem loadMeets_of_loadInto {e : LoadExt} (he : exec i s = loadInto n e rt rs c s) :
    LoadMeets i rt rs c n.bytes s (fun a => loadValue s.dmem a n e) := by
  refine ⟨fun hok => ?completes, fun hbad => ?stops⟩
  case completes =>
    have hload := he.trans (loadInto_ok ((checkData_clear_iff ..).2 hok))
    exact addressFault_eq_overflowFault s rs c ▸ writesReg_of_retireReg hload (isFatal_addressFault s rs c)
  case stops =>
    have hcheck := mt (checkData_clear_iff ..).1 hbad
    exact stopsWith_of_failedCheck (he.trans (loadInto_bad hcheck)) hcheck

/-! ## Stores (R176 to R178) -/

/-- The bytes of a store, most significant first (R64). -/
theorem read_storeValue {m : Memory 8} (hm : m.wf = true) (a : Nat) (n : Width) (v : Word) {k : Nat}
    (hk : k < n.bytes) : (storeValue m a n v).read (a + k) = v.extractLsb' (8 * (n.bytes - 1 - k)) 8 := by
  cases n with
  | word => exact read_memWrite4 hm a v hk
  | half =>
    obtain ⟨hhi, hlo⟩ := read_storeValue_half m hm a v
    match k, hk with
    | 0, _ => exact hhi
    | 1, _ => exact hlo
  | byte =>
    match k, hk with
    | 0, _ => exact read_storeValue_byte m hm a v

theorem storeMeets_of_storeFrom (hm : s.dmem.wf = true) (he : exec i s = storeFrom n rt rs c s) :
    StoreMeets i rt rs c n.bytes s := by
  refine ⟨fun hok => ?completes, fun hbad => ?stops⟩
  case completes =>
    rw [he, storeFrom_ok ((checkData_clear_iff ..).2 hok)]
    refine ⟨_, rfl, fun k hk => ?bytes, fun b hb => ?otherBytes, ?pc, ⟨?cycle, ?stopped, ?faults⟩, fun r => ?regs,
      ?hiLo, ?untouched⟩
    case bytes =>
      rw [State.endStep_dmem]
      exact read_storeValue hm _ n _ hk
    case otherBytes =>
      rw [State.endStep_dmem]
      exact read_storeValue_other _ _ n _ b hb
    case pc => simp [nextPc]
    case faults =>
      exact addressFault_eq_overflowFault s rs c ▸ logsFaults_of_append (State.endStep_faultLog ..)
    case regs => exact State.reg_congr (State.endStep_x ..) r
    case hiLo => simp [SameHiLo]
    case untouched => simp [Untouched]
    case cycle | stopped => simp
  case stops =>
    have hcheck := mt (checkData_clear_iff ..).1 hbad
    exact stopsWith_of_failedCheck (he.trans (storeFrom_bad hcheck)) hcheck

end

/-- Settles O15: each opcode's row, and one shape for the five loads, which differ in width and extension. -/
theorem loadsReadBigEndianBytesOrStop : Obligations.LoadsReadBigEndianBytesOrStop := by
  refine ⟨fun o hd w => ⟨fun h => ?lw, fun h => ?lh, fun h => ?lhu, fun h => ?lb, fun h => ?lbu⟩,
    ⟨rfl, rfl, rfl, rfl, rfl⟩, fun _ _ _ _ => loadMeets_of_loadInto (n := .word) (e := .none) rfl,
    fun _ _ _ _ => loadMeets_of_loadInto (n := .half) (e := .sign) rfl,
    fun _ _ _ _ => loadMeets_of_loadInto (n := .half) (e := .zero) rfl,
    fun _ _ _ _ => loadMeets_of_loadInto (n := .byte) (e := .sign) rfl,
    fun _ _ _ _ => loadMeets_of_loadInto (n := .byte) (e := .zero) rfl⟩
  case lw | lh | lhu | lb | lbu =>
    apply decodeWord_of_opWord hd h
    simp [opcodeRows]

/-- Settles O16: each opcode's row, one shape for the three stores, and the datum MEM hands on. -/
theorem storesWriteTheirBytesOnlyOrStop : Obligations.StoresWriteTheirBytesOnlyOrStop := by
  refine ⟨fun o hd w => ⟨fun h => ?sw, fun h => ?sh, fun h => ?sb⟩, ⟨rfl, rfl, rfl⟩,
    fun _ _ _ _ hm => storeMeets_of_storeFrom (n := .word) hm rfl,
    fun _ _ _ _ hm => storeMeets_of_storeFrom (n := .half) hm rfl,
    fun _ _ _ _ hm => storeMeets_of_storeFrom (n := .byte) hm rfl, fun _ _ hw => if_pos hw⟩
  case sw | sh | sb =>
    apply decodeWord_of_opWord hd h
    simp [opcodeRows]

/-! ## The address add (R170) -/

/-- A displacement is at most 32768 in magnitude, so a sum that leaves the signed range stays near its ends. -/
theorem le_toNat_add_of_overflow {a : Word} {c : Imm16}
    (h : overflowFault (a.toInt + (c.signExtend 32).toInt) ≠ 0x00#6) :
    0x7FFF8000 ≤ (a + c.signExtend 32).toNat := by
  have hout : a.toInt + (c.signExtend 32).toInt < -2147483648 ∨ 2147483647 < a.toInt + (c.signExtend 32).toInt :=
    by_contra fun hin => h (if_neg hin)
  have hdisp : (c.signExtend 32).toInt = c.toInt := BitVec.toInt_signExtend_of_le (by decide)
  have hlow : -2 ^ 15 ≤ c.toInt := BitVec.le_toInt c
  have hhigh : c.toInt < 2 ^ 15 := BitVec.toInt_lt
  generalize c.signExtend 32 = d at hout hdisp ⊢
  rw [BitVec.toInt_eq_toNat_cond a, BitVec.toInt_eq_toNat_cond d] at hout
  rw [BitVec.toInt_eq_toNat_cond d] at hdisp
  rw [BitVec.toNat_add]
  omega

/-- An address at or past the end of the data array fails the bounds test, whatever the width (R67). -/
theorem checkData_addressOverflow_of_le {p : Params} {a : Word} (h : p.dmemBytes ≤ a.toNat) (n : Width) :
    (checkData p a n).getLsbD 3 = true := by
  have hpos : 0 < n.bytes := by cases n <;> decide
  have hpast : p.dmemBytes < a.toNat + n.bytes := Nat.lt_of_le_of_lt h (Nat.lt_add_of_pos_right hpos)
  rw [checkData_eq_accessFaults, accessFaults, if_pos hpast]
  split <;> rfl

/-- An instruction leaves every register but its destination (R23, R104). -/
theorem exec_keeps_reg {i : Instr} {s t : State} {r : RegIdx} (h : exec i s = .next t)
    (hr : i.control.regWrite = true → i.control.dest ≠ r) : t.reg r = s.reg r := by
  rcases exec_next h with ⟨-, rfl⟩ | ⟨-, rfl⟩
  · rw [State.reg_endStep, reg_seqEffects, if_neg fun ⟨hw, hd, _⟩ => hr hw hd.symm]
  · rw [State.reg_endStep]

/-- The loads and stores of `rt` at `c(rs)` (R171 to R178). -/
def accessInstrs (rt rs : RegIdx) (c : Imm16) : List Instr :=
  [.lw rt rs c, .lh rt rs c, .lhu rt rs c, .lb rt rs c, .lbu rt rs c, .sw rt rs c, .sh rt rs c, .sb rt rs c]

section
variable (rt rs : RegIdx) (c : Imm16)

theorem execEX_of_mem_accessInstrs (a b pcn : Word) (s : State) :
    ∀ i ∈ accessInstrs rt rs c, execEX i a b pcn s = exAddress c a s :=
  List.forall_iff_forall_mem.1 ⟨rfl, rfl, rfl, rfl, rfl, rfl, rfl, rfl⟩

theorem dest_of_mem_accessInstrs :
    ∀ i ∈ accessInstrs rt rs c, i.control.regWrite = true → i.control.dest = rt :=
  List.forall_iff_forall_mem.1 ⟨fun _ => rfl, fun _ => rfl, fun _ => rfl, fun _ => rfl, fun _ => rfl,
    nofun, nofun, nofun⟩

end

/-- Settles O17: every load and store has the one EX part, and writes no register but a load's `rt`. -/
theorem addressAddOverflow : Obligations.AddressAddOverflow := by
  refine ⟨fun rt rs c w a b pcn s i hi hd => ?ex, fun a c p n hp hover => ?bound,
    fun rt rs c s t i hi he hr => ?base⟩
  case ex => exact exGives_of_overflowTest hd (execEX_of_mem_accessInstrs rt rs c a b pcn s i hi)
  case bound =>
    have hfar := le_toNat_add_of_overflow hover
    exact ⟨hfar, checkData_addressOverflow_of_le (hp.trans hfar) n⟩
  case base => exact exec_keeps_reg he fun hw => dest_of_mem_accessInstrs rt rs c i hi hw ▸ hr hw

end Sys2Proof.Machine
end

section
/-! Transfers of control (R185 to R191): each is retired at its target, JAL behind the write of its link register. -/

namespace Sys2Proof.Machine

theorem controlOf_of_decodeWord {o : Opc} {w : Word} {i : Instr} (h : decodeWord o w = .ok i) :
    controlOf o w = i.control := by
  simp only [controlOf, h]

/-- A claim about the control outputs of a word is read off the instruction it decodes to (R103, R104). -/
theorem decodes_and_of_control {o : Opc} {w : Word} {i : Instr} {P : Prop} (h : decodeWord o w = .ok i)
    (hP : controlOf o w = i.control → P) : decodeWord o w = .ok i ∧ P :=
  ⟨h, hP (controlOf_of_decodeWord h)⟩

/-! ## Branches (R186 to R188) -/

/-- A branch whose test decides `p` goes to its target if `p` holds, else to the next instruction. -/
theorem onlyMovesPc_of_branchIf {i : Instr} {taken : Bool} {c : Imm16} {s : State} {p : Prop} [Decidable p]
    (he : exec i s = branchIf taken c s) (hp : taken = true ↔ p) :
    OnlyMovesPc i s (if p then s.pc + 4#32 + (c.signExtend 32 <<< 2) else s.pc + 4#32) := by
  have htarget : (if taken then branchTarget (nextPc s.pc) c else nextPc s.pc) =
      if p then s.pc + 4#32 + (c.signExtend 32 <<< 2) else s.pc + 4#32 := if_congr hp rfl rfl
  exact htarget ▸ onlyMovesPc_of_retireTo he

/-- Settles O18: each opcode's row, and one retirement for the three branches, which differ in their test. -/
theorem branchesGoToTargetOrNext : Obligations.BranchesGoToTargetOrNext := by
  refine ⟨fun o hd w => ⟨fun h => ?beq, fun h => ?bne, fun h => ?bgtz⟩, ⟨rfl, rfl, rfl⟩,
    fun _ _ _ _ => onlyMovesPc_of_branchIf rfl beq_iff_eq, fun _ _ _ _ => onlyMovesPc_of_branchIf rfl bne_iff_ne,
    fun _ _ _ => onlyMovesPc_of_branchIf rfl decide_eq_true_iff⟩
  case beq | bne | bgtz =>
    refine decodes_and_of_control ?_ fun hc => hc ▸ ⟨rfl, rfl⟩
    apply decodeWord_of_opWord hd h
    simp [opcodeRows]

/-! ## Jumps (R189 to R191) -/

theorem onlyMovesPc_j (target : Target26) (s : State) :
    OnlyMovesPc (.j target) s ((s.pc + 4#32).extractLsb' 28 4 ++ target ++ 0#2) :=
  onlyMovesPc_of_retireTo rfl

/-- JAL is J behind the write of the link register, which leaves the pc (R190). -/
theorem exec_jal_eq_exec_j (target : Target26) (s : State) :
    exec (.jal target) s = exec (.j target) (s.setReg linkReg (nextPc s.pc)) := by
  simp only [exec, execJal, execJ, State.setReg_pc, exLink, exPure]

theorem reg_setReg_linkReg (s : State) (v : Word) (r : RegIdx) :
    (s.setReg linkReg v).reg r = if r = 31#5 then v else s.reg r := by
  simp [State.reg_setReg, linkReg]

/-- Settles O19: each number's row, the retirement of J and JR at their target, and JAL as a J. -/
theorem jumpsAndLink : Obligations.JumpsAndLink := by
  refine ⟨fun o hd w => ⟨fun h => ?j, fun h => ?jal, fun h => ?jr⟩, ⟨rfl, rfl, rfl, rfl⟩, onlyMovesPc_j,
    fun target s => ?execJal, fun _ _ => onlyMovesPc_of_retireTo rfl,
    fun _ _ _ _ _ _ h => exGives_of_decodeWord h rfl⟩
  case j =>
    refine decodes_and_of_control ?_ fun hc => hc ▸ ⟨rfl, rfl, rfl⟩
    apply decodeWord_of_opWord hd h
    simp [opcodeRows]
  case jal =>
    refine decodes_and_of_control ?_ fun hc => hc ▸ ⟨rfl, rfl⟩
    apply decodeWord_of_opWord hd h
    simp [opcodeRows]
  case jr =>
    refine decodes_and_of_control ?_ fun hc => hc ▸ ⟨rfl, rfl, rfl⟩
    apply decodeWord_of_rWord hd h
    simp [functRows]
  case execJal =>
    obtain ⟨t, he, hpc, hcompleted, hregs, hrest⟩ := onlyMovesPc_j target (s.setReg linkReg (nextPc s.pc))
    exact ⟨t, (exec_jal_eq_exec_j target s).trans he, fun r => (hregs r).trans (reg_setReg_linkReg s _ r), hpc,
      hcompleted, hrest⟩

end Sys2Proof.Machine
end

section
/-! HALT and NOP (R200 to R202): idle words, which have no control output, nothing to do in EX and no transfer. -/

namespace Sys2Proof.Machine

/-- The word is HALT's or NOP's, the two instructions that only advance the pc (R200, R201). -/
def IdleWord (o : Opc) (w : Word) : Prop := ∃ i, decodeWord o w = .ok i ∧ (i = .halt ∨ i = .nop)

theorem decodeWord_of_haltOpWord {o : Opc} (hd : o.distinct = true) {w : Word} (h : OpWord o.op.halt w) :
    decodeWord o w = .ok .halt :=
  decodeWord_of_opWord hd h (build := fun _ => .halt) (by simp [opcodeRows])

/-- `IsHalt` looks at the opcode alone, so it holds of the NOP word too if HALT has the opcode 0 (R99, R202). -/
theorem decodeWord_of_isHaltWord {o : Opc} (hd : o.distinct = true) {w : Word} (h : isHaltWord o w = true) :
    decodeWord o w = .ok .halt ∨ o.op.halt = 0#6 ∧ w = 0#32 := by
  have hop : opcodeOf w = o.op.halt := beq_iff_eq.1 h
  by_cases hw : w = 0#32
  · subst hw
    exact .inr ⟨hop.symm, rfl⟩
  · exact .inl (decodeWord_of_haltOpWord hd ⟨hop, hw⟩)

theorem idleWord_of_isHaltWord {o : Opc} (hd : o.distinct = true) {w : Word} (h : isHaltWord o w = true) :
    IdleWord o w := by
  rcases decodeWord_of_isHaltWord hd h with hhalt | ⟨-, rfl⟩
  · exact ⟨.halt, hhalt, .inl rfl⟩
  · exact ⟨.nop, decodeWord_zero o, .inr rfl⟩

theorem controlOf_of_idleWord {o : Opc} {w : Word} (h : IdleWord o w) : controlOf o w = Control.none := by
  obtain ⟨i, hi, rfl | rfl⟩ := h <;> exact control_of_decodeWord hi

theorem execEXWord_of_idleWord {w : Word} {s : State} (h : IdleWord s.par.opc w) (a b p : Word) :
    execEXWord w a b p s = exNothing s := by
  obtain ⟨i, hi, rfl | rfl⟩ := h <;> exact execEXWord_of_decodeWord hi a b p

/-- Settles O20: HALT's row, and one retirement and one empty EX part for both instructions. -/
theorem haltAndNopOnlyAdvance : Obligations.HaltAndNopOnlyAdvance := by
  refine ⟨fun o hd w h => ?decodes, rfl, by decide, fun o => ⟨decodeWord_zero o, controlOf_zero o⟩,
    fun _ => onlyMovesPc_of_retirePlain rfl, fun _ => onlyMovesPc_of_retirePlain rfl,
    fun _ _ _ _ _ h => exGives_of_decodeWord h rfl, fun _ _ _ s => exGives_of_decodeWord (decodeWord_zero _) rfl,
    rfl, rfl, fun s a ha hlow => fetch_below ((lowBits_eq_zero_iff a).1 ha) hlow⟩
  exact decodes_and_of_control (decodeWord_of_haltOpWord hd h) id

end Sys2Proof.Machine
end

section
/-! The stop at an illegal word (R203, R256, R258). -/

namespace Sys2Proof.Machine

/-- The fatal mask is logged in the current cycle and the status set; nothing else changes. -/
theorem illegalStop_eq (s : State) :
    illegalStop s = { s with faultLog := s.faultLog ++ [(s.cycle, 0x20#6)], stopped := true } := rfl

theorem decodeWord_of_illegal {o : Opc} {w : Word} (h : legalWord o w = false) : ∃ e, decodeWord o w = .error e := by
  cases hd : decodeWord o w with
  | ok i => simp [legal_ok hd] at h
  | error e => exact ⟨e, rfl⟩

/-- The fetch stage stops at an illegal word, whatever meaning the instructions have. -/
theorem fetchThen_of_illegal {s : State} {w : Word} (run : Instr → State → Result) (hf : fetch s s.pc = .word w)
    (h : legalWord s.par.opc w = false) : fetchThen run s = .next (illegalStop s) := by
  obtain ⟨e, he⟩ := decodeWord_of_illegal h
  simp only [fetchThen, hf, he]

/-- The fault is the first of the end-of-run tests (R223). -/
theorem statusOf_of_stopped {s : State} (hs : s.stopped = true) (halted : Bool) :
    statusOf halted s = .faultStopped := if_pos hs

/-- Settles O30: a running machine's fetch meets the illegal word, and a stopped one fails the first run-loop test. -/
theorem stepStopsAtAnIllegalWord : Obligations.StepStopsAtAnIllegalWord := by
  refine ⟨fun s w hr hf hl => ?stops, fun s hs => ⟨?step, ?clock⟩⟩
  case stops =>
    calc step s = fetchThen exec s := step_of_running hr
      _ = .next (illegalStop s) := fetchThen_of_illegal exec hf hl
      _ = _ := congrArg Host.Outcome.next (illegalStop_eq s)
  case step => rw [step, seqStatus, statusOf_of_stopped hs, whileRunning]
  case clock => rw [clock, pipeStatus, statusOf_of_stopped hs, whileRunning]

end Sys2Proof.Machine
end

section
/-! The halted pipeline (R202): all it has in flight is idle, and completing an idle instruction changes nothing. -/

namespace Sys2Proof.Machine

theorem finishWb_noWrite {m : MemWb} (h : m.regWrite = false) (s : State) : finishWb m s = s := by
  simp [finishWb, wbState, wbMask, h]

theorem finishMem_noEffect {e : ExMem} (hr : e.memRead = false) (hw : e.memWrite = false) (hd : e.regWrite = false)
    (s : State) : finishMem e s = s := by
  rw [finishMem_noAccess e s hr hw]
  exact finishWb_noWrite hd s

theorem finishEx_idle {d : IdEx} {s : State} (hi : IdleWord s.par.opc d.instr) (hd : d.Decoded s.par.opc) :
    finishEx d s = s := by
  have hc := controlOf_of_idleWord hi
  unfold finishEx
  split
  · rfl
  · simp only [execEXWord_of_idleWord hi, exNothing, exPure, State.logMask_clear]
    exact finishMem_noEffect (by simp [exLatch, hd.memRead, hc, Control.none])
      (by simp [exLatch, hd.memWrite, hc, Control.none]) (by simp [exLatch, hd.regWrite, hc, Control.none]) s

theorem resolve_idle {i : Instr} (h : i = .halt ∨ i = .nop) (p : Word) (v : RegIdx → Word) : resolve i p v = none := by
  rcases h with rfl | rfl <;> rfl

theorem finishId_idle {f : IfId} {s : State} (h : IdleWord s.par.opc f.instr) : finishId f s = s := by
  cases hs : s.stopped with
  | true => exact finishId_stopped hs f
  | false =>
    obtain ⟨i, hi, hidle⟩ := id h
    rw [finishId_ok hi hs, resolve_idle hidle]
    exact finishEx_idle h ⟨rfl, rfl, rfl, rfl, legal_ok hi⟩

/-- All four latches hold idle words. -/
structure IdlePipe (o : Opc) (p : Pipe) : Prop where
  ifid : IdleWord o p.ifid.instr
  idex : IdleWord o p.idex.instr
  exmem : IdleWord o p.exmem.instr
  memwb : IdleWord o p.memwb.instr

theorem isHaltWord_of_pipeHalted {s : State} (h : pipeHalted s = true) :
    isHaltWord s.par.opc s.pipe.ifid.instr = true ∧ isHaltWord s.par.opc s.pipe.idex.instr = true ∧
      isHaltWord s.par.opc s.pipe.exmem.instr = true ∧ isHaltWord s.par.opc s.pipe.memwb.instr = true := by
  simp only [pipeHalted, Bool.and_eq_true] at h
  obtain ⟨⟨⟨⟨-, hifid⟩, hidex⟩, hexmem⟩, hmemwb⟩ := h
  exact ⟨hifid, hidex, hexmem, hmemwb⟩

theorem idlePipe_of_pipeHalted {s : State} (hd : s.par.opc.distinct = true) (h : pipeHalted s = true) :
    IdlePipe s.par.opc s.pipe := by
  obtain ⟨hifid, hidex, hexmem, hmemwb⟩ := isHaltWord_of_pipeHalted h
  exact ⟨idleWord_of_isHaltWord hd hifid, idleWord_of_isHaltWord hd hidex, idleWord_of_isHaltWord hd hexmem,
    idleWord_of_isHaltWord hd hmemwb⟩

/-- No hazard: neither EX nor MEM holds a producer (R305). -/
theorem stallOf_idle {o : Opc} {p : Pipe} (hinv : LatchInv o p) (h : IdlePipe o p) : stallOf o p = false := by
  have hload : p.idex.memRead = false := by rw [hinv.idexMemRead, controlOf_of_idleWord h.idex]; rfl
  have hex : p.idex.regWrite = false := by rw [hinv.idexRegWrite, controlOf_of_idleWord h.idex]; rfl
  have hmem : p.exmem.regWrite = false := by rw [hinv.exmemRegWrite, controlOf_of_idleWord h.exmem]; rfl
  simp [stallOf, stallCond, loadUse, ctlEx, ctlMem, hload, hex, hmem]

/-- Idle instructions complete without a trace, oldest first. -/
theorem drain_idle {s : State} (hinv : LatchInv s.par.opc s.pipe) (h : IdlePipe s.par.opc s.pipe) : drain s = s := by
  have hwb : finishWb s.pipe.memwb s = s :=
    finishWb_noWrite (by rw [hinv.memwbRegWrite, controlOf_of_idleWord h.memwb]; rfl) s
  have hmem : finishMem s.pipe.exmem s = s := by
    have hc := controlOf_of_idleWord h.exmem
    exact finishMem_noEffect (by rw [hinv.exmemMemRead, hc]; rfl) (by rw [hinv.exmemMemWrite, hc]; rfl)
      (by rw [hinv.exmemRegWrite, hc]; rfl) s
  rw [drain, hwb, hmem, finishEx_idle h.idex hinv.idex, finishId_idle h.ifid]

/-- Settles O54: the halted pipeline is idle, and draining an idle pipeline gives the state itself. -/
theorem haltedPipelineIsDrained : Obligations.HaltedPipelineIsDrained := by
  intro s hd hinv _ hhalted
  have hidle := idlePipe_of_pipeHalted hd hhalted
  refine ⟨stallOf_idle hinv hidle, ?decodes, ?drained⟩
  case decodes =>
    rcases decodeWord_of_isHaltWord hd (isHaltWord_of_pipeHalted hhalted).1 with hhalt | ⟨h0, hzero⟩
    · exact ⟨.halt, hhalt, .inl rfl, resolve_idle (.inl rfl)⟩
    · exact ⟨.nop, hzero ▸ decodeWord_zero _, .inr ⟨h0, hzero⟩, resolve_idle (.inr rfl)⟩
  case drained =>
    rw [drain_idle hinv hidle]
    exact ⟨SameData.refl s, fun _ => rfl⟩

end Sys2Proof.Machine
end

section
/-! Completing the two oldest instructions in flight, and the operands that forwarding delivers (R214, R218): a reader
sees the register file that these instructions leave. -/

namespace Sys2Proof.Machine

/-! ## Completing from a running machine -/

theorem finishWb_running {s : State} (hs : s.stopped = false) (m : MemWb) :
    finishWb m s = (wbState m s).logMask (wbMask m) := by
  simp [finishWb, hs]

theorem finishMem_passes {e : ExMem} {s : State} (hs : s.stopped = false) (hm : (memMask e s.par).isFatal = false) :
    finishMem e s = finishWb (memLatch e s) (memState e s) := by
  simp [finishMem, hs, hm]

theorem finishMem_faults {e : ExMem} {s : State} (hs : s.stopped = false) (hm : (memMask e s.par).isFatal = true) :
    finishMem e s = s.faultStop (memMask e s.par) := by
  simp [finishMem, hs, hm]

theorem finishEx_running {d : IdEx} {s : State} (hs : s.stopped = false) :
    finishEx d s =
      (let o := execEXWord d.instr (s.reg (rsOf d.instr)) (s.reg (rtOf d.instr)) d.pcNext s
       finishMem (exLatch d o.result (s.reg (rtOf d.instr))) (o.state.logMask o.fm)) := by
  simp [finishEx, hs]

/-! ## What completing leaves of a register -/

theorem reg_finishWb_other {m : MemWb} {r : RegIdx} (h : m.regWrite = true → m.writeDest ≠ r) (s : State) :
    (finishWb m s).reg r = s.reg r := by
  have hr : ¬ (m.regWrite = true ∧ r = m.writeDest ∧ r ≠ 0#5) := fun ⟨hw, hd, _⟩ => h hw hd.symm
  unfold finishWb
  split
  · rfl
  · rw [State.reg_logMask, reg_wbState, if_neg hr]

theorem reg_finishMem_other {e : ExMem} {r : RegIdx} (h : e.regWrite = true → e.writeDest ≠ r) (s : State) :
    (finishMem e s).reg r = s.reg r := by
  unfold finishMem
  split
  · rfl
  · split
    · exact State.reg_faultStop s _ r
    · rw [reg_finishWb_other (m := memLatch e s) h, reg_memState]

/-- An instruction completed from EX leaves all registers but its destination alone. -/
theorem reg_finishEx_other {d : IdEx} {r : RegIdx} (h : d.regWrite = true → d.writeDest ≠ r) (s : State) :
    (finishEx d s).reg r = s.reg r := by
  unfold finishEx
  split
  · rfl
  · exact (reg_finishMem_other h _).trans (by rw [State.reg_logMask, reg_execEXWord])

/-! ## The two oldest instructions -/

/-- The instructions in WB and MEM completed, oldest first (R226). -/
def completeMem (s : State) : State := finishMem s.pipe.exmem (finishWb s.pipe.memwb s)

/-- The instructions in WB, MEM and EX completed, oldest first (R226). -/
def completeEx (s : State) : State := finishEx s.pipe.idex (completeMem s)

theorem drain_eq (s : State) : drain s = finishId s.pipe.ifid (completeEx s) := rfl

@[simp] theorem completeMem_pc (s : State) : (completeMem s).pc = s.pc := by simp [completeMem]
@[simp] theorem completeMem_par (s : State) : (completeMem s).par = s.par := by simp [completeMem]
@[simp] theorem completeMem_imem (s : State) : (completeMem s).imem = s.imem := by simp [completeMem]
@[simp] theorem completeEx_pc (s : State) : (completeEx s).pc = s.pc := by simp [completeEx]
@[simp] theorem completeEx_par (s : State) : (completeEx s).par = s.par := by simp [completeEx]
@[simp] theorem completeEx_imem (s : State) : (completeEx s).imem = s.imem := by simp [completeEx]

section
variable {s : State} (hs : s.stopped = false) (hm : (memMask s.pipe.exmem s.par).isFatal = false)
include hs hm

/-- Where MEM does not fault: WB's write, MEM's store, and the write MEM hands on to WB. -/
theorem completeMem_eq : completeMem s =
    (wbState (nextMemWb s) (memState s.pipe.exmem ((wbState s.pipe.memwb s).logMask (wbMask s.pipe.memwb)))).logMask
      (wbMask (nextMemWb s)) := by
  have hlatch : memLatch s.pipe.exmem ((wbState s.pipe.memwb s).logMask (wbMask s.pipe.memwb)) = nextMemWb s :=
    memLatch_congr (by simp) (by simp) _
  rw [completeMem, finishWb_running hs, finishMem_passes (by simpa using hs) (by simpa using hm), hlatch,
    finishWb_running (by simpa using hs)]

theorem completeMem_stopped : (completeMem s).stopped = false := by
  simp [completeMem_eq hs hm, hs]

theorem reg_completeMem (r : RegIdx) : (completeMem s).reg r =
    if s.pipe.exmem.regWrite = true ∧ r = s.pipe.exmem.writeDest ∧ r ≠ 0#5 then (nextMemWb s).rtData
    else (wbState s.pipe.memwb s).reg r := by
  rw [completeMem_eq hs hm, State.reg_logMask, reg_wbState, reg_memState, State.reg_logMask]
  rfl

end

/-! ## Forwarding -/

/-- What MEM hands on for a register write that is no load is EX's result (R213). -/
theorem nextMemWb_rtData {s : State} (hinv : LatchInv s.par.opc s.pipe) (hw : s.pipe.exmem.regWrite = true)
    (hload : s.pipe.exmem.memRead = false) : (nextMemWb s).rtData = s.pipe.exmem.aluResult := by
  have hstore : s.pipe.exmem.memWrite = false := by
    refine Bool.eq_false_iff.2 fun h => ?_
    have := (control_memWrite (hinv.exmemMemWrite ▸ h)).1
    simp [hinv.exmemRegWrite, this] at hw
  simp [nextMemWb, memLatch, memData, hload, hstore]

/-- The forwarding decision as the rules of a register read: EX/MEM's write first, then MEM/WB's (R214). -/
theorem fwd_of_read (p : Pipe) (r : RegIdx) (latched : Word) : fwd p r true latched =
    if p.exmem.regWrite = true ∧ r = p.exmem.writeDest ∧ r ≠ 0#5 then p.exmem.aluResult
    else if p.memwb.regWrite = true ∧ r = p.memwb.writeDest ∧ r ≠ 0#5 then p.memwb.rtData else latched := by
  by_cases h0 : r = 0#5
  · simp [fwd, fwdSource, h0]
  · simp only [fwd, fwdSource, Bool.and_eq_true, beq_iff_eq, eq_comm (a := r)]
    by_cases hmem : p.exmem.regWrite = true ∧ p.exmem.writeDest = r <;>
      by_cases hwb : p.memwb.regWrite = true ∧ p.memwb.writeDest = r <;> simp [h0, hmem, hwb]

/-- `Fwd` delivers the register that WB and MEM leave, of a latched value that was the register's at the start of the
cycle, unless MEM holds the load of it (R214, R304). -/
theorem fwd_eq_reg_completeMem {s : State} {r : RegIdx} {latched : Word} (hinv : LatchInv s.par.opc s.pipe)
    (hs : s.stopped = false) (hm : (memMask s.pipe.exmem s.par).isFatal = false) (hl : latched = s.reg r)
    (hgap : r ≠ 0#5 → s.pipe.exmem.memRead = true → s.pipe.exmem.writeDest ≠ r) :
    fwd s.pipe r true latched = (completeMem s).reg r := by
  rw [fwd_of_read, reg_completeMem hs hm, reg_wbState, hl]
  split
  · next hw =>
    obtain ⟨hw, hd, h0⟩ := hw
    have hload : s.pipe.exmem.memRead = false := Bool.eq_false_iff.2 fun h => hgap h0 h hd.symm
    rw [nextMemWb_rtData hinv hw hload]
  · rfl

/-- The load in MEM is of no register that the instruction in EX reads (R300). -/
theorem PipeInv.dest_ne_of_load {s : State} (hinv : PipeInv s) {r : RegIdx}
    (hr : (srcs s.par.opc s.pipe.idex.instr).contains r = true) (hload : s.pipe.exmem.memRead = true) :
    s.pipe.exmem.writeDest ≠ r := by
  rintro rfl
  rw [hinv.loadGap hload] at hr
  cases hr

section
variable {s : State} (hinv : PipeInv s) (hs : s.stopped = false) (hm : (memMask s.pipe.exmem s.par).isFatal = false)
include hinv hs hm

theorem exOperandA_eq_reg (h : (controlOf s.par.opc s.pipe.idex.instr).hasRs = true) :
    exOperandA s.par.opc s.pipe = (completeMem s).reg (rsOf s.pipe.idex.instr) := by
  rw [exOperandA, h]
  exact fwd_eq_reg_completeMem hinv.latches hs hm hinv.rsLatched fun h0 => hinv.dest_ne_of_load (mem_srcs_rs h h0)

theorem exOperandB_eq_reg (h : (controlOf s.par.opc s.pipe.idex.instr).hasRt = true) :
    exOperandB s.par.opc s.pipe = (completeMem s).reg (rtOf s.pipe.idex.instr) := by
  rw [exOperandB, h]
  exact fwd_eq_reg_completeMem hinv.latches hs hm hinv.rtLatched fun h0 => hinv.dest_ne_of_load (mem_srcs_rt h h0)

end

/-- Settles O41: forwarding is a register read behind MEM, since the load-use stall keeps the readers of MEM's load out
of EX. -/
theorem forwardedOperandsAreSequential : Obligations.ForwardedOperandsAreSequential :=
  fun _ hinv hs hm => ⟨exOperandA_eq_reg hinv hs hm, exOperandB_eq_reg hinv hs hm⟩

/-! ## The operands of a control instruction in ID -/

theorem idForwards_iff (p : Pipe) (r : RegIdx) :
    idForwards p r = true ↔ p.exmem.regWrite = true ∧ p.exmem.writeDest = r ∧ r ≠ 0#5 := by
  simp only [idForwards, Bool.and_eq_true, bne_iff_ne, beq_iff_eq]
  exact ⟨fun ⟨⟨h0, hw⟩, hd⟩ => ⟨hw, hd, h0⟩, fun ⟨hw, hd, h0⟩ => ⟨⟨h0, hw⟩, hd⟩⟩

/-- `IDval` as the rules of a register read (R218). -/
theorem idVal_eq (p : Pipe) (s : State) (r : RegIdx) : idVal p s r =
    if p.exmem.regWrite = true ∧ r = p.exmem.writeDest ∧ r ≠ 0#5 then p.exmem.aluResult else s.reg r := by
  simp only [idVal, idForwards_iff, eq_comm (a := r)]

/-- A control instruction that does not stall reads no destination of EX and no load's in MEM (R301, R302). -/
theorem no_producer_of_not_stall {o : Opc} {p : Pipe} {i : Instr} {r : RegIdx} (hstall : stallOf o p = false)
    (hi : decodeWord o p.ifid.instr = .ok i) (hc : i.isCtlReg = true) (hr : r ∈ srcs o p.ifid.instr) :
    (p.idex.regWrite = true → p.idex.writeDest ≠ r) ∧
      (p.exmem.regWrite = true → p.exmem.writeDest = r → p.exmem.memRead = false) := by
  have hctl : isCtlRegWord o p.ifid.instr = true := by simp [isCtlRegWord, hi, hc]
  simp only [stallOf, stallCond, ctlEx, ctlMem, hctl, Bool.or_eq_false_iff] at hstall
  obtain ⟨⟨-, hex⟩, hmem⟩ := hstall
  refine ⟨fun hw hd => ?_, fun hw hd => ?_⟩
  · simp [hw, hd, hr] at hex
  · simpa [hw, hd, hr] using hmem

/-- `IDval` of a non-zero register that the instructions in EX do not write is what they leave in it (R218, R303). -/
theorem idVal_eq_reg {s : State} {i : Instr} {r : RegIdx} (hinv : PipeInv s) (hs : s.stopped = false)
    (hm : (memMask s.pipe.exmem s.par).isFatal = false) (hstall : stallOf s.par.opc s.pipe = false)
    (hi : decodeWord s.par.opc s.pipe.ifid.instr = .ok i) (hc : i.isCtlReg = true)
    (hr : r ∈ srcs s.par.opc s.pipe.ifid.instr) : idVal s.pipe (afterEx s) r = (completeEx s).reg r := by
  obtain ⟨hex, hmem⟩ := no_producer_of_not_stall hstall hi hc hr
  rw [completeEx, reg_finishEx_other hex, reg_completeMem hs hm, idVal_eq, reg_afterEx]
  split
  · next hw => rw [nextMemWb_rtData hinv.latches hw.1 (hmem hw.1 hw.2.1.symm)]
  · rfl

/-- Settles O42: what EX and MEM could still change of the register makes the instruction stall. -/
theorem branchOperandsInIdAreSequential : Obligations.BranchOperandsInIdAreSequential :=
  fun _ _ _ hinv hs hm hstall hi hc hr => idVal_eq_reg hinv hs hm hstall hi hc hr

end Sys2Proof.Machine
end

section
/-! The ends of a clock cycle (R222, R225): which one a cycle has, and what each leaves. -/

namespace Sys2Proof.Machine

/-! ## Which end a cycle has -/

theorem clock_of_memFault {s t : State} (h : clock s = .next t)
    (hm : (memMask s.pipe.exmem s.par).isFatal = true) : t = stopInMem s := by
  rcases (clock_next h).2 with ⟨-, rfl⟩ | ⟨hm', -⟩ | ⟨hm', -⟩
  · rfl
  all_goals simp [hm] at hm'

theorem clock_of_illegal {s t : State} (h : clock s = .next t)
    (hm : (memMask s.pipe.exmem s.par).isFatal = false) (hl : legalWord s.par.opc s.pipe.ifid.instr = false) :
    t = stopInId s := by
  rcases (clock_next h).2 with ⟨hm', -⟩ | ⟨-, -, rfl⟩ | ⟨-, i, f, hi, -⟩
  · simp [hm] at hm'
  · rfl
  · simp [legal_ok hi] at hl

theorem clock_of_legal {s t : State} (h : clock s = .next t)
    (hm : (memMask s.pipe.exmem s.par).isFatal = false) (hl : legalWord s.par.opc s.pipe.ifid.instr = true) :
    ∃ i f, decodeWord s.par.opc s.pipe.ifid.instr = .ok i ∧ fetch s s.pc = .word f ∧
      t = commit (idSignal i s.pipe (afterEx s)) f s := by
  rcases (clock_next h).2 with ⟨hm', -⟩ | ⟨-, ⟨e, he⟩, -⟩ | ⟨-, hcommit⟩
  · simp [hm] at hm'
  · simp [legalWord, he] at hl
  · exact hcommit

/-- All that a clock cycle that completes can be: one with neither fault, committed with ID's signal (R225). -/
theorem clock_completes {s t : State} (h : clock s = .next t) (ht : t.stopped = false) :
    s.stopped = false ∧ (memMask s.pipe.exmem s.par).isFatal = false ∧
      ∃ i f, decodeWord s.par.opc s.pipe.ifid.instr = .ok i ∧ fetch s s.pc = .word f ∧
        t = commit (idSignal i s.pipe (afterEx s)) f s := by
  obtain ⟨hr, hcases⟩ := clock_next h
  refine ⟨running_stopped hr, ?_⟩
  rcases hcases with ⟨hm, -⟩ | ⟨-, -, rfl⟩ | hcommit
  · simp [clock_stopped_of_memMask h hm] at ht
  · simp [stopInId, FaultMask.isFatal_or] at ht
  · exact hcommit

/-! ## Taking the cycle -/

theorem clockCycle_of_memFault {s : State} (hm : (memMask s.pipe.exmem s.par).isFatal = true) :
    clockCycle s = .next (stopInMem s) := if_pos hm

theorem clockCycle_of_illegal {s : State} (hm : (memMask s.pipe.exmem s.par).isFatal = false)
    (hl : legalWord s.par.opc s.pipe.ifid.instr = false) : clockCycle s = .next (stopInId s) := by
  obtain ⟨e, he⟩ := decodeWord_of_illegal hl
  simp [clockCycle, hm, he]

theorem clockCycle_of_fetch {s : State} {i : Instr} {f : Word} (hm : (memMask s.pipe.exmem s.par).isFatal = false)
    (hi : decodeWord s.par.opc s.pipe.ifid.instr = .ok i) (hf : fetch s s.pc = .word f) :
    clockCycle s = .next (commit (idSignal i s.pipe (afterEx s)) f s) := by
  simp [clockCycle, hm, hi, hf]

/-! ## The masks of the three ends -/

theorem wbMask_eq (m : MemWb) : wbMask m = if m.regWrite = true ∧ m.writeDest = 0#5 then 0x01#6 else 0x00#6 := by
  unfold wbMask
  cases m.regWrite with
  | false => rfl
  | true => simpa [regZeroFault] using writeBackMask_eq m.writeDest

theorem maskAfterMem_isFatal {s : State} (hm : (memMask s.pipe.exmem s.par).isFatal = true) :
    (maskAfterMem s).isFatal = true := by
  simp [maskAfterMem, FaultMask.isFatal_or, hm]

theorem maskAfterEx_eq {s : State} (hm : (memMask s.pipe.exmem s.par).isFatal = false) :
    maskAfterEx s = wbMask s.pipe.memwb ||| (exOut s).fm := by
  simp [maskAfterEx, maskAfterMem, memMask_clear hm]

theorem logEntry_of_fatal {c : Nat} {fm : FaultMask} (h : fm.isFatal = true) : logEntry c fm = [(c, fm)] := by
  refine if_neg fun hclear => ?_
  simp [hclear] at h

/-! ## What each end leaves -/

/-- A fatal fault in MEM: WB's register write and the log entry (R222, D13). -/
theorem stopInMem_shape {s : State} (hm : (memMask s.pipe.exmem s.par).isFatal = true) :
    (stopInMem s).stopped = true ∧ (stopInMem s).cycle = s.cycle ∧
      (stopInMem s).faultLog = s.faultLog ++ [(s.cycle, wbMask s.pipe.memwb ||| memMask s.pipe.exmem s.par)] ∧
      (stopInMem s).x = (wbState s.pipe.memwb s).x ∧ (stopInMem s).dmem = s.dmem ∧ (stopInMem s).hi = s.hi ∧
      (stopInMem s).lo = s.lo ∧ (stopInMem s).lock = s.lock ∧ (stopInMem s).pipe = s.pipe ∧
      (stopInMem s).pc = s.pc := by
  have hfatal := maskAfterMem_isFatal hm
  have hentry := logEntry_of_fatal (c := s.cycle) hfatal
  refine ⟨?_, ?_, ?_, ?_⟩
  · simp [stopInMem, hfatal]
  · simp [stopInMem, hfatal]
  · simp only [stopInMem, State.endStep_faultLog, wbState_faultLog, wbState_cycle, hentry]
    rfl
  · simp [stopInMem]

theorem stopInId_isFatal (s : State) : (maskAfterEx s ||| FaultMask.illegalInstruction).isFatal = true := by
  simp [FaultMask.isFatal_or]

/-- A fatal fault in ID: WB, MEM and EX are done, and their latches filled (R222, D13). -/
theorem stopInId_shape {s : State} (hm : (memMask s.pipe.exmem s.par).isFatal = false) :
    (stopInId s).stopped = true ∧ (stopInId s).cycle = s.cycle ∧
      (stopInId s).faultLog = s.faultLog ++ [(s.cycle, wbMask s.pipe.memwb ||| (exOut s).fm ||| 0x20#6)] ∧
      (stopInId s).x = (wbState s.pipe.memwb s).x ∧ (stopInId s).dmem = (memState s.pipe.exmem s).dmem ∧
      (stopInId s).hi = (exOut s).state.hi ∧ (stopInId s).lo = (exOut s).state.lo ∧
      (stopInId s).lock = (exOut s).state.lock ∧ (stopInId s).pipe.memwb = nextMemWb s ∧
      (stopInId s).pipe.exmem = nextExMem s ∧ (stopInId s).pipe.idex = s.pipe.idex ∧
      (stopInId s).pipe.ifid = s.pipe.ifid ∧ (stopInId s).pc = s.pc := by
  have hfatal := stopInId_isFatal s
  have hentry := logEntry_of_fatal (c := s.cycle) hfatal
  refine ⟨?_, ?_, ?_, ?_⟩
  · simp [stopInId, hfatal]
  · simp [stopInId, hfatal]
  · rw [← maskAfterEx_eq hm]
    simp only [stopInId, State.endStep_faultLog, afterEx_faultLog, afterEx_cycle, hentry]
    rfl
  · have hex : (exOut s).state = afterEx s := rfl
    rw [hex]
    simp [stopInId, afterEx_dmem]

/-- A whole cycle counts and logs its mask if it has one (R40, R222). -/
theorem commit_shape {s : State} (hs : s.stopped = false) (hm : (memMask s.pipe.exmem s.par).isFatal = false)
    (sig : IdSignal) (f : Word) :
    (commit sig f s).stopped = false ∧ (commit sig f s).cycle = s.cycle + 1 ∧
      (commit sig f s).faultLog = s.faultLog ++ logEntry s.cycle (wbMask s.pipe.memwb ||| (exOut s).fm) := by
  have hfatal := maskAfterEx_isFatal hm
  refine ⟨?_, ?_, ?_⟩
  · simp [commit, hs, hfatal]
  · simp [commit, hfatal]
  · rw [← maskAfterEx_eq hm]
    simp [commit]

/-- Settles O37: each end is reached as the two faults say, and leaves what its shape says. -/
theorem fatalFaultAbandonsLaterStages : Obligations.FatalFaultAbandonsLaterStages := by
  refine ⟨fun s hr => ?taken, fun s t h => ?ends⟩
  case taken =>
    rw [clock_of_running hr]
    refine ⟨fun hm => ?_, fun hm hl => ?_, fun f hm hl hf => ?_⟩
    · exact ⟨_, clockCycle_of_memFault hm, (stopInMem_shape hm).1⟩
    · exact ⟨_, clockCycle_of_illegal hm hl, (stopInId_shape hm).1⟩
    · obtain ⟨i, hi⟩ := (legalWord_iff _ _).1 hl
      exact ⟨_, clockCycle_of_fetch hm hi hf, (commit_shape (running_stopped hr) hm _ f).1⟩
  case ends =>
    intro bad wz ex
    have hwz : wz = wbMask s.pipe.memwb := (wbMask_eq _).symm
    rw [hwz]
    refine ⟨fun hm => ?_, fun hm hl => ?_, fun hm hl => ?_⟩
    · obtain rfl := clock_of_memFault h hm
      exact stopInMem_shape hm
    · obtain rfl := clock_of_illegal h hm hl
      exact stopInId_shape hm
    · obtain ⟨i, f, -, -, rfl⟩ := clock_of_legal h hm hl
      exact commit_shape (running_stopped (clock_next h).1) hm _ f

end Sys2Proof.Machine
end

section
/-! What a completed cycle does in front of MEM: stall, flush or fetch (R219 to R221). -/

namespace Sys2Proof.Machine

/-- Every register reads in a completed cycle's end state as WB has left it; no later stage writes one. -/
@[simp] theorem reg_commit (sig : IdSignal) (f : Word) (s : State) (r : RegIdx) :
    (commit sig f s).reg r = (afterEx s).reg r := State.reg_congr (by simp [commit]) r

@[simp] theorem commit_pc (sig : IdSignal) (f : Word) (s : State) : (commit sig f s).pc = ifPc sig s := by
  simp [commit]

theorem stallCond_eq_stallOf (o : Opc) (p : Pipe) : stallCond o p.ifid.instr p.idex p.exmem = stallOf o p := rfl

/-- A completed cycle moves the words of EX and MEM on, whatever ID signals (R219, R220). -/
theorem commit_moves (sig : IdSignal) (f : Word) (s : State) :
    (commit sig f s).pipe.exmem.instr = s.pipe.idex.instr ∧ (commit sig f s).pipe.memwb.instr = s.pipe.exmem.instr := by
  rw [commit_pipe]; exact ⟨rfl, rfl⟩

/-- A stall keeps IF/ID and the pc, and puts a bubble into ID/EX (R220). -/
theorem commit_stall (f : Word) (s : State) : (commit .stall f s).pipe.ifid = s.pipe.ifid ∧
    (commit .stall f s).pc = s.pc ∧ (commit .stall f s).pipe.idex = IdEx.zero := by
  rw [commit_pipe, commit_pc]; exact ⟨rfl, rfl, rfl⟩

/-- A flush zeroes IF/ID and moves the pc to the target (R221). -/
theorem commit_flush (target f : Word) (s : State) : (commit (.flush target) f s).pipe.ifid = IfId.zero ∧
    (commit (.flush target) f s).pc = target := by
  rw [commit_pipe, commit_pc]; exact ⟨rfl, rfl⟩

/-- Else the word at the pc is latched and the pc moves behind it (R219). -/
theorem commit_proceed (f : Word) (s : State) :
    (commit .proceed f s).pipe.ifid = ⟨f, s.pc + 4#32, f.extractLsb' 21 5, f.extractLsb' 16 5⟩ ∧
      (commit .proceed f s).pc = s.pc + 4#32 := by
  rw [commit_pipe, commit_pc]; exact ⟨rfl, rfl⟩

/-- Without a stall the instruction in ID enters EX (R217). -/
theorem commit_idex {sig : IdSignal} (hsig : sig ≠ .stall) (f : Word) (s : State) :
    (commit sig f s).pipe.idex = idLatch s.pipe.ifid (afterEx s) := by
  rw [commit_pipe]
  cases sig with
  | stall => exact absurd rfl hsig
  | flush _ | proceed => rfl

/-- ID sees WB's write in the same cycle: the registers after the cycle (R24, R218). -/
theorem idVal_commit (p : Pipe) (sig : IdSignal) (f : Word) (s : State) :
    idVal p (commit sig f s) = idVal p (afterEx s) := by
  funext r
  rw [idVal_eq, idVal_eq, reg_commit]

/-- All that ID can tell IF (R218): stall has priority over flush (D26). -/
theorem idSignal_cases (i : Instr) (p : Pipe) (s : State) :
    (stallOf s.par.opc p = true ∧ idSignal i p s = .stall) ∨
      (stallOf s.par.opc p = false ∧ ∃ t, resolve i p.ifid.pcNext (idVal p s) = some t ∧ idSignal i p s = .flush t) ∨
      (stallOf s.par.opc p = false ∧ resolve i p.ifid.pcNext (idVal p s) = none ∧ idSignal i p s = .proceed) := by
  unfold idSignal
  cases stallOf s.par.opc p with
  | true => exact .inl ⟨rfl, rfl⟩
  | false =>
    cases hr : resolve i p.ifid.pcNext (idVal p s) with
    | some t => exact .inr (.inl ⟨rfl, t, rfl, by simp⟩)
    | none => exact .inr (.inr ⟨rfl, rfl, by simp⟩)

/-- ID's signal in a cycle that completes, on the registers after the cycle (R218). -/
theorem idSignal_afterEx_cases (i : Instr) (s : State) (f : Word) : let sig := idSignal i s.pipe (afterEx s)
    let target := resolve i s.pipe.ifid.pcNext (idVal s.pipe (commit sig f s))
    (stallOf s.par.opc s.pipe = true ∧ sig = .stall) ∨
      (stallOf s.par.opc s.pipe = false ∧ ∃ t, target = some t ∧ sig = .flush t) ∨
      (stallOf s.par.opc s.pipe = false ∧ target = none ∧ sig = .proceed) := by
  intro sig target
  have h := idSignal_cases i s.pipe (afterEx s)
  rwa [afterEx_par, ← idVal_commit s.pipe sig f s] at h

/-- Settles O38, by ID's signal. -/
theorem stallFlushAndFetch : Obligations.StallFlushAndFetch := by
  intro s t h ht
  obtain ⟨-, -, i, f, hi, hf, rfl⟩ := clock_completes h ht
  refine ⟨i, f, hi, hf, (commit_moves _ f s).1, (commit_moves _ f s).2, ?_⟩
  rw [stallCond_eq_stallOf]
  rcases idSignal_afterEx_cases i s f with ⟨hstall, hsig⟩ | ⟨hstall, target, hr, hsig⟩ | ⟨hstall, hr, hsig⟩
  · rw [hstall, hsig]
    exact ⟨fun _ => commit_stall f s, nofun⟩
  · rw [hstall, hr, hsig, commit_idex (by simp)]
    exact ⟨nofun, fun _ => ⟨rfl, rfl, commit_flush target f s⟩⟩
  · rw [hstall, hr, hsig, commit_idex (by simp)]
    exact ⟨nofun, fun _ => ⟨rfl, rfl, commit_proceed f s⟩⟩

/-! ## Consecutive stalls -/

/-- A stall with a bubble in EX is for a load in MEM (R302). -/
theorem exmem_memRead_of_stall {o : Opc} {p : Pipe} (hex : p.idex = IdEx.zero) (h : stallOf o p = true) :
    p.exmem.memRead = true := by
  rw [stallOf, hex] at h
  simp only [stallCond, loadUse, ctlEx, ctlMem, IdEx.zero, Bool.and_false, Bool.false_and, Bool.false_or,
    Bool.and_eq_true] at h
  exact h.1.2

/-- A stalled cycle leaves a bubble in EX and hands EX's load to MEM (R220). -/
theorem idex_exmem_of_stall {s t : State} (h : clock s = .next t) (ht : t.stopped = false)
    (hstall : stallOf s.par.opc s.pipe = true) :
    t.pipe.idex = IdEx.zero ∧ t.pipe.exmem.memRead = s.pipe.idex.memRead ∧ t.pipe.ifid = s.pipe.ifid ∧ t.pc = s.pc := by
  obtain ⟨-, -, i, f, -, -, rfl⟩ := clock_completes h ht
  rcases idSignal_afterEx_cases i s f with ⟨-, hsig⟩ | ⟨hno, -⟩ | ⟨hno, -⟩
  · obtain ⟨hifid, hpc, hidex⟩ := commit_stall f s
    rw [hsig]
    exact ⟨hidex, by rw [commit_pipe]; rfl, hifid, hpc⟩
  all_goals simp [hstall] at hno

/-- Settles O39: after one stalled cycle EX holds a bubble, after two MEM holds no load. -/
theorem stallInjectionLastsAtMostTwoCycles : Obligations.StallInjectionLastsAtMostTwoCycles := by
  refine ⟨fun s t h ht hstall => ?_, fun s t u h ht h' hu hs hstall => Bool.eq_false_iff.2 fun hstall' => ?_⟩
  · obtain ⟨hidex, -, hifid, hpc⟩ := idex_exmem_of_stall h ht hstall
    obtain ⟨-, -, i, f, -, -, rfl⟩ := clock_completes h ht
    exact ⟨hidex, hifid, hpc, commit_moves _ f s⟩
  · obtain ⟨hbubble, -⟩ := idex_exmem_of_stall h ht hs
    obtain ⟨hbubble', hload, -⟩ := idex_exmem_of_stall h' hu hstall
    have := exmem_memRead_of_stall hbubble' hstall'
    simp [hload, hbubble, IdEx.zero] at this

end Sys2Proof.Machine
end

section
/-! One completed clock cycle against the instructions in flight (R226): what a cycle does in WB, MEM and EX is the
oldest part of completing those instructions. -/

namespace Sys2Proof.Machine

/-! ## The parts of a cycle commute with what they do not touch -/

theorem State.setReg_logMask (s : State) (r : RegIdx) (v : Word) (fm : FaultMask) :
    (s.logMask fm).setReg r v = (s.setReg r v).logMask fm := by
  unfold State.setReg; split <;> rfl

theorem wbState_logMask (m : MemWb) (s : State) (fm : FaultMask) :
    wbState m (s.logMask fm) = (wbState m s).logMask fm := by
  unfold wbState; split
  · exact State.setReg_logMask s _ _ fm
  · rfl

theorem memState_logMask (e : ExMem) (s : State) (fm : FaultMask) :
    memState e (s.logMask fm) = (memState e s).logMask fm := by
  unfold memState; split <;> rfl

theorem execEX_logMask (i : Instr) (a b p : Word) (s : State) (fm : FaultMask) :
    execEX i a b p (s.logMask fm) = { execEX i a b p s with state := (execEX i a b p s).state.logMask fm } := by
  cases i <;> rfl

theorem execEXWord_logMask (w a b p : Word) (s : State) (fm : FaultMask) :
    execEXWord w a b p (s.logMask fm) =
      { execEXWord w a b p s with state := (execEXWord w a b p s).state.logMask fm } := by
  simp only [execEXWord, State.logMask_par]
  split
  · exact execEX_logMask ..
  · rfl

theorem execEXWord_wbState (w a b p : Word) (s : State) (m : MemWb) :
    execEXWord w a b p (wbState m s) =
      { execEXWord w a b p s with state := wbState m (execEXWord w a b p s).state } := by
  simp only [execEXWord, wbState_par]
  split
  · unfold wbState
    split
    · exact execEX_setReg ..
    · rfl
  · rfl

/-- The order of two log entries does not matter to the data. -/
theorem SameData.logMask_comm (s : State) (a b : FaultMask) :
    SameData ((s.logMask a).logMask b) ((s.logMask b).logMask a) := by
  refine ⟨rfl, rfl, rfl, rfl, rfl, rfl, rfl, rfl, fun k => ?_⟩
  simp only [State.logMask_faultLog, faultCount_append, faultCount_logEntry]
  omega

/-! ## WB, MEM and EX -/

/-- The mask of a cycle's WB, MEM and EX is logged as one entry or as two (R261). -/
theorem sameData_logMask_maskAfterEx {s : State}
    (hm : (memMask s.pipe.exmem s.par).isFatal = false) (u : State) :
    SameData (u.logMask (maskAfterEx s)) ((u.logMask (wbMask s.pipe.memwb)).logMask (exOut s).fm) := by
  rw [maskAfterEx_eq hm]
  refine SameData.logMask_or u ?_
  rw [BitVec.and_comm]
  exact ex_wb_disjoint _ _ _ _ _ _ (wbMask_cases _)

section
variable {s : State} (hinv : PipeInv s) (hs : s.stopped = false) (hm : (memMask s.pipe.exmem s.par).isFatal = false)

include hs hm in
/-- Behind MEM, completing differs from the cycle by the write of the next WB, and logs mask by mask. -/
theorem completeMem_eq_afterMem : completeMem s =
    ((wbState (nextMemWb s) (afterMem s)).logMask (wbMask s.pipe.memwb)).logMask (wbMask (nextMemWb s)) := by
  rw [completeMem_eq hs hm, memState_logMask, wbState_logMask, afterMem]

include hinv hs hm

/-- EX on the operands of sequential execution, in the state that the older instructions leave, is EX of the cycle. -/
theorem execEXWord_completeMem :
    let d := s.pipe.idex
    let o := execEXWord d.instr ((completeMem s).reg (rsOf d.instr)) ((completeMem s).reg (rtOf d.instr)) d.pcNext
      (completeMem s)
    o.result = (exOut s).result ∧ o.fm = (exOut s).fm ∧ o.state =
      ((wbState (nextMemWb s) (afterEx s)).logMask (wbMask s.pipe.memwb)).logMask (wbMask (nextMemWb s)) := by
  intro d o
  have ho : o = execEXWord d.instr (exOperandA s.par.opc s.pipe) (exOperandB s.par.opc s.pipe) d.pcNext
      (completeMem s) :=
    execEXWord_operands _ _ (fun h => (exOperandA_eq_reg hinv hs hm (by simpa using h)).symm)
      (fun h => (exOperandB_eq_reg hinv hs hm (by simpa using h)).symm)
  rw [ho, completeMem_eq_afterMem hs hm, execEXWord_logMask, execEXWord_logMask, execEXWord_wbState]
  simp [afterEx, exOut, exStage, d]

/-- EX/MEM holds the datum of sequential execution wherever MEM stores it. -/
theorem finishMem_nextExMem (u : State) :
    finishMem (exLatch s.pipe.idex (exOut s).result ((completeMem s).reg (rtOf s.pipe.idex.instr))) u =
      finishMem (nextExMem s) u := by
  refine finishMem_rtData (nextExMem s) _ u fun hstore => ?_
  have hrt : (controlOf s.par.opc s.pipe.idex.instr).hasRt = true :=
    (control_memWrite (hinv.latches.idexMemWrite ▸ hstore)).2.2
  exact (exOperandB_eq_reg hinv hs hm hrt).symm

theorem completeEx_eq : completeEx s = finishMem (nextExMem s)
    ((((wbState (nextMemWb s) (afterEx s)).logMask (wbMask s.pipe.memwb)).logMask (wbMask (nextMemWb s))).logMask
      (exOut s).fm) := by
  obtain ⟨hres, hfm, hst⟩ := execEXWord_completeMem hinv hs hm
  rw [completeEx, finishEx_running (completeMem_stopped hs hm)]
  simp only [hres, hfm, hst, finishMem_nextExMem hinv hs hm]

/-- After the cycle the instructions in WB and MEM are the ones in MEM and EX before it, and completing them leaves
the same data. -/
theorem sameData_completeMem_commit (sig : IdSignal) (f : Word) :
    SameData (completeMem (commit sig f s)) (completeEx s) := by
  have hc := commit_sameData hm sig f
  have hwb : SameData (finishWb (nextMemWb s) (commit sig f s))
      (((wbState (nextMemWb s) (afterEx s)).logMask (maskAfterEx s)).logMask (wbMask (nextMemWb s))) := by
    rw [← wbState_logMask, ← finishWb_running (by simpa using hs)]
    exact hc.finishWb _
  rw [completeEx_eq hinv hs hm, completeMem, commit_pipe]
  refine (hwb.trans ?_).finishMem _
  exact ((sameData_logMask_maskAfterEx hm _).logMask _).trans (SameData.logMask_comm _ _ _)

end

end Sys2Proof.Machine
end

section
/-! Agreement of the two levels carries over to the next instruction: what completes from ID, and the fetch of the
sequential model, depend on the architectural state only (R9, R226). -/

namespace Sys2Proof.Machine

theorem SameArch.refl (s : State) : SameArch s s := ⟨SameData.refl s, fun _ => rfl⟩

theorem SameArch.symm {s t : State} (h : SameArch s t) : SameArch t s :=
  ⟨h.toSameData.symm, fun ht => (h.pc (h.stopped.trans ht)).symm⟩

theorem SameArch.trans {s t u : State} (h : SameArch s t) (g : SameArch t u) : SameArch s u :=
  ⟨h.toSameData.trans g.toSameData, fun hs => (h.pc hs).trans (g.pc (h.stopped ▸ hs))⟩

/-- The pc of a stopped machine is not compared. -/
theorem SameData.toSameArch_of_stopped {s t : State} (h : SameData s t) (hs : s.stopped = true) : SameArch s t :=
  ⟨h, fun hs' => by simp [hs] at hs'⟩

/-- Completing from ID reads its operands afresh, so it does not matter in which state they were latched. -/
theorem finishEx_idLatch {u v : State} (h : u.par = v.par) (f : IfId) (s : State) :
    finishEx (idLatch f u) s = finishEx (idLatch f v) s := by
  have : idLatch f u = { idLatch f v with rsData := u.reg (rsOf f.instr), rtData := u.reg (rtOf f.instr) } := by
    simp [idLatch, h]
  rw [this, finishEx_latched]

/-- Apart from the pc, completing a legal word from ID is completing it from EX. -/
theorem sameData_finishId {f : IfId} {i : Instr} {s : State} (hd : decodeWord s.par.opc f.instr = .ok i) :
    SameData (finishId f s) (finishEx (idLatch f s) s) := by
  cases hs : s.stopped with
  | true =>
    rw [finishId_stopped hs, finishEx_stopped hs]
    exact SameData.refl s
  | false =>
    rw [finishId_ok hd hs]
    exact ((SameData.refl s).withPc _ s.pc).finishEx _

theorem finishId_illegal {f : IfId} {s : State} (hs : s.stopped = false) {e : DecodeReject}
    (hd : decodeWord s.par.opc f.instr = .error e) : finishId f s = s.faultStop FaultMask.illegalInstruction := by
  simp [finishId, hs, hd]

theorem SameArch.finishId {s t : State} (h : SameArch s t) (f : IfId) : SameArch (finishId f s) (finishId f t) := by
  cases hs : s.stopped with
  | true =>
    rw [finishId_stopped hs, finishId_stopped (h.stopped ▸ hs)]
    exact h
  | false =>
    have ht : t.stopped = false := h.stopped ▸ hs
    cases hd : decodeWord s.par.opc f.instr with
    | error e =>
      rw [finishId_illegal hs hd, finishId_illegal ht (h.par ▸ hd)]
      exact (h.toSameData.faultStop _).toSameArch_of_stopped rfl
    | ok i =>
      have hreg : s.reg = t.reg := funext h.toSameData.reg
      rw [finishId_ok hd hs, finishId_ok (h.par ▸ hd) ht, finishEx_idLatch h.par, hreg, h.pc hs]
      exact ⟨(h.toSameData.withPc _ _).finishEx _, fun _ => by simp⟩

/-- The next sequential instruction is the word at the pc completed from ID (R9). -/
theorem fetchThen_agrees {s : State} {w : Word} (hs : s.stopped = false) (hf : fetch s s.pc = .word w) :
    ∃ u, fetchThen exec s = .next u ∧ SameArch u (finishId (fetchedLatch s.pc w) { s with pc := nextPc s.pc }) := by
  cases hd : decodeWord s.par.opc w with
  | error e =>
    refine ⟨illegalStop s, by simp only [fetchThen, hf, hd], ?_⟩
    rw [finishId_illegal (s := { s with pc := nextPc s.pc }) hs hd]
    refine SameData.toSameArch_of_stopped ?_ rfl
    exact (SameData.endStep_fatal s rfl).trans (((SameData.refl s).withPc _ _).faultStop _)
  | ok i =>
    obtain ⟨u, hu, hdata, hpc⟩ := exec_agrees s hd hs
    refine ⟨u, (fetchThen_of_decodeWord exec hf hd).trans hu, ?_⟩
    rw [finishId_ok (s := { s with pc := nextPc s.pc }) hd hs]
    refine ⟨hdata.trans (((SameData.refl s).withPc _ _).finishEx _), fun h => ?_⟩
    rw [finishEx_pc]
    exact hpc h

/-- States that agree execute the same next instruction, and agree after it. -/
theorem SameArch.fetchThen {s t u : State} (h : SameArch s t) (hs : s.stopped = false)
    (hu : fetchThen exec s = .next u) : ∃ v, Machine.fetchThen exec t = .next v ∧ SameArch u v := by
  obtain ⟨w, hf⟩ : ∃ w, fetch s s.pc = .word w := by
    unfold Machine.fetchThen at hu
    split at hu
    · next w hw => exact ⟨w, hw⟩
    · cases hu
    · cases hu
  obtain ⟨u', hu', hsu⟩ := fetchThen_agrees hs hf
  obtain rfl : u' = u := Host.Outcome.next.inj (hu'.symm.trans hu)
  have ht : fetch t t.pc = .word w := by rw [← h.pc hs, fetch_congr ⟨h.imem.symm, h.par.symm⟩, hf]
  obtain ⟨v, hv, htv⟩ := fetchThen_agrees (h.stopped ▸ hs) ht
  refine ⟨v, hv, hsu.trans (SameArch.trans ?_ htv.symm)⟩
  rw [h.pc hs]
  exact SameArch.finishId ⟨h.toSameData.withPc _ _, fun _ => rfl⟩ _

end Sys2Proof.Machine
end

section
/-! The refinement of R226, cycle by cycle: a stalled or flushed cycle leaves the completed state alone, any other
cycle appends the instruction it fetches. -/

namespace Sys2Proof.Machine

/-- The target depends on the operands of a control instruction that reads registers, and on nothing else. -/
theorem resolve_congr_of_isCtlReg (i : Instr) (p : Word) {v v' : RegIdx → Word}
    (h : i.isCtlReg = true → v (rsOperand i) = v' (rsOperand i) ∧ v (rtOperand i) = v' (rtOperand i)) :
    resolve i p v = resolve i p v' := by
  cases i with
  | jr | beq | bne | bgtz => exact resolve_congr _ p (h rfl).1 (h rfl).2
  | _ => rfl

/-- Completing from ID leaves the target behind it, or the next address (R185). -/
theorem drain_pc {s : State} {i : Instr} (hi : decodeWord s.par.opc s.pipe.ifid.instr = .ok i)
    (hd : (drain s).stopped = false) :
    (drain s).pc = (resolve i s.pipe.ifid.pcNext (completeEx s).reg).getD s.pc := by
  have hex : (completeEx s).stopped = false := by
    refine Bool.eq_false_iff.2 fun h => ?_
    rw [drain_eq, finishId_stopped h] at hd
    simp [hd] at h
  rw [drain_eq, finishId_ok (by simpa using hi) hex, finishEx_pc, completeEx_pc]

@[simp] theorem idVal_zero (p : Pipe) (s : State) : idVal p s 0#5 = 0#32 := by simp [idVal_eq]

section
variable {s : State} (hinv : PipeInv s) (hs : s.stopped = false) (hm : (memMask s.pipe.exmem s.par).isFatal = false)
include hinv hs hm

/-- Without a stall ID resolves the transfer on the values of sequential execution (R218, R303). -/
theorem resolve_idVal {i : Instr} (hi : decodeWord s.par.opc s.pipe.ifid.instr = .ok i)
    (hstall : stallOf s.par.opc s.pipe = false) (p : Word) :
    resolve i p (idVal s.pipe (afterEx s)) = resolve i p (completeEx s).reg := by
  refine resolve_congr_of_isCtlReg i p fun hc => ?_
  have hval (r : RegIdx) (h0 : r ∉ srcs s.par.opc s.pipe.ifid.instr → r = 0#5) :
      idVal s.pipe (afterEx s) r = (completeEx s).reg r := by
    by_cases hr : r ∈ srcs s.par.opc s.pipe.ifid.instr
    · exact idVal_eq_reg hinv hs hm hstall hi hc hr
    · rw [h0 hr, idVal_zero, State.reg_zero]
  exact ⟨hval _ fun h => (operand_notMem_srcs hi h).1 rfl, hval _ fun h => (operand_notMem_srcs hi h).2 rfl⟩

/-- The instruction that leaves ID is completed as it was from ID. -/
theorem sameData_completeEx_commit {i : Instr} (hi : decodeWord s.par.opc s.pipe.ifid.instr = .ok i)
    {sig : IdSignal} (f : Word) (hsig : sig ≠ .stall) : SameData (completeEx (commit sig f s)) (drain s) := by
  rw [completeEx, commit_idex hsig, finishEx_idLatch (v := completeEx s) (by simp), drain_eq]
  exact ((sameData_completeMem_commit hinv hs hm sig f).finishEx _).trans (sameData_finishId (by simpa using hi)).symm

/-- A stalled cycle only completes what was in EX, MEM and WB (R220). -/
theorem sameArch_drain_stall (f : Word) : SameArch (drain (commit .stall f s)) (drain s) := by
  obtain ⟨hifid, hpc, hidex⟩ := commit_stall f s
  rw [drain_eq, drain_eq, completeEx, hidex, hifid, finishEx_zero]
  refine SameArch.finishId ⟨sameData_completeMem_commit hinv hs hm _ f, fun _ => ?_⟩ _
  rw [completeMem_pc, completeEx_pc, hpc]

/-- A flushed cycle has taken the transfer that completing takes (R221). -/
theorem sameArch_drain_flush {i : Instr} (hi : decodeWord s.par.opc s.pipe.ifid.instr = .ok i) {target : Word}
    (hstall : stallOf s.par.opc s.pipe = false)
    (hr : resolve i s.pipe.ifid.pcNext (idVal s.pipe (afterEx s)) = some target) (f : Word) :
    SameArch (drain (commit (.flush target) f s)) (drain s) := by
  obtain ⟨hifid, hpc⟩ := commit_flush target f s
  have hdata := sameData_completeEx_commit hinv hs hm hi (sig := .flush target) f (by simp)
  rw [drain_eq (commit _ _ _), hifid, finishId_zero]
  refine ⟨hdata, fun h => ?_⟩
  rw [drain_pc hi (hdata.stopped ▸ h), ← resolve_idVal hinv hs hm hi hstall, hr, completeEx_pc, hpc]
  rfl

/-- A cycle that fetches completes the instructions in flight and then the fetched one (R219). -/
theorem sameArch_drain_proceed {i : Instr} (hi : decodeWord s.par.opc s.pipe.ifid.instr = .ok i)
    (hstall : stallOf s.par.opc s.pipe = false)
    (hr : resolve i s.pipe.ifid.pcNext (idVal s.pipe (afterEx s)) = none) {f : Word} (hf : fetch s s.pc = .word f) :
    SameArch (drain (commit .proceed f s)) (drain s) ∨
      ((drain s).stopped = false ∧ ∃ u, fetchThen exec (drain s) = .next u ∧
        SameArch (drain (commit .proceed f s)) u) := by
  have hdata := sameData_completeEx_commit hinv hs hm hi (sig := .proceed) f (by simp)
  obtain ⟨hifid, hnext⟩ := commit_proceed f s
  rw [drain_eq (commit _ _ _), hifid]
  cases hd : (drain s).stopped with
  | true =>
    have hstop : (completeEx (commit .proceed f s)).stopped = true := hdata.stopped.trans hd
    rw [finishId_stopped hstop]
    exact .inl (hdata.toSameArch_of_stopped hstop)
  | false =>
    have hpc : (drain s).pc = s.pc := by rw [drain_pc hi hd, ← resolve_idVal hinv hs hm hi hstall, hr]; rfl
    have hfd : fetch (drain s) (drain s).pc = .word f := by
      have hkept : (drain s).imem = s.imem ∧ (drain s).par = s.par := by
        rw [← hdata.imem, ← hdata.par]; simp [commit]
      rw [hpc, fetch_congr hkept, hf]
    obtain ⟨u, hu, hsu⟩ := fetchThen_agrees hd hfd
    rw [hpc] at hsu
    refine .inr ⟨rfl, u, hu, SameArch.trans (SameArch.finishId ?_ _) hsu.symm⟩
    exact ⟨hdata.withPc _ _, fun _ => (completeEx_pc _).trans hnext⟩

end

/-- Settles O48, by ID's signal: a cycle that stalls or flushes stutters, a cycle that fetches is the next sequential
instruction unless an older one stops the machine. -/
theorem clockRefinesSequentialExecution : Obligations.ClockRefinesSequentialExecution := by
  intro s t hinv hc ht
  obtain ⟨hs, hm, i, f, hi, hf, rfl⟩ := clock_completes hc ht
  rcases idSignal_cases i s.pipe (afterEx s) with ⟨-, hsig⟩ | ⟨hstall, target, hr, hsig⟩ | ⟨hstall, hr, hsig⟩ <;>
    rw [hsig]
  · exact .inl (sameArch_drain_stall hinv hs hm f)
  · exact .inl (sameArch_drain_flush hinv hs hm hi (by simpa using hstall) hr f)
  · exact sameArch_drain_proceed hinv hs hm hi (by simpa using hstall) hr hf

end Sys2Proof.Machine
end

section
/-! The run loop over the pipeline (R223): the tests before each cycle, and the states at which a run ends. -/

namespace Sys2Proof.Machine

/-! ## The tests -/

/-- The fault, the halt condition and the cap are tested in this order (D30). -/
theorem statusOf_eq (halted : Bool) (s : State) : statusOf halted s =
    if s.stopped = true then .faultStopped else if halted = true then .halted
    else if s.cycle = s.par.maxCycles then .capped else .running := rfl

theorem stopped_of_faultStopped {halted : Bool} {s : State} (h : statusOf halted s = .faultStopped) :
    s.stopped = true := by
  rw [statusOf_eq] at h
  split at h
  · assumption
  · split at h
    · cases h
    · split at h <;> cases h

theorem halted_of_halted {halted : Bool} {s : State} (h : statusOf halted s = .halted) :
    s.stopped = false ∧ halted = true := by
  rw [statusOf_eq] at h
  split at h
  · cases h
  · next hs =>
    split at h
    · next hh => exact ⟨Bool.eq_false_iff.2 hs, hh⟩
    · split at h <;> cases h

theorem clockCycle_ne_fault (s : State) (r : Fault) : clockCycle s ≠ .fault r := by
  intro h
  unfold clockCycle at h
  split at h
  · cases h
  · split at h
    · cases h
    · split at h <;> cases h

/-! ## One turn of the loop -/

theorem runPipeline_of_halted {s : State} (h : pipeStatus s = .halted) (n : Nat) :
    runPipeline (n + 1) s = .halted s := by
  simp only [runPipeline, runLoop, h]

theorem runPipeline_of_faultStopped {s : State} (h : pipeStatus s = .faultStopped) (n : Nat) :
    runPipeline (n + 1) s = .faultStopped s := by
  simp only [runPipeline, runLoop, h]

theorem runPipeline_of_capped {s : State} (h : pipeStatus s = .capped) (n : Nat) :
    runPipeline (n + 1) s = .capped s := by
  simp only [runPipeline, runLoop, h]

theorem runPipeline_of_next {s t : State} (h : pipeStatus s = .running) (hc : clock s = .next t) (n : Nat) :
    runPipeline (n + 1) s = runPipeline n t := by
  simp only [runPipeline, runLoop, h, hc]

theorem runPipeline_of_refused {s : State} {r : Refusal} (h : pipeStatus s = .running) (hc : clock s = .refused r)
    (n : Nat) : runPipeline (n + 1) s = .refused r s := by
  simp only [runPipeline, runLoop, h, hc]

/-- The first turn of a run: the end that its state tests for, or a cycle, or a refused fetch. -/
theorem runPipeline_turn (s : State) :
    pipeStatus s = .halted ∨ pipeStatus s = .faultStopped ∨ pipeStatus s = .capped ∨
      (pipeStatus s = .running ∧ ((∃ t, clock s = .next t) ∨ ∃ r, clock s = .refused r)) := by
  cases hr : pipeStatus s with
  | halted => exact .inl rfl
  | faultStopped => exact .inr (.inl rfl)
  | capped => exact .inr (.inr (.inl rfl))
  | running =>
    refine .inr (.inr (.inr ⟨rfl, ?_⟩))
    cases hc : clock s with
    | next t => exact .inl ⟨t, rfl⟩
    | refused r => exact .inr ⟨r, rfl⟩
    | fault r => exact absurd ((clock_of_running hr).symm.trans hc) (clockCycle_ne_fault s r)

/-! ## Where a run ends -/

/-- The state a run returns meets the test it is named by. -/
def RunEnd.Tested : RunEnd → Prop
  | .halted u => pipeStatus u = .halted
  | .faultStopped u => pipeStatus u = .faultStopped
  | .capped u => pipeStatus u = .capped
  | .refused _ _ | .unfinished _ => True

theorem runPipeline_tested (n : Nat) (s : State) : (runPipeline n s).Tested := by
  induction n generalizing s with
  | zero => exact trivial
  | succ n ih =>
    rcases runPipeline_turn s with h | h | h | ⟨h, ⟨t, hc⟩ | ⟨r, hc⟩⟩
    · rw [runPipeline_of_halted h]; exact h
    · rw [runPipeline_of_faultStopped h]; exact h
    · rw [runPipeline_of_capped h]; exact h
    · rw [runPipeline_of_next h hc]; exact ih t
    · rw [runPipeline_of_refused h hc]; exact trivial

/-- Settles O53: the loop's tests are `statusOf`, both levels' steps ask them first, and each turn of a run is told by
its outcome. -/
theorem endOfRunTests : Obligations.EndOfRunTests := by
  refine ⟨fun s => statusOf_eq _ s, fun s => statusOf_eq _ s, fun s => ?clock, fun s => ?step,
    fun n s => ⟨fun h => runPipeline_of_halted h n, fun h => runPipeline_of_faultStopped h n,
      fun h => runPipeline_of_capped h n⟩, fun n s u => ?tested, fun n s t h hc => runPipeline_of_next h hc n⟩
  case clock => refine ⟨?_, ?_, ?_⟩ <;> intro h <;> rw [clock, h, whileRunning]
  case step => refine ⟨?_, ?_, ?_⟩ <;> intro h <;> rw [step, h, whileRunning]
  case tested =>
    have ht := runPipeline_tested n s
    refine ⟨?_, ?_, ?_⟩ <;> intro h <;> rwa [h] at ht

end Sys2Proof.Machine
end

section
/-! Whole runs (R223, R226): the pipeline invariant is kept by every completed cycle, so a run from reset follows the
sequential steps to its end. -/

namespace Sys2Proof.Machine

/-! ## The pipeline invariant along a run -/

/-- ID latches the operands that the register file holds for its word; for a bubble both are register 0 (R217, R220). -/
theorem idStage_latched (sig : IdSignal) (f : IfId) (s : State) :
    (idStage sig f s).rsData = s.reg (rsOf (idStage sig f s).instr) ∧
      (idStage sig f s).rtData = s.reg (rtOf (idStage sig f s).instr) := by
  cases sig with
  | stall => simp [idStage, IdEx.zero]
  | flush _ | proceed => exact ⟨rfl, rfl⟩

/-- No instruction enters EX right behind a load that it reads (R300). -/
theorem idStage_loadGap {i : Instr} {s : State} (hload : s.pipe.idex.memRead = true) :
    (srcs s.par.opc (idStage (idSignal i s.pipe (afterEx s)) s.pipe.ifid (afterEx s)).instr).contains
      s.pipe.idex.writeDest = false := by
  have hgap (h : stallOf s.par.opc s.pipe = false) :
      (srcs s.par.opc s.pipe.ifid.instr).contains s.pipe.idex.writeDest = false := by
    simp only [stallOf, stallCond, loadUse, hload, Bool.or_eq_false_iff, Bool.true_and] at h
    exact h.1.1
  rcases idSignal_cases i s.pipe (afterEx s) with ⟨-, hsig⟩ | ⟨hstall, target, -, hsig⟩ | ⟨hstall, -, hsig⟩ <;>
    rw [hsig]
  · rfl
  · exact hgap (afterEx_par s ▸ hstall)
  · exact hgap (afterEx_par s ▸ hstall)

/-- IF keeps the pc with a kept latch, and else moves it behind the word it latches (R219 to R221). -/
theorem ifLatch_frontPc {s : State} (h : s.pipe.ifid = IfId.zero ∨ s.pc = s.pipe.ifid.pcNext) (sig : IdSignal)
    (f : Word) : ifLatch sig f s = IfId.zero ∨ ifPc sig s = (ifLatch sig f s).pcNext := by
  cases sig with
  | stall => exact h
  | flush _ => exact .inl rfl
  | proceed => exact .inr rfl

/-- Every completed cycle keeps the pipeline invariant (R37, R300). -/
theorem PipeInv.clock {s t : State} (hinv : PipeInv s) (hc : clock s = .next t) (ht : t.stopped = false) :
    PipeInv t := by
  have hlatches : LatchInv t.par.opc t.pipe := latchInvariantKept s t hinv.latches hc
  obtain ⟨-, -, i, f, -, -, rfl⟩ := clock_completes hc ht
  have hpipe := commit_pipe (idSignal i s.pipe (afterEx s)) f s
  refine ⟨hlatches, ?_, ?_, ?_, ?_⟩
  · rw [reg_commit, hpipe]; exact (idStage_latched ..).1
  · rw [reg_commit, hpipe]; exact (idStage_latched ..).2
  · rw [commit_par, hpipe]; exact idStage_loadGap
  · rw [commit_pc, hpipe]
    exact ifLatch_frontPc hinv.frontPc _ f

/-! ## Runs from a state that meets a property kept by completed cycles -/

/-- A run within `P` ends Halted at a state of `P`, and FaultStopped by a cycle from one. -/
def RunEnd.Within (P : State → Prop) : RunEnd → Prop
  | .halted u => P u ∧ pipeStatus u = .halted
  | .faultStopped u => ∃ s, P s ∧ clock s = .next u ∧ u.stopped = true
  | .capped _ | .refused _ _ | .unfinished _ => True

theorem runPipeline_within {P : State → Prop}
    (hstep : ∀ s t, P s → clock s = .next t → t.stopped = false → P t) (n : Nat) {s : State} (hP : P s)
    (hs : s.stopped = false) : (runPipeline n s).Within P := by
  induction n generalizing s with
  | zero => exact trivial
  | succ n ih =>
    rcases runPipeline_turn s with h | h | h | ⟨h, ⟨t, hc⟩ | ⟨r, hc⟩⟩
    · rw [runPipeline_of_halted h]; exact ⟨hP, h⟩
    · simp [stopped_of_faultStopped h] at hs
    · rw [runPipeline_of_capped h]; exact trivial
    · rw [runPipeline_of_next h hc]
      cases ht : t.stopped with
      | false => exact ih (hstep s t hP hc ht) ht
      | true =>
        cases n with
        | zero => exact trivial
        | succ n =>
          rw [runPipeline_of_faultStopped (statusOf_of_stopped ht _)]
          exact ⟨s, hP, hc, ht⟩
    · rw [runPipeline_of_refused h hc]; exact trivial

/-! ## Following the sequential steps -/

theorem sequentialSteps_succ {k : Nat} {s t u : State} (h : sequentialSteps k s = .next t) (ht : t.stopped = false)
    (hu : fetchThen exec t = .next u) : sequentialSteps (k + 1) s = .next u := by
  induction k generalizing s with
  | zero =>
    cases h
    simp only [sequentialSteps, hu, ite_self]
  | succ k ih =>
    unfold sequentialSteps at h ⊢
    split at h
    · next s' hs' =>
      split at h
      · next hstop => cases h; simp [ht] at hstop
      · next hstop =>
        simp only [hstop]
        exact ih h
    · cases h
    · cases h

/-- The pipeline state stands for what some number of sequential steps from `s0` gives (R226). -/
structure FollowsSteps (s0 s : State) : Prop where
  inv : PipeInv s
  par : s.par = s0.par
  steps : ∃ k t, sequentialSteps k s0 = .next t ∧ SameArch (drain s) t

theorem FollowsSteps.clock {s0 s t : State} (h : FollowsSteps s0 s) (hc : clock s = .next t)
    (ht : t.stopped = false) : FollowsSteps s0 t := by
  obtain ⟨k, u, hk, hu⟩ := h.steps
  refine ⟨h.inv.clock hc ht, (clock_keeps_imem_par hc).2.trans h.par, ?_⟩
  rcases clockRefinesSequentialExecution s t h.inv hc ht with hsame | ⟨hd, v, hv, htv⟩
  · exact ⟨k, u, hk, hsame.trans hu⟩
  · obtain ⟨v', hv', hvv'⟩ := hu.fetchThen hd hv
    exact ⟨k + 1, v', sequentialSteps_succ hk (hu.stopped ▸ hd) hv', htv.trans hvv'⟩

/-- After reset nothing is in flight: four bubbles (R36, R45). -/
theorem drain_resetWith (c : Build) (b : BootInputs) : drain (resetWith c b) = resetWith c b := by
  have hnop : IdleWord c.opc 0#32 := ⟨.nop, decodeWord_zero _, .inr rfl⟩
  exact drain_idle (latchInv_resetWith c b) ⟨hnop, hnop, hnop, hnop⟩

theorem followsSteps_resetWith (c : Build) (b : BootInputs) : FollowsSteps (resetWith c b) (resetWith c b) :=
  ⟨pipeInv_resetWith c b, rfl, 0, _, rfl, by rw [drain_resetWith]; exact SameArch.refl _⟩

/-- Every run from reset follows the sequential steps to its end. -/
theorem runPipeline_follows (c : Build) (b : BootInputs) (n : Nat) :
    (runPipeline n (resetWith c b)).Within (FollowsSteps (resetWith c b)) :=
  runPipeline_within (fun _ _ h => h.clock) n (followsSteps_resetWith c b) rfl

/-- Settles O49: the run follows the sequential steps, and a halted pipeline has nothing left to complete. -/
theorem haltedRunIsASequentialRun : Obligations.HaltedRunIsASequentialRun := by
  intro c b n u hd hrun
  have hwithin := runPipeline_follows c b n
  rw [hrun] at hwithin
  obtain ⟨⟨hinv, hpar, k, t, hk, ht⟩, hhalted⟩ := hwithin
  obtain ⟨hs, hh⟩ := halted_of_halted hhalted
  have hud : u.par.opc.distinct = true := by rw [hpar]; exact hd
  obtain ⟨-, -, hdrain⟩ := haltedPipelineIsDrained u hud hinv.latches hs hh
  have hut := hdrain.trans ht
  exact ⟨k, t, hk, hut.stopped ▸ hs, hut⟩

/-! ## Fatal ends -/

/-- A fatal fault in MEM also ends the completion of the instructions in flight, right behind WB (R222, R256). -/
theorem drain_of_memFault {s : State} (hs : s.stopped = false) (hm : (memMask s.pipe.exmem s.par).isFatal = true) :
    drain s = ((wbState s.pipe.memwb s).logMask (wbMask s.pipe.memwb)).faultStop (memMask s.pipe.exmem s.par) := by
  have hmem : completeMem s =
      ((wbState s.pipe.memwb s).logMask (wbMask s.pipe.memwb)).faultStop (memMask s.pipe.exmem s.par) := by
    rw [completeMem, finishWb_running hs, finishMem_faults (by simpa using hs) (by simpa using hm)]
    simp
  rw [drain_eq, completeEx, hmem, finishEx_stopped rfl, finishId_stopped rfl]

/-- The masks of WB and MEM have no bit in common (R251). -/
theorem wbMask_memMask_disjoint (m : MemWb) (e : ExMem) (p : Params) : wbMask m &&& memMask e p = 0#6 := by
  rcases wbMask_cases m with h | h <;> rw [h]
  · unfold memMask checkData raiseIf
    split
    · split <;> split <;> rfl
    · rfl
  · exact BitVec.zero_and

theorem sameArch_stopInMem {s : State} (hs : s.stopped = false) (hm : (memMask s.pipe.exmem s.par).isFatal = true) :
    SameArch (stopInMem s) (drain s) := by
  have hfatal := maskAfterMem_isFatal hm
  rw [drain_of_memFault hs hm]
  refine SameData.toSameArch_of_stopped ?_ (stopInMem_shape hm).1
  exact (SameData.endStep_fatal _ hfatal).trans (SameData.faultStop_or _ (wbMask_memMask_disjoint ..))

/-- An illegal word in ID stops its completion, if no older instruction has (R203). -/
theorem drain_stopped_of_illegal {s : State} {e : DecodeReject}
    (hd : decodeWord s.par.opc s.pipe.ifid.instr = .error e) : (drain s).stopped = true := by
  rw [drain_eq]
  cases hs : (completeEx s).stopped with
  | true => rw [finishId_stopped hs, hs]
  | false => rw [finishId_illegal hs (by simpa using hd)]; rfl

/-- A cycle that stops the machine stops where completing the instructions in flight does. -/
theorem drain_of_clock_stopped {s t : State} (hc : clock s = .next t) (ht : t.stopped = true) :
    (drain s).stopped = true ∧ ((memMask s.pipe.exmem s.par).isFatal = true → SameArch t (drain s)) := by
  obtain ⟨hr, hcases⟩ := clock_next hc
  have hs := running_stopped hr
  rcases hcases with ⟨hm, rfl⟩ | ⟨hm, ⟨e, hd⟩, rfl⟩ | ⟨hm, i, f, -, -, rfl⟩
  · have hsame := sameArch_stopInMem hs hm
    exact ⟨hsame.stopped ▸ ht, fun _ => hsame⟩
  · exact ⟨drain_stopped_of_illegal hd, fun h => by simp [h] at hm⟩
  · simp [(commit_shape hs hm _ f).1] at ht

/-- Settles O50: the state before the stopping cycle follows the sequential steps, and its completion stops. -/
theorem faultStoppedRunIsASequentialStop : Obligations.FaultStoppedRunIsASequentialStop := by
  refine ⟨fun c b n u hrun => ?_, fun s t _ hc ht => drain_of_clock_stopped hc ht⟩
  have hwithin := runPipeline_follows c b n
  rw [hrun] at hwithin
  obtain ⟨s, ⟨-, -, k, t, hk, ht⟩, hc, hu⟩ := hwithin
  exact ⟨k, t, hk, ht.stopped ▸ (drain_of_clock_stopped hc hu).1⟩

end Sys2Proof.Machine
end

section
/-! WB and MEM in a clock cycle (R212, R213). -/

namespace Sys2Proof.Machine

/-- WB is the only stage that writes registers, and it acts in every cycle (R212, R222). -/
theorem reg_clock {s t : State} (h : clock s = .next t) (r : RegIdx) : t.reg r = (wbState s.pipe.memwb s).reg r := by
  rcases (clock_next h).2 with ⟨-, rfl⟩ | ⟨-, -, rfl⟩ | ⟨-, i, f, -, -, rfl⟩
  · simp [stopInMem]
  · exact State.reg_congr (by simp [stopInId]) r
  · rw [reg_commit, reg_afterEx]

theorem memMask_writeRegZero (e : ExMem) (p : Params) : (memMask e p).getLsbD 0 = false := by
  unfold memMask checkData
  split
  · rw [BitVec.getLsbD_or, raiseIf_getLsbD, raiseIf_getLsbD]
    exact Bool.or_eq_false_iff.2 ⟨Bool.and_false _, Bool.and_false _⟩
  · rfl

theorem exOut_fm_writeRegZero (s : State) : (exOut s).fm.getLsbD 0 = false := by
  unfold exOut exStage
  rcases execEXWord_fm_cases _ _ _ _ _ with h | h | h <;> rw [h] <;> rfl

/-- Neither MEM, EX nor ID raises `WriteRegZero` (R252). -/
theorem cycleTrace_fm_writeRegZero (s : State) :
    (cycleTrace s).fm.getLsbD 0 = (wbMask s.pipe.memwb).getLsbD 0 := by
  have hid : FaultMask.illegalInstruction.getLsbD 0 = false := rfl
  simp only [cycleTrace, cycleMask]
  split
  · simp only [maskAfterMem, BitVec.getLsbD_or, memMask_writeRegZero, Bool.or_false]
  · split <;> simp only [maskAfterEx, maskAfterMem, BitVec.getLsbD_or, memMask_writeRegZero, exOut_fm_writeRegZero, hid,
      Bool.or_false]

theorem faultCount_writeRegZero {s t : State} (h : clock s = .next t) :
    faultCount 0 t.faultLog = faultCount 0 s.faultLog +
      (if s.pipe.memwb.regWrite = true ∧ s.pipe.memwb.writeDest = 0#5 then 1 else 0) := by
  obtain ⟨-, u, hbody, rfl⟩ := clock_ends h
  rw [hbody.endStep_logs, faultCount_append, faultCount_logEntry, cycleTrace_fm_writeRegZero, wbMask_eq]
  split <;> rfl

/-- A completed cycle latches the registers as it leaves them, unless a bubble enters EX (R24, R217). -/
theorem idex_latched_of_clock {s t : State} (h : clock s = .next t) (ht : t.stopped = false) :
    t.pipe.idex.rsData = t.reg (rsOf t.pipe.idex.instr) ∧ t.pipe.idex.rtData = t.reg (rtOf t.pipe.idex.instr) := by
  obtain ⟨-, -, i, f, -, -, rfl⟩ := clock_completes h ht
  rw [commit_pipe, reg_commit, reg_commit]
  exact idStage_latched _ _ _

theorem wbView_eq (s : State) : wbView s =
    if s.pipe.memwb.regWrite = true ∧ s.pipe.memwb.writeDest ≠ 0#5 then
      some ⟨s.pipe.memwb.writeDest, s.pipe.memwb.rtData, s.reg s.pipe.memwb.writeDest != s.pipe.memwb.rtData⟩
    else none := by
  simp [wbView]

/-- Settles O35: `reg_clock` with WB's register rule, and the bit that only WB raises. -/
theorem writebackIsTheOnlyRegisterWriter : Obligations.WritebackIsTheOnlyRegisterWriter := by
  refine ⟨fun s t h => ⟨fun r => (reg_clock h r).trans (reg_wbState _ s r), faultCount_writeRegZero h,
    fun ht _ => idex_latched_of_clock h ht⟩, fun s v hv => ?_⟩
  have hview : wbView s = some v := hv
  rw [wbView_eq] at hview
  split at hview
  · next hw => cases hview; exact ⟨hw.1, rfl, hw.2, rfl, bne_iff_ne⟩
  · cases hview

/-! ## MEM -/

/-- A cycle without a fatal fault in MEM fills MEM/WB, also when ID stops it (R213, R222). -/
theorem clock_memwb {s t : State} (h : clock s = .next t) (hm : (memMask s.pipe.exmem s.par).isFatal = false) :
    t.pipe.memwb = nextMemWb s := by
  rcases (clock_next h).2 with ⟨hm', -⟩ | ⟨-, -, rfl⟩ | ⟨-, i, f, -, -, rfl⟩
  · simp [hm] at hm'
  · rw [stopInId_pipe]
  · rw [commit_pipe]; rfl

/-- A load's datum byte by byte (R63, R171 to R175). -/
theorem loadValue_eq (m : Memory 8) (a : Nat) (n : Width) (e : LoadExt) : loadValue m a n e = match n, e with
    | .word, _ => m.read a ++ m.read (a + 1) ++ m.read (a + 2) ++ m.read (a + 3)
    | .half, .sign => (m.read a ++ m.read (a + 1)).signExtend 32
    | .half, _ => (m.read a ++ m.read (a + 1)).setWidth 32
    | .byte, .sign => (m.read a).signExtend 32
    | .byte, _ => (m.read a).setWidth 32 := by
  cases n <;> cases e <;> rfl

/-- Settles O36: MEM/WB and the memory after the cycle are those of `memLatch` and `memState`. -/
theorem memStageOfACompletedCycle : Obligations.MemStageOfACompletedCycle := by
  intro s t h hwf e a n m
  refine ⟨fun hm => ?completed, fun hm => ?faulted⟩
  case completed =>
    have hdmem : t.dmem = (memState e s).dmem := by rw [clock_dmem h, hm]; rfl
    rw [clock_memwb h hm, hdmem]
    refine ⟨rfl, rfl, rfl, fun hw => ?store, fun hw => ?keeps, fun hw hr => ?load, fun hw hr => ?plain⟩
    case store =>
      have hstored : (memState e s).dmem = storeValue m a n e.rtData := by simp [memState, hw, m, a, n, e]
      have hdatum : (nextMemWb s).rtData = e.rtData := if_pos hw
      rw [hstored]
      exact ⟨hdatum, fun k hk => read_storeValue hwf a n _ hk, fun b hb => read_storeValue_other m a n _ b hb⟩
    case keeps => simp [memState, hw, m]
    case load =>
      have hdatum : (nextMemWb s).rtData = loadValue m a n (controlOf s.par.opc e.instr).ext :=
        (if_neg (by simp [e, hw])).trans (if_pos hr)
      exact hdatum.trans (loadValue_eq m a n _)
    case plain => exact (if_neg (by simp [e, hw])).trans (if_neg (by simp [e, hr]))
  case faulted =>
    obtain ⟨hstop, -, -, -, hdmem, -, -, -, hpipe, -⟩ := stopInMem_shape hm
    obtain rfl := clock_of_memFault h hm
    exact ⟨hstop, hdmem, congrArg Pipe.memwb hpipe⟩

end Sys2Proof.Machine
end

section
/-! The step outputs of a completed cycle (R224). -/

namespace Sys2Proof.Machine

/-- A stage is shown with its word and the mnemonic the decoder gives it, an illegal word with none (R105). -/
theorem stageView_names (o : Opc) (w : Word) :
    (∀ i, decodeWord o (stageView o w).word = .ok i → (stageView o w).mnemonic = some i.mnemonic) ∧
      (legalWord o (stageView o w).word = false → (stageView o w).mnemonic = none) := by
  refine ⟨fun i hi => ?_, fun hl => ?_⟩
  · have hi' : decodeWord o w = .ok i := hi
    simp only [stageView, hi']
  · obtain ⟨e, he⟩ := decodeWord_of_illegal (o := o) (w := w) hl
    simp only [stageView, he]

theorem isCtlRegWord_iff (o : Opc) (w : Word) :
    isCtlRegWord o w = true ↔ ∃ i, decodeWord o w = .ok i ∧ i.isCtlReg = true := by
  unfold isCtlRegWord
  cases decodeWord o w <;> simp

/-! ## Stall and flush -/

theorem signalOf_of_legal {s : State} {i : Instr} (hm : (memMask s.pipe.exmem s.par).isFatal = false)
    (hi : decodeWord s.par.opc s.pipe.ifid.instr = .ok i) : signalOf s = some (idSignal i s.pipe (afterEx s)) := by
  simp [signalOf, hm, hi]

section
variable {s : State}

theorem cycleTrace_of_stall (h : signalOf s = some .stall) :
    (cycleTrace s).stall = true ∧ (cycleTrace s).flush = false := by simp [cycleTrace, h]

theorem cycleTrace_of_flush {target : Word} (h : signalOf s = some (.flush target)) :
    (cycleTrace s).stall = false ∧ (cycleTrace s).flush = true := by simp [cycleTrace, h]

theorem cycleTrace_of_proceed (h : signalOf s = some .proceed) :
    (cycleTrace s).stall = false ∧ (cycleTrace s).flush = false := by simp [cycleTrace, h]

/-- What the trace says about stall and flush, and what the cycle then does (R219 to R221, R224). -/
theorem cycleTrace_signals {i : Instr} (hm : (memMask s.pipe.exmem s.par).isFatal = false)
    (hi : decodeWord s.par.opc s.pipe.ifid.instr = .ok i) {f : Word} {t : State}
    (ht : t = commit (idSignal i s.pipe (afterEx s)) f s) :
    let c := cycleTrace s
    c.stall = stallOf s.par.opc s.pipe ∧
      (c.flush = true ↔ c.stall = false ∧ ∃ target, resolve i s.pipe.ifid.pcNext (idVal s.pipe t) = some target) ∧
      (c.flush = true → t.pipe.ifid = IfId.zero) ∧ (c.flush = false → c.stall = false → t.pc = s.pc + 4#32) := by
  intro c
  have hsignal := signalOf_of_legal hm hi
  have hcases := idSignal_afterEx_cases i s f
  generalize idSignal i s.pipe (afterEx s) = sig at ht hsignal hcases
  subst ht
  rcases hcases with ⟨hs, rfl⟩ | ⟨hs, target, hr, rfl⟩ | ⟨hs, hr, rfl⟩
  · obtain ⟨hstall, hflush⟩ : c.stall = true ∧ c.flush = false := cycleTrace_of_stall hsignal
    rw [hstall, hflush, hs]
    exact ⟨rfl, ⟨nofun, nofun⟩, nofun, nofun⟩
  · obtain ⟨hstall, hflush⟩ : c.stall = false ∧ c.flush = true := cycleTrace_of_flush hsignal
    rw [hstall, hflush, hs]
    exact ⟨rfl, ⟨fun _ => ⟨rfl, target, hr⟩, fun _ => rfl⟩, fun _ => (commit_flush target f s).1, nofun⟩
  · obtain ⟨hstall, hflush⟩ : c.stall = false ∧ c.flush = false := cycleTrace_of_proceed hsignal
    rw [hstall, hflush, hs]
    refine ⟨rfl, ⟨nofun, fun ⟨_, target, ht⟩ => ?_⟩, nofun, fun _ _ => (commit_proceed f s).2⟩
    cases ht.symm.trans hr

end

/-! ## WB's write and the change of HI and LO -/

/-- The trace shows no register write exactly when WB makes none (R212). -/
theorem reg_of_wbView_none {s t : State} (h : clock s = .next t) (hv : wbView s = none) (r : RegIdx) :
    t.reg r = s.reg r := by
  rw [reg_clock h, reg_wbState]
  refine if_neg fun ⟨hw, hd, h0⟩ => ?_
  rw [wbView_eq, if_pos ⟨hw, hd ▸ h0⟩] at hv
  cases hv

theorem hiLoChanged_iff {s t : State} (h : clock s = .next t)
    (hm : (memMask s.pipe.exmem s.par).isFatal = false) :
    (cycleTrace s).hiLoChanged = true ↔ (t.hi ≠ s.hi ∨ t.lo ≠ s.lo) := by
  rcases clock_hi_lo_lock h with ⟨hm', -⟩ | ⟨-, hhi, hlo, -⟩
  · simp [hm] at hm'
  · simp [cycleTrace, hm, hhi, hlo]

/-! ## Forwarding -/

theorem cycleTrace_exRs {s : State} (hm : (memMask s.pipe.exmem s.par).isFatal = false) : (cycleTrace s).exRs.2 =
    fwdSource s.pipe (rsOf s.pipe.idex.instr) (controlOf s.par.opc s.pipe.idex.instr).hasRs := by
  simp [cycleTrace, hm]

theorem cycleTrace_exRt {s : State} (hm : (memMask s.pipe.exmem s.par).isFatal = false) : (cycleTrace s).exRt.2 =
    fwdSource s.pipe (rtOf s.pipe.idex.instr) (controlOf s.par.opc s.pipe.idex.instr).hasRt := by
  simp [cycleTrace, hm]

/-- ID's flag for an operand: a control instruction that does not stall, reads it, and finds its producer in MEM
(R218, R224). -/
theorem idFlag_iff {s : State} (hm : (memMask s.pipe.exmem s.par).isFatal = false) (has : Bool) (r : RegIdx) :
    (!(memMask s.pipe.exmem s.par).isFatal && isCtlRegWord s.par.opc s.pipe.ifid.instr &&
        !stallOf s.par.opc s.pipe && has && idForwards s.pipe r) = true ↔
      (stallOf s.par.opc s.pipe = false ∧
          ∃ i, decodeWord s.par.opc s.pipe.ifid.instr = .ok i ∧ i.isCtlReg = true) ∧
        has = true ∧ s.pipe.exmem.regWrite = true ∧ s.pipe.exmem.writeDest = r ∧ r ≠ 0#5 := by
  rw [← isCtlRegWord_iff, ← idForwards_iff]
  simp only [hm, Bool.not_false, Bool.true_and, Bool.and_eq_true, Bool.not_eq_true']
  tauto

theorem idVal_of_idForwards {p : Pipe} {r : RegIdx} (h : idForwards p r = true) (s : State) :
    idVal p s r = p.exmem.aluResult := if_pos h

/-- Settles O56, signal by signal. -/
theorem traceShowsTheCycle : Obligations.TraceShowsTheCycle := by
  intro s t h ht c m e w readsCtl
  obtain ⟨-, hm, i, f, hi, hf, hcommit⟩ := clock_completes h ht
  obtain ⟨hstall, hflush, hzero, hnext⟩ := cycleTrace_signals hm hi hcommit
  have hreads : readsCtl ↔ stallOf s.par.opc s.pipe = false ∧
      ∃ i, decodeWord s.par.opc s.pipe.ifid.instr = .ok i ∧ i.isCtlReg = true := by rw [← hstall]
  refine ⟨rfl, rfl, rfl, rfl, rfl, ⟨f, stageView s.par.opc f, hf, ?ifStage, rfl, ?names⟩, ?stall, ?flush, hzero, hnext,
    wbView_eq s, reg_of_wbView_none h, hiLoChanged_iff h hm, rfl, rfl, ?exRs, ?exRt, ?idRs, ?idRt, ?idRsVal, ?idRtVal⟩
  case ifStage => simp only [c, cycleTrace, hf]
  case names =>
    intro u hu
    obtain ⟨v, rfl⟩ : ∃ v, u = stageView s.par.opc v := by
      simp only [List.mem_cons, List.not_mem_nil, or_false] at hu
      rcases hu with rfl | rfl | rfl | rfl | rfl <;> exact ⟨_, rfl⟩
    exact stageView_names _ v
  case stall => rw [hstall, stallCond_eq_stallOf]
  case flush =>
    refine hflush.trans (and_congr_right fun _ => ⟨fun ⟨target, hr⟩ => ⟨i, target, hi, hr⟩, ?_⟩)
    rintro ⟨j, target, hj, hr⟩
    obtain rfl : i = j := Except.ok.inj (hi.symm.trans hj)
    exact ⟨target, hr⟩
  case exRs => rw [cycleTrace_exRs hm]; rfl
  case exRt => rw [cycleTrace_exRt hm, hcommit, commit_pipe]; rfl
  case idRs => rw [hreads]; exact idFlag_iff hm _ _
  case idRt => rw [hreads]; exact idFlag_iff hm _ _
  case idRsVal => exact fun hflag => idVal_of_idForwards (Bool.and_eq_true _ _ ▸ hflag).2 t
  case idRtVal => exact fun hflag => idVal_of_idForwards (Bool.and_eq_true _ _ ▸ hflag).2 t

end Sys2Proof.Machine
end

section
/-! The fault log (R39, R256, R261): a step appends at most the entry of its own mask, in the current cycle, and that
mask is one of the level's possible ones. -/

namespace Sys2Proof.Machine

theorem mem_logEntry_iff {c : Nat} {fm : FaultMask} {e : Nat × FaultMask} :
    e ∈ logEntry c fm ↔ fm ≠ FaultMask.clear ∧ e = (c, fm) := by
  unfold logEntry
  split <;> simp [*]

theorem pairwise_logEntry (R : Nat × FaultMask → Nat × FaultMask → Prop) (c : Nat) (fm : FaultMask) :
    (logEntry c fm).Pairwise R := by
  unfold logEntry
  split
  · exact List.Pairwise.nil
  · exact List.pairwise_singleton R _

/-- The end of a step of a running machine keeps the log possible, if its mask is clear or a possible one. -/
theorem LogInv.endStep {possible : List FaultMask} {s u : State} {fm : FaultMask} (h : LogInv possible s)
    (hs : s.stopped = false) (hb : StepBody s u) (hfm : fm ∈ FaultMask.clear :: possible) :
    LogInv possible (u.endStep fm) := by
  have hold := h.running hs
  have hstopped : (u.endStep fm).stopped = fm.isFatal := by rw [State.endStep_stopped, hb.stopped, hs, Bool.false_or]
  have hcycle := hb.endStep_counts hs fm
  have hlog := hb.endStep_logs fm
  refine ⟨fun e he => ?_, ?_, fun hrun e he => ?_, fun hstop => ?_⟩
  · rw [hlog, List.mem_append, mem_logEntry_iff] at he
    rcases he with he | ⟨hne, rfl⟩
    · exact h.masks e he
    · exact (List.mem_cons.1 hfm).resolve_left hne
  · rw [hlog, List.pairwise_append]
    refine ⟨h.ordered, pairwise_logEntry _ _ _, fun a ha b hb => ?_⟩
    obtain ⟨-, rfl⟩ := mem_logEntry_iff.1 hb
    exact (hold a ha).2
  · rw [hlog, List.mem_append, mem_logEntry_iff] at he
    rw [hcycle, hrun]
    rcases he with he | ⟨-, rfl⟩
    · exact ⟨(hold e he).1, Nat.lt_succ_of_lt (hold e he).2⟩
    · exact ⟨hstopped ▸ hrun, Nat.lt_succ_self _⟩
  · rw [hcycle, hstop, hlog, logEntry_of_fatal (hstopped ▸ hstop)]
    exact ⟨s.faultLog, fm, rfl, hstopped ▸ hstop, hold⟩

/-! ## What each part of a step can raise (R250 to R258) -/

theorem raiseIf_mem (c : Bool) (bit : FaultMask) : raiseIf c bit ∈ [FaultMask.clear, bit] := by
  cases c <;> simp [raiseIf]

theorem wbMask_mem (m : MemWb) : wbMask m ∈ [0x00#6, 0x01#6] := by
  rcases wbMask_cases m with h | h <;> rw [h] <;> decide

theorem checkData_mem (p : Params) (a : Word) (n : Width) :
    checkData p a n ∈ [0x00#6, 0x08#6, 0x10#6, 0x18#6] := by
  have hor : ∀ x ∈ [FaultMask.clear, FaultMask.addressOverflow], ∀ y ∈ [FaultMask.clear, FaultMask.misaligned],
      x ||| y ∈ [0x00#6, 0x08#6, 0x10#6, 0x18#6] := by decide
  exact hor _ (raiseIf_mem _ _) _ (raiseIf_mem _ _)

theorem memMask_mem (e : ExMem) (p : Params) : memMask e p ∈ [0x00#6, 0x08#6, 0x10#6, 0x18#6] := by
  unfold memMask
  split
  · exact checkData_mem ..
  · decide

theorem exOut_fm_mem (s : State) : (exOut s).fm ∈ [0x00#6, 0x02#6, 0x04#6] := by
  have h : (exOut s).fm = FaultMask.clear ∨ (exOut s).fm = FaultMask.numberOverflow ∨
      (exOut s).fm = FaultMask.hiLoOverwrite := execEXWord_fm_cases ..
  rcases h with h | h | h <;> rw [h] <;> decide

/-! ## The masks of a clock cycle -/

/-- WB's bit with MEM's, or with EX's and then possibly ID's (R222, R261 item 2). -/
theorem cycleMask_mem (s : State) : cycleMask s ∈ FaultMask.clear :: pipelineMasks := by
  have hmem : ∀ x ∈ [0x00#6, 0x01#6], ∀ y ∈ [0x00#6, 0x08#6, 0x10#6, 0x18#6],
      x ||| y ∈ FaultMask.clear :: pipelineMasks := by decide
  have hex : ∀ x ∈ [0x00#6, 0x01#6], ∀ y ∈ [0x00#6, 0x02#6, 0x04#6],
      x ||| y ∈ FaultMask.clear :: pipelineMasks ∧
        x ||| y ||| FaultMask.illegalInstruction ∈ FaultMask.clear :: pipelineMasks := by decide
  have hends := hex _ (wbMask_mem s.pipe.memwb) _ (exOut_fm_mem s)
  unfold cycleMask
  split
  · exact hmem _ (wbMask_mem _) _ (memMask_mem _ _)
  · next hm =>
    rw [maskAfterEx_eq (Bool.eq_false_iff.2 hm)]
    split
    · exact hends.1
    · exact hends.2

theorem LogInv.clock {s t : State} (h : LogInv pipelineMasks s) (hc : clock s = .next t) :
    LogInv pipelineMasks t := by
  obtain ⟨hs, u, hb, rfl⟩ := clock_ends hc
  exact h.endStep hs hb (cycleMask_mem s)

/-! ## The masks of a sequential step -/

theorem seqEx_fm_mem {i : Instr} (h : isMultiply i = false) (s : State) : (seqEx i s).fm ∈ [0x00#6, 0x02#6] := by
  cases i with
  | mult | multu => cases h
  | add | sub | addi | lw | lh | lhu | lb | lbu | sw | sh | sb => exact raiseIf_mem _ FaultMask.numberOverflow
  | _ => exact List.mem_cons_self

/-- A multiply makes no access and writes no general register (R150, R151). -/
theorem multiply_control {i : Instr} (h : isMultiply i = true) : i.control = Control.reads true true := by
  cases i with
  | mult | multu => rfl
  | _ => cases h

/-- So it raises `HiLoOverwrite` alone. -/
theorem seqMask_multiply_mem {i : Instr} (h : isMultiply i = true) (s : State) : seqMask i s ∈ [0x00#6, 0x04#6] := by
  have hwb : wbMask (seqWb i s) = FaultMask.clear := by
    simp [wbMask, seqWb, multiply_control h, Control.reads, Control.none]
  rw [seqMask, hwb, FaultMask.or_clear]
  cases i with
  | mult | multu => exact raiseIf_mem _ FaultMask.hiLoOverwrite
  | _ => cases h

theorem accessMask_multiply {i : Instr} (h : isMultiply i = true) (s : State) : accessMask i s = FaultMask.clear :=
  accessMask_noAccess (by rw [multiply_control h]; rfl) (by rw [multiply_control h]; rfl)

/-- An instruction that completes raises `HiLoOverwrite`, or at most `NumberOverflow` and `WriteRegZero`. -/
theorem seqMask_mem (i : Instr) (s : State) : seqMask i s ∈ FaultMask.clear :: sequentialMasks := by
  cases hmul : isMultiply i with
  | true =>
    have hsub : ∀ x ∈ [0x00#6, 0x04#6], x ∈ FaultMask.clear :: sequentialMasks := by decide
    exact hsub _ (seqMask_multiply_mem hmul s)
  | false =>
    have hor : ∀ x ∈ [0x00#6, 0x02#6], ∀ y ∈ [0x00#6, 0x01#6], x ||| y ∈ FaultMask.clear :: sequentialMasks := by
      decide
    exact hor _ (seqEx_fm_mem hmul s) _ (wbMask_mem _)

theorem accessMask_mem (i : Instr) (s : State) : accessMask i s ∈ [0x00#6, 0x08#6, 0x10#6, 0x18#6] := by
  unfold accessMask
  split
  · exact checkData_mem ..
  · decide

/-- A failed check stands alone or with the `NumberOverflow` of its address add (R170, R261 item 3). -/
theorem failedAccess_mem {i : Instr} {s : State} (ha : accessMask i s ≠ FaultMask.clear) :
    (seqEx i s).fm ||| accessMask i s ∈ FaultMask.clear :: sequentialMasks := by
  have hor : ∀ x ∈ [0x00#6, 0x02#6], ∀ y ∈ [0x00#6, 0x08#6, 0x10#6, 0x18#6], y ≠ FaultMask.clear →
      x ||| y ∈ FaultMask.clear :: sequentialMasks := by decide
  cases hmul : isMultiply i with
  | true => exact absurd (accessMask_multiply hmul s) ha
  | false => exact hor _ (seqEx_fm_mem hmul s) _ (accessMask_mem i s) ha

theorem exec_ends_possible {i : Instr} {s t : State} (h : exec i s = .next t) :
    ∃ u fm, StepBody s u ∧ fm ∈ FaultMask.clear :: sequentialMasks ∧ t = u.endStep fm := by
  rcases exec_next h with ⟨-, rfl⟩ | ⟨ha, rfl⟩
  · exact ⟨_, _, seqEffects_stepBody i s, seqMask_mem i s, rfl⟩
  · exact ⟨_, _, StepBody.refl s, failedAccess_mem ha, rfl⟩

theorem LogInv.step {s t : State} (h : LogInv sequentialMasks s) (hstep : step s = .next t) :
    LogInv sequentialMasks t := by
  obtain ⟨hr, w, -, ⟨i, -, he⟩ | ⟨-, rfl⟩⟩ := step_next hstep
  · obtain ⟨u, fm, hb, hfm, rfl⟩ := exec_ends_possible he
    exact h.endStep (running_stopped hr) hb hfm
  · exact h.endStep (running_stopped hr) (StepBody.refl s) (by decide)

/-- Settles O46, by the end of a step at each level. -/
theorem faultLogInvariantKept : Obligations.FaultLogInvariantKept :=
  ⟨fun _ _ h hc => h.clock hc, fun _ _ h hs => h.step hs⟩

end Sys2Proof.Machine
end

section
/-! The pipeline invariant as an obligation of its own (R300), and the corner where a stop in ID leaves an older store
unmade (R222 against R226 and R263; log 10). -/

namespace Sys2Proof.Machine

/-- Settles O44: `PipeInv.clock`, which whole runs rest on as well. -/
theorem pipelineInvariantKept : Obligations.PipelineInvariantKept := fun _ _ h hc ht => h.clock hc ht

/-- A pipeline with an illegal word in ID (address 4) and `SW $2, 0($0)` in EX (address 0), `x[2]` being 9: MEM and WB
hold bubbles. -/
def illegalBehindStore : State :=
  let s := (resetWith Build.default ⟨0#32, [], 0#32, []⟩).setReg 2#5 9#32
  { s with
    pc := 8#32
    pipe :=
      { Pipe.empty with
        ifid := fetchedLatch 4#32 0x04000000#32
        idex := idLatch (fetchedLatch 0#32 0xAC020000#32) s } }

theorem pipeInv_illegalBehindStore : PipeInv illegalBehindStore :=
  ⟨by constructor <;> decide, by decide, by decide, by decide, by decide⟩

/-- The cycle stops in ID, and byte 3 of the data memory still is 0. -/
theorem clock_illegalBehindStore : ∃ t, clock illegalBehindStore = .next t ∧ t.stopped = true ∧ t.dmem.read 3 = 0#8 :=
  ⟨stopInId illegalBehindStore, rfl, by decide, by decide⟩

/-- Completed on its own, the store leaves 9 in byte 3. -/
theorem drain_illegalBehindStore : (drain illegalBehindStore).dmem.read 3 = 9#8 := by decide

/-- Refutes O51: the store in EX is abandoned with the cycle that the illegal word behind it stops. -/
theorem not_illegalStopHasSequentialMemory : ¬ Obligations.IllegalStopHasSequentialMemory := by
  intro h
  obtain ⟨t, hc, ht, hbyte⟩ := clock_illegalBehindStore
  have hmem : t.dmem = (drain illegalBehindStore).dmem := h _ t pipeInv_illegalBehindStore hc ht
  rw [hmem, drain_illegalBehindStore] at hbyte
  exact absurd hbyte (by decide)

end Sys2Proof.Machine
end

section
/-! The stall condition by mnemonic (R300 to R305): what each of its three parts asks of `Srcs`, and when `Srcs` is
empty. -/

namespace Sys2Proof.Machine

/-- `Srcs` as a property of the register: non-zero, and read as `rs` or as `rt` (R103, R300). -/
theorem mem_srcs_iff (o : Opc) (w : Word) (r : RegIdx) : r ∈ srcs o w ↔
    r ≠ 0#5 ∧ ((controlOf o w).hasRs = true ∧ r = rsOf w ∨ (controlOf o w).hasRt = true ∧ r = rtOf w) := by
  have hpart (has : Bool) (q : RegIdx) :
      (r ∈ if has && q != 0#5 then [q] else []) ↔ r ≠ 0#5 ∧ has = true ∧ r = q := by
    rw [List.mem_ite_nil_right, List.mem_singleton, Bool.and_eq_true, bne_iff_ne]
    exact ⟨fun ⟨⟨h, h0⟩, hq⟩ => ⟨hq ▸ h0, h, hq⟩, fun ⟨h0, h, hq⟩ => ⟨⟨h, hq ▸ h0⟩, hq⟩⟩
  rw [srcs, List.mem_append, hpart, hpart, and_or_left]

theorem zero_notMem_srcs (o : Opc) (w : Word) : 0#5 ∉ srcs o w := fun h => ((mem_srcs_iff o w _).1 h).1 rfl

theorem notMem_srcs_of_reads_none {o : Opc} {w : Word} (hrs : (controlOf o w).hasRs = false)
    (hrt : (controlOf o w).hasRt = false) (r : RegIdx) : r ∉ srcs o w := by
  simp [mem_srcs_iff, hrs, hrt]

/-- Load-use, control against EX, control against a load in MEM (R300 to R302, R305). -/
theorem stallCond_iff (o : Opc) (w : Word) (d : IdEx) (e : ExMem) : stallCond o w d e = true ↔
    d.memRead = true ∧ d.writeDest ∈ srcs o w ∨
      isCtlRegWord o w = true ∧ d.regWrite = true ∧ d.writeDest ∈ srcs o w ∨
      isCtlRegWord o w = true ∧ e.regWrite = true ∧ e.memRead = true ∧ e.writeDest ∈ srcs o w := by
  simp only [stallCond, loadUse, ctlEx, ctlMem, Bool.or_eq_true, Bool.and_eq_true, List.contains_iff_mem, and_assoc,
    or_assoc]

/-- Every part of the condition needs a destination that the word's instruction reads. -/
theorem stallCond_eq_false {o : Opc} {w : Word} {d : IdEx} {e : ExMem} (hd : d.writeDest ∉ srcs o w)
    (he : e.writeDest ∉ srcs o w) : stallCond o w d e = false := by
  simp [Bool.eq_false_iff, stallCond_iff, hd, he]

theorem Instr.isCtlReg_iff (i : Instr) : i.isCtlReg = true ↔ (∃ rs rt c, i = .beq rs rt c) ∨
    (∃ rs rt c, i = .bne rs rt c) ∨ (∃ rs c, i = .bgtz rs c) ∨ ∃ rs, i = .jr rs := by
  cases i <;> simp [Instr.isCtlReg]

theorem isCtlRegWord_of_decodeWord {o : Opc} {w : Word} {i : Instr} (h : decodeWord o w = .ok i) :
    isCtlRegWord o w = i.isCtlReg := by
  simp only [isCtlRegWord, h]

theorem stallCond_of_reads_none {o : Opc} {w : Word} {i : Instr} (h : decodeWord o w = .ok i)
    (hrs : i.control.hasRs = false) (hrt : i.control.hasRt = false) (d : IdEx) (e : ExMem) :
    stallCond o w d e = false := by
  rw [← control_of_decodeWord h] at hrs hrt
  exact stallCond_eq_false (notMem_srcs_of_reads_none hrs hrt _) (notMem_srcs_of_reads_none hrs hrt _)

/-- Settles O40: the three parts over `Srcs`, which register 0 is never in and which is empty for the named
instructions. -/
theorem stallConditionByMnemonic : Obligations.StallConditionByMnemonic := by
  refine ⟨fun o w i d e hi => ?_, fun o w d e hi => ?_, fun o w d e hd he => ?_, fun o w => ?_⟩
  · intro reads ctl
    rw [stallCond_iff, isCtlRegWord_of_decodeWord hi, Instr.isCtlReg_iff, mem_srcs_iff, mem_srcs_iff]
  · rcases hi with hi | hi | ⟨_, hi⟩ | ⟨_, hi⟩ | ⟨_, _, hi⟩ | ⟨_, hi⟩ | ⟨_, hi⟩ <;>
      exact stallCond_of_reads_none hi rfl rfl d e
  · exact stallCond_eq_false (hd ▸ zero_notMem_srcs o w) (he ▸ zero_notMem_srcs o w)
  · exact stallCond_eq_false (zero_notMem_srcs o w) (zero_notMem_srcs o w)

end Sys2Proof.Machine
end

section
/-! The reset sequence (R281): what every piece of state holds. -/

namespace Sys2Proof.Machine

/-- An image loaded into an empty memory is read back item by item, and 0 past its end (R281). -/
theorem Memory.read_writeAll_nil {n : Nat} (vs : List (BitVec n)) (i : Nat) :
    (Memory.writeAll [] 0 vs).read i = vs.getD i 0#n := by
  rw [Memory.read_writeAll vs [] rfl]
  split
  · next h => exact (List.getD_eq_getElem vs 0#n h.2).symm
  · next h => exact (List.getD_eq_default vs 0#n (by omega)).symm

/-- Register 29 is set in a register file of zeros (R281). -/
theorem reg_resetWith (c : Build) (b : BootInputs) (r : RegIdx) :
    (resetWith c b).reg r = if r = 29#5 then b.stackPointer else 0#32 := by
  have hreg : (resetWith c b).reg r =
      if r = 0#5 then 0#32 else if 29 = r.toNat then b.stackPointer else 0#32 := by
    simp [State.reg, resetWith, Vector.getElem_set]
  rw [hreg]
  by_cases h0 : r = 0#5
  · subst h0; rfl
  · rw [if_neg h0]
    exact if_congr ⟨fun h => BitVec.eq_of_toNat_eq h.symm, fun h => h ▸ rfl⟩ rfl rfl

/-- Settles O32: the register file, the two images, and every other piece by evaluation. -/
theorem resetSequence : Obligations.ResetSequence := fun c b =>
  ⟨rfl, rfl, reg_resetWith c b, rfl, rfl, rfl, Memory.read_writeAll_nil b.words, Memory.read_writeAll_nil b.bytes, rfl,
    rfl, rfl, rfl, rfl, rfl, rfl, rfl, rfl, rfl, rfl⟩

end Sys2Proof.Machine
end

section
/-! The image files (R282 to R285): the parsers take back what a file of big-endian words lays out. -/

namespace Sys2Proof.Machine

theorem takeWord_wordBytes (w : Word) (rest : List Byte) : takeWord (wordBytes w ++ rest) = some (w, rest) := by
  simp only [wordBytes, List.cons_append, List.nil_append, takeWord, wordOfBytes_extract]

theorem takeWords_flatMap_wordBytes (ws : List Word) : takeWords ws.length (ws.flatMap wordBytes) = some ws := by
  induction ws with
  | nil => rfl
  | cons w ws ih => simp only [List.length_cons, List.flatMap_cons, takeWords, takeWord_wordBytes, ih, Option.map_some]

theorem takeBytes_length (bs : List Byte) : takeBytes bs.length bs = some bs := by simp [takeBytes]

/-- An instruction image is its header and the words the header counts (R282). -/
theorem parseInstructionImage_header (pc count : Word) (payload : List Byte) :
    parseInstructionImage (wordBytes pc ++ wordBytes count ++ payload) =
      (takeWords count.toNat payload).map (pc, ·) := by
  simp only [parseInstructionImage, List.append_assoc, takeWord_wordBytes]

/-- A data image is its header and the bytes the header counts, in either unit (R283, R284). -/
theorem parseDataImage_header (u : CountUnit) (sp count : Word) (payload : List Byte) :
    parseDataImage u (wordBytes sp ++ wordBytes count ++ payload) =
      (takeBytes (payloadBytes u count.toNat) payload).map (sp, ·) := by
  simp only [parseDataImage, List.append_assoc, takeWord_wordBytes]

theorem parseDataImage_of_length {u : CountUnit} {n : Nat} (hn : n < 2 ^ 32) {bs : List Byte}
    (h : bs.length = payloadBytes u n) (sp : Word) :
    parseDataImage u (wordBytes sp ++ wordBytes (BitVec.ofNat 32 n) ++ bs) = some (sp, bs) := by
  rw [parseDataImage_header, BitVec.toNat_ofNat, Nat.mod_eq_of_lt hn, ← h, takeBytes_length, Option.map_some]

theorem BootInputs.wellFormed_iff (c : Build) (b : BootInputs) : b.wellFormed c = true ↔
    b.initialPC.toNat % 4 = 0 ∧ b.words.length ≤ c.imemWords ∧ b.bytes.length ≤ c.dmemBytes ∧
      c.dmemBytes % 4 = 0 := by
  simp only [BootInputs.wellFormed, Bool.and_eq_true, beq_iff_eq, decide_eq_true_eq, lowBits_eq_zero_iff, and_assoc]

/-- Settles O34: both headers are read back, a count below 2^32 is its own word, and `boot` tests what the statement
lists. -/
theorem imageFilesBootTheMachine : Obligations.ImageFilesBootTheMachine := by
  refine ⟨fun pc ws hws => ?_, fun sp bs n hn hbs => parseDataImage_of_length hn hbs sp,
    fun sp bs hbs => parseDataImage_of_length hbs rfl sp, fun c b => ?_⟩
  · rw [parseInstructionImage_header, BitVec.toNat_ofNat, Nat.mod_eq_of_lt hws, takeWords_flatMap_wordBytes,
      Option.map_some]
  · exact if_congr (BootInputs.wellFormed_iff c b) rfl rfl

end Sys2Proof.Machine
end
